-- ==== Sys2Proof/Word.lean ====
section
/-! DEFINITION. The two widths of the decoder's values (00_scope R7, R11): the stream's byte and the
16-bit displacement or immediate. Every operation on them stands in Machine/Fields.lean. -/

namespace Sys2Proof

/-- `u8`: one byte of the stream (R11). -/
abbrev Byte := BitVec 8

/-- `u16`: a displacement or immediate as stored (R11). -/
abbrev Word := BitVec 16

end Sys2Proof
end

