-- ==== Sys2Proof/Config.lean ====
section
/-! DEFINITION. The two named parameters that the spec leaves to the model's user (00_scope R8):
`SW_BYTE` and `JUMP_TABLE`, which are fixed for a run and stand in State, so that a claim can be stated for
every value of them. And the one free value: the bytes of an endless stream, which are the environment's. -/

namespace Sys2Proof

/-- `SW_BYTE` (R8): the byte that supplies the sign-extend and width bits of class arith-imm-rm.
`second` is the normative default, `first` the 8086 convention. -/
inductive SwByte where
  | second
  | first
  deriving DecidableEq, Repr

/-- The 20 named variants of the jump/loop family (43_jump_loop R190). Their bytes and spellings are the
table of Machine/Tables.lean. -/
inductive JumpOp where
  | jo | jno | jb | jnb | je | jne | jbe | jnbe
  | js | jns | jp | jnp | jl | jnl | jle | jnle
  | loopnz | loopz | loop | jcxz
  deriving DecidableEq, Repr

/-- The 20 entries of the full `JUMP_TABLE`, in the order of their opcode bytes (R190). -/
def JumpOp.all : List JumpOp :=
  [.jo, .jno, .jb, .jnb, .je, .jne, .jbe, .jnbe] ++
  [.js, .jns, .jp, .jnp, .jl, .jnl, .jle, .jnle] ++
  [.loopnz, .loopz, .loop, .jcxz]

/-- The parameters of one decoder (R8). `jumpTable` lists the entries of R190 that the decoder holds. -/
structure Params where
  swByte    : SwByte
  jumpTable : List JumpOp
  deriving DecidableEq, Repr

/-- The default parameters: `SW_BYTE = SECOND` and the full table (R8, R262). -/
def Params.standard : Params := { swByte := .second, jumpTable := JumpOp.all }

/-- The byte at a position of the `k`-th endless stream (20_memory R60, 92's OPEN table): a free value, since
the bytes are the environment's and no rule bounds them (log 7). -/
opaque Config.endlessByte (k position : Nat) : Byte

/-- `JUMP_TABLE` is a subset of the 20 entries (R8, 92's OPEN table), written once each in table order, so
that equal tables are equal lists. -/
def Params.wf (p : Params) : Bool :=
  JumpOp.all.filter (fun j => p.jumpTable.contains j) == p.jumpTable

end Sys2Proof
end

