-- ==== Sys2Proof/Syntax.lean ====
section
/-! DEFINITION. The instructions of the decoder as data: one constructor of `Instr` for each of the 31
rows of spec/opcode_table.json, with every operand its encoding carries. -/

namespace Sys2Proof

/-- The three members of the arithmetic group (00_scope R2, 42_arith R174). -/
inductive ArithOp where
  | add
  | sub
  | cmp
  deriving DecidableEq, Repr

/-- The closed set of seven class tags (30_encoding R81). jump-or-loop carries its named variant. -/
inductive OpClass where
  | movRegMem
  | movImmReg
  | arithRegMem
  | arithImmRm
  | arithImmAcc
  | jumpOrLoop (variant : JumpOp)
  | unsupported
  deriving DecidableEq, Repr

/-- The five addressing modes (40_addressing R123 to R127). -/
inductive AddrMode where
  | register
  | direct
  | memory
  | memoryDisp8
  | memoryDisp16
  deriving DecidableEq, Repr

/-- `disp_width ∈ {0, 8, 16}` (10_state R38). -/
inductive DispWidth where
  | w0
  | w8
  | w16
  deriving DecidableEq, Repr

/-- `imm_width ∈ {8, 16}` (10_state R39). -/
inductive ImmWidth where
  | w8
  | w16
  deriving DecidableEq, Repr

/-- The r/m operand of an addressing byte with its displacement, one constructor for each mode of R123 to
R127. `rm` is the 3-bit r/m code. -/
inductive Rm where
  /-- mod = 11: the register `rm` (R123). -/
  | reg (rm : BitVec 3)
  /-- mod = 00, r/m = 110: a direct address (R124). -/
  | direct (addr : Word)
  /-- mod = 00, r/m ≠ 110: the base alone (R125). -/
  | mem (rm : BitVec 3)
  /-- mod = 01: the base and one displacement byte (R126). -/
  | mem8 (rm : BitVec 3) (disp : Byte)
  /-- mod = 10: the base and two displacement bytes (R127). -/
  | mem16 (rm : BitVec 3) (disp : Word)
  deriving DecidableEq, Repr

/-- An immediate as it stands in the stream (40_addressing R132 to R135). -/
inductive Imm where
  /-- w = 0: one byte (R133). -/
  | imm8 (lo : Byte)
  /-- w = 1 without sign extension: two bytes, little-endian (R134). -/
  | imm16 (v : Word)
  /-- w = 1 and s = 1: one byte, the upper byte synthesized (R135). -/
  | sext8 (lo : Byte)
  deriving DecidableEq, Repr

/-- The instruction set in scope (00_scope R2): one constructor for each row of spec/opcode_table.json.
`low` is bits 1:0 of the arith-imm-rm opcode byte (30_encoding R89, R94). -/
inductive Instr where
  -- format RM (R91)
  | movRegMem (d w : Bool) (reg : BitVec 3) (rm : Rm)
  | addRegMem (d w : Bool) (reg : BitVec 3) (rm : Rm)
  | subRegMem (d w : Bool) (reg : BitVec 3) (rm : Rm)
  | cmpRegMem (d w : Bool) (reg : BitVec 3) (rm : Rm)
  -- format IR (R92)
  | movImmReg (reg : BitVec 3) (imm : Imm)
  -- format MI (R94)
  | addImmRm (low : BitVec 2) (rm : Rm) (imm : Imm)
  | subImmRm (low : BitVec 2) (rm : Rm) (imm : Imm)
  | cmpImmRm (low : BitVec 2) (rm : Rm) (imm : Imm)
  -- format AI (R93)
  | addImmAcc (imm : Imm)
  | subImmAcc (imm : Imm)
  | cmpImmAcc (imm : Imm)
  -- format J (R95)
  | jo (off : Byte)
  | jno (off : Byte)
  | jb (off : Byte)
  | jnb (off : Byte)
  | je (off : Byte)
  | jne (off : Byte)
  | jbe (off : Byte)
  | jnbe (off : Byte)
  | js (off : Byte)
  | jns (off : Byte)
  | jp (off : Byte)
  | jnp (off : Byte)
  | jl (off : Byte)
  | jnl (off : Byte)
  | jle (off : Byte)
  | jnle (off : Byte)
  | loopnz (off : Byte)
  | loopz (off : Byte)
  | loop (off : Byte)
  | jcxz (off : Byte)
  deriving DecidableEq, Repr

end Sys2Proof
end

