-- ==== Sys2Proof/Machine/Tables.lean ====
section
/-! DEFINITION. The decoder's read-only tables (10_state R40 to R44, 43_jump_loop R190, 42_arith R174).
No step writes them, so they are definitions and no fields of State (R42). -/

namespace Sys2Proof

/-- `REG8` (R40): the byte register names. -/
def reg8Table : Vector String 8 := #v["al", "cl", "dl", "bl", "ah", "ch", "dh", "bh"]

/-- `REG16` (R40): the word register names. -/
def reg16Table : Vector String 8 := #v["ax", "cx", "dx", "bx", "sp", "bp", "si", "di"]

/-- `EA` (R40, R129): the effective-address base expressions. -/
def eaTable : Vector String 8 := #v["bx+si", "bx+di", "bp+si", "bp+di", "si", "di", "bp", "bx"]

/-- `regname(w, code)` (R41): the width bit selects the table. -/
def regname (w : Bool) (code : BitVec 3) : String :=
  if w then reg16Table.get code.toFin else reg8Table.get code.toFin

/-- `EA[rm]` (R129). -/
def eaBase (rm : BitVec 3) : String := eaTable.get rm.toFin

/-- The opcode byte of a jump/loop variant (R190). -/
def JumpOp.opcode : JumpOp → Byte
  | .jo => 0x70 | .jno => 0x71 | .jb => 0x72 | .jnb => 0x73
  | .je => 0x74 | .jne => 0x75 | .jbe => 0x76 | .jnbe => 0x77
  | .js => 0x78 | .jns => 0x79 | .jp => 0x7A | .jnp => 0x7B
  | .jl => 0x7C | .jnl => 0x7D | .jle => 0x7E | .jnle => 0x7F
  | .loopnz => 0xE0 | .loopz => 0xE1 | .loop => 0xE2 | .jcxz => 0xE3

/-- The mnemonic of a jump/loop variant (R190). -/
def JumpOp.name : JumpOp → String
  | .jo => "jo" | .jno => "jno" | .jb => "jb" | .jnb => "jnb"
  | .je => "je" | .jne => "jne" | .jbe => "jbe" | .jnbe => "jnbe"
  | .js => "js" | .jns => "jns" | .jp => "jp" | .jnp => "jnp"
  | .jl => "jl" | .jnl => "jnl" | .jle => "jle" | .jnle => "jnle"
  | .loopnz => "loopnz" | .loopz => "loopz" | .loop => "loop" | .jcxz => "jcxz"

/-- `JUMP_TABLE[b1]` (R43, R82): a flat search for the exact value among the entries the decoder holds. -/
def jumpLookup (p : Params) (b1 : Byte) : Option JumpOp :=
  p.jumpTable.find? (fun j => j.opcode == b1)

/-- The arithmetic mnemonic table (R44, R174) as the member that a 3-bit sub-opcode selects; `none` stands
for `UnsupportedArithmeticOp`. -/
def arithOp (subop : BitVec 3) : Option ArithOp :=
  if subop = 0b000 then some .add
  else if subop = 0b101 then some .sub
  else if subop = 0b111 then some .cmp
  else none

/-- The sub-opcode of an arithmetic member (R174). -/
def ArithOp.code : ArithOp → BitVec 3
  | .add => 0b000
  | .sub => 0b101
  | .cmp => 0b111

/-- The mnemonic of an arithmetic member (R174). -/
def ArithOp.name : ArithOp → String
  | .add => "add"
  | .sub => "sub"
  | .cmp => "cmp"

end Sys2Proof
end

