-- ==== Sys2Proof/Machine/Fields.lean ====
section
/-! DEFINITION. Bit fields, byte order and sign extension (00_scope R10, R11, 20_memory R64), the addressing
byte's fields and mode (30_encoding R96, 40_addressing R121 to R128), and the widths that follow from
them (30_encoding R103, 40_addressing R132). -/

namespace Sys2Proof

/-- `zext_16` (R11). -/
def zext16 (v : Byte) : Word := v.setWidth 16

/-- `sext_16` (R11): bit 7 copied into bits 15:8. -/
def sext16 (v : Byte) : Word := v.signExtend 16

/-- `sint_8` (R11): the two's complement value. -/
def sint8 (v : Byte) : Int := if v.toNat < 128 then v.toNat else (v.toNat : Int) - 256

/-- `lo | hi << 8` (R11, R64): the first byte read is the low one. -/
def joinLE (lo hi : Byte) : Word := hi ++ lo

/-- Bits 7:0 of a 16-bit value. -/
def loByte (v : Word) : Byte := v.extractLsb' 0 8

/-- Bits 15:8 of a 16-bit value. -/
def hiByte (v : Word) : Byte := v.extractLsb' 8 8

/-- `mod = b2[7:6]` (R121). -/
def modField (b2 : Byte) : BitVec 2 := b2.extractLsb' 6 2

/-- `mid = b2[5:3]` (R121); also the sub-opcode field of an arithmetic opcode byte (R86, R88). -/
def midField (b : Byte) : BitVec 3 := b.extractLsb' 3 3

/-- `rm = b2[2:0]` (R121); also the register field of a mov-imm-reg opcode byte (R87). -/
def rmField (b : Byte) : BitVec 3 := b.extractLsb' 0 3

/-- Bits 1:0 of an arith-imm-rm opcode byte (R89). -/
def lowField (b1 : Byte) : BitVec 2 := b1.extractLsb' 0 2

/-- An addressing byte put together from its three fields (R96). -/
def addrByte (mod : BitVec 2) (mid rm : BitVec 3) : Byte := mod ++ mid ++ rm

/-- The direction bit of a format RM opcode byte (R85, R86). -/
def dBit (b1 : Byte) : Bool := b1.getLsbD 1

/-- The width bit of a format RM or AI opcode byte (R85, R86, R88). -/
def wBit (b1 : Byte) : Bool := b1.getLsbD 0

/-- The width bit of a mov-imm-reg opcode byte (R87). -/
def wBitImmReg (b1 : Byte) : Bool := b1.getLsbD 3

/-- The byte that supplies `s` and `w` of class arith-imm-rm (R8, R89). -/
def swSource (sw : SwByte) (b1 b2 : Byte) : Byte :=
  match sw with
  | .second => b2
  | .first => b1

/-- `s`: bit 1 of the byte that `SW_BYTE` names (R89). -/
def sOf (sw : SwByte) (b1 b2 : Byte) : Bool := (swSource sw b1 b2).getLsbD 1

/-- `w` of class arith-imm-rm: bit 0 of the byte that `SW_BYTE` names (R89). -/
def wOf (sw : SwByte) (b1 b2 : Byte) : Bool := (swSource sw b1 b2).getLsbD 0

/-- The addressing mode, tested in the priority order of R123 to R127. -/
def addrMode (mod : BitVec 2) (rm : BitVec 3) : AddrMode :=
  if mod = 0b11 then .register
  else if mod = 0b00 ∧ rm = 0b110 then .direct
  else if mod = 0b00 then .memory
  else if mod = 0b01 then .memoryDisp8
  else .memoryDisp16

/-- `disp_width` of a mode (R123 to R127). -/
def AddrMode.dispWidth : AddrMode → DispWidth
  | .register => .w0
  | .direct => .w16
  | .memory => .w0
  | .memoryDisp8 => .w8
  | .memoryDisp16 => .w16

/-- The number of displacement bytes (R103). -/
def DispWidth.bytes : DispWidth → Nat
  | .w0 => 0
  | .w8 => 1
  | .w16 => 2

/-- The `mod` field of an operand's form (R103). -/
def Rm.mod : Rm → BitVec 2
  | .reg _ => 0b11
  | .direct _ => 0b00
  | .mem _ => 0b00
  | .mem8 _ _ => 0b01
  | .mem16 _ _ => 0b10

/-- The `rm` field of an operand; a direct address has r/m = 110 (R124). -/
def Rm.code : Rm → BitVec 3
  | .reg rm => rm
  | .direct _ => 0b110
  | .mem rm => rm
  | .mem8 rm _ => rm
  | .mem16 rm _ => rm

/-- The displacement bytes of an operand, low byte first (R80, R130). -/
def Rm.dispBytes : Rm → List Byte
  | .reg _ => []
  | .direct a => [loByte a, hiByte a]
  | .mem _ => []
  | .mem8 _ v => [v]
  | .mem16 _ v => [loByte v, hiByte v]

/-- `dispbytes(mod, rm)` of an operand (R103). -/
def Rm.dispLen : Rm → Nat
  | .reg _ => 0
  | .direct _ => 2
  | .mem _ => 0
  | .mem8 _ _ => 1
  | .mem16 _ _ => 2

/-- The immediate's bytes in the stream, low byte first (R80, R132). -/
def Imm.bytes : Imm → List Byte
  | .imm8 lo => [lo]
  | .imm16 v => [loByte v, hiByte v]
  | .sext8 lo => [lo]

/-- `immbytes` of an immediate (R94). -/
def Imm.len : Imm → Nat
  | .imm8 _ => 1
  | .imm16 _ => 2
  | .sext8 _ => 1

/-- The width bit that an immediate's form goes with (R133 to R135). -/
def Imm.w : Imm → Bool
  | .imm8 _ => false
  | .imm16 _ => true
  | .sext8 _ => true

/-- `imm_width` (R132): a sign-extended immediate is stored with 16 bits (R135). -/
def Imm.width : Imm → ImmWidth
  | .imm8 _ => .w8
  | .imm16 _ => .w16
  | .sext8 _ => .w16

/-- `imm_value` (R132). -/
def Imm.value : Imm → Word
  | .imm8 lo => zext16 lo
  | .imm16 v => v
  | .sext8 lo => sext16 lo

end Sys2Proof
end

