-- ==== Sys2Proof/WellFormed.lean ====
section
/-! DEFINITION. Which terms of `Instr` some encoding stands for, for given parameters. A term is ill-formed
when its fields contradict one another (a base form with r/m = 110, an immediate form that the width and
sign-extend bits do not select) or when the decoder's jump table lacks its variant. -/

namespace Sys2Proof

/-- mod = 00 with r/m = 110 is a direct address, never the base form (R124, R129). -/
def Rm.wf : Rm → Bool
  | .mem rm => rm != 0b110
  | _ => true

/-- Sign extension applies to class arith-imm-rm only (R136). -/
def Imm.full : Imm → Bool
  | .sext8 _ => false
  | _ => true

/-- The immediate has the form that `w` and `s` select (R133 to R135). -/
def Imm.fits (s w : Bool) : Imm → Bool
  | .imm8 _ => !w
  | .imm16 _ => w && !s
  | .sext8 _ => w && s

/-- `s` of class arith-imm-rm: `rm[1]` under SECOND, bit 1 of the opcode byte under FIRST (R89). -/
def sOfImmRm (sw : SwByte) (low : BitVec 2) (rm : Rm) : Bool :=
  match sw with
  | .second => rm.code.getLsbD 1
  | .first => low.getLsbD 1

/-- `w` of class arith-imm-rm: `rm[0]` under SECOND, bit 0 of the opcode byte under FIRST (R89). -/
def wOfImmRm (sw : SwByte) (low : BitVec 2) (rm : Rm) : Bool :=
  match sw with
  | .second => rm.code.getLsbD 0
  | .first => low.getLsbD 0

/-- A well-formed arith-imm-rm operand pair (R147). -/
def immRmWf (p : Params) (low : BitVec 2) (rm : Rm) (imm : Imm) : Bool :=
  rm.wf && imm.fits (sOfImmRm p.swByte low rm) (wOfImmRm p.swByte low rm)

/-- The jump table holds the variant (R8, R43). -/
def Params.hasJump (p : Params) (j : JumpOp) : Bool := p.jumpTable.contains j

/-- The check, one arm per constructor. -/
def Instr.wf (p : Params) : Instr → Bool
  | .movRegMem _ _ _ rm => rm.wf
  | .addRegMem _ _ _ rm => rm.wf
  | .subRegMem _ _ _ rm => rm.wf
  | .cmpRegMem _ _ _ rm => rm.wf
  | .movImmReg _ imm => imm.full
  | .addImmRm low rm imm => immRmWf p low rm imm
  | .subImmRm low rm imm => immRmWf p low rm imm
  | .cmpImmRm low rm imm => immRmWf p low rm imm
  | .addImmAcc imm => imm.full
  | .subImmAcc imm => imm.full
  | .cmpImmAcc imm => imm.full
  | .jo _ => p.hasJump .jo
  | .jno _ => p.hasJump .jno
  | .jb _ => p.hasJump .jb
  | .jnb _ => p.hasJump .jnb
  | .je _ => p.hasJump .je
  | .jne _ => p.hasJump .jne
  | .jbe _ => p.hasJump .jbe
  | .jnbe _ => p.hasJump .jnbe
  | .js _ => p.hasJump .js
  | .jns _ => p.hasJump .jns
  | .jp _ => p.hasJump .jp
  | .jnp _ => p.hasJump .jnp
  | .jl _ => p.hasJump .jl
  | .jnl _ => p.hasJump .jnl
  | .jle _ => p.hasJump .jle
  | .jnle _ => p.hasJump .jnle
  | .loopnz _ => p.hasJump .loopnz
  | .loopz _ => p.hasJump .loopz
  | .loop _ => p.hasJump .loop
  | .jcxz _ => p.hasJump .jcxz

/-- `i` is an instruction of a decoder with parameters `p`. -/
abbrev WellFormed (p : Params) (i : Instr) : Prop := i.wf p = true

end Sys2Proof
end

