-- ==== Sys2Proof/Decode.lean ====
section
/-! DEFINITION. The classifier (30_encoding R82), a decoder total on any bytes that rejects by name, the
encoder written from the same format tables (R91 to R95), and the opcode-table interface
`decodeTableWord`. -/

namespace Sys2Proof

/-! ## The classifier -/

/-- A masked row of the classifier's table: mask, value, class (R82). -/
structure MaskRow where
  mask  : Byte
  value : Byte
  cls   : OpClass
  deriving DecidableEq, Repr

/-- The masked rows 2 to 6 of R82, in its order. -/
def maskRows : List MaskRow :=
  [⟨0xFC, 0x88, .movRegMem⟩, ⟨0xF0, 0xB0, .movImmReg⟩, ⟨0xFC, 0x80, .arithImmRm⟩,
   ⟨0xC4, 0x00, .arithRegMem⟩, ⟨0xC6, 0x04, .arithImmAcc⟩]

/-- Whether a byte matches a masked row (R82, R83). -/
def MaskRow.hits (r : MaskRow) (b1 : Byte) : Bool := (b1 &&& r.mask) == r.value

/-- The class that the masked rows give; a byte that none matches is unsupported (R82 row 7). -/
def classifyMasked (b1 : Byte) : OpClass :=
  match maskRows.find? (fun r => r.hits b1) with
  | some r => r.cls
  | none => .unsupported

/-- `classify(b1)` (R82): the exact jump values first, then the masked rows; the first match wins. -/
def classify (p : Params) (b1 : Byte) : OpClass :=
  match jumpLookup p b1 with
  | some j => .jumpOrLoop j
  | none => classifyMasked b1

/-! ## The decoder -/

/-- Why a run of bytes is no instruction. -/
inductive Reject where
  /-- The first byte is of class unsupported (R231). -/
  | unsupportedOpcode
  /-- The sub-opcode selects none of add, sub, cmp (R172). -/
  | unsupportedArithmeticOp
  /-- The bytes end before the instruction does; what that means is the byte source's answer (R61, R232,
  R234, R235). -/
  | outOfBytes
  deriving DecidableEq, Repr

/-- What the decoder reads from a run of bytes. `rest` is what it leaves unread. -/
inductive Decoded where
  | instr (i : Instr) (rest : List Byte)
  | reject (r : Reject) (rest : List Byte)
  deriving DecidableEq, Repr

/-- The r/m operand: its mode, then 0, 1 or 2 displacement bytes, low byte first (R123 to R130). -/
def readRm (mod : BitVec 2) (rm : BitVec 3) (bs : List Byte) : Option (Rm × List Byte) :=
  match addrMode mod rm, bs with
  | .register, bs => some (.reg rm, bs)
  | .direct, lo :: hi :: rest => some (.direct (joinLE lo hi), rest)
  | .memory, bs => some (.mem rm, bs)
  | .memoryDisp8, lo :: rest => some (.mem8 rm lo, rest)
  | .memoryDisp16, lo :: hi :: rest => some (.mem16 rm (joinLE lo hi), rest)
  | _, _ => none

/-- The immediate: at least one byte; `s` is consulted only when `w = 1` (R132 to R135). -/
def readImm (s w : Bool) (bs : List Byte) : Option (Imm × List Byte) :=
  match w, s, bs with
  | false, _, lo :: rest => some (.imm8 lo, rest)
  | true, true, lo :: rest => some (.sext8 lo, rest)
  | true, false, lo :: hi :: rest => some (.imm16 (joinLE lo hi), rest)
  | _, _, _ => none

/-- The arith-reg-mem instruction of a member (R175 to R177). -/
def Instr.arithRegMem (op : ArithOp) (d w : Bool) (reg : BitVec 3) (rm : Rm) : Instr :=
  match op with
  | .add => .addRegMem d w reg rm
  | .sub => .subRegMem d w reg rm
  | .cmp => .cmpRegMem d w reg rm

/-- The arith-imm-rm instruction of a member (R178 to R180). -/
def Instr.arithImmRm (op : ArithOp) (low : BitVec 2) (rm : Rm) (imm : Imm) : Instr :=
  match op with
  | .add => .addImmRm low rm imm
  | .sub => .subImmRm low rm imm
  | .cmp => .cmpImmRm low rm imm

/-- The arith-imm-accumulator instruction of a member (R181 to R183). -/
def Instr.arithImmAcc (op : ArithOp) (imm : Imm) : Instr :=
  match op with
  | .add => .addImmAcc imm
  | .sub => .subImmAcc imm
  | .cmp => .cmpImmAcc imm

/-- The instruction of a jump/loop variant (R195 to R214). -/
def Instr.jump (j : JumpOp) (off : Byte) : Instr :=
  match j with
  | .jo => .jo off | .jno => .jno off | .jb => .jb off | .jnb => .jnb off
  | .je => .je off | .jne => .jne off | .jbe => .jbe off | .jnbe => .jnbe off
  | .js => .js off | .jns => .jns off | .jp => .jp off | .jnp => .jnp off
  | .jl => .jl off | .jnl => .jnl off | .jle => .jle off | .jnle => .jnle off
  | .loopnz => .loopnz off | .loopz => .loopz off | .loop => .loop off | .jcxz => .jcxz off

/-- Format RM after its opcode byte (R91, R144): the addressing byte and the displacement. -/
def decodeRegMem (mk : Bool → Bool → BitVec 3 → Rm → Instr) (b1 : Byte) (bs : List Byte) : Decoded :=
  match bs with
  | [] => .reject .outOfBytes []
  | b2 :: rest =>
    match readRm (modField b2) (rmField b2) rest with
    | none => .reject .outOfBytes []
    | some (rm, rest') => .instr (mk (dBit b1) (wBit b1) (midField b2) rm) rest'

/-- Formats IR and AI after their opcode byte (R92, R93): an immediate without sign extension (R136). -/
def decodeFullImm (mk : Imm → Instr) (w : Bool) (bs : List Byte) : Decoded :=
  match readImm false w bs with
  | none => .reject .outOfBytes []
  | some (imm, rest) => .instr (mk imm) rest

/-- Format MI after its opcode byte (R94, R147): the addressing byte, the sub-opcode check, the
displacement, then the immediate. -/
def decodeImmRm (p : Params) (b1 : Byte) (bs : List Byte) : Decoded :=
  match bs with
  | [] => .reject .outOfBytes []
  | b2 :: rest =>
    match arithOp (midField b2) with
    | none => .reject .unsupportedArithmeticOp rest
    | some op =>
      match readRm (modField b2) (rmField b2) rest with
      | none => .reject .outOfBytes []
      | some (rm, rest') =>
        match readImm (sOf p.swByte b1 b2) (wOf p.swByte b1 b2) rest' with
        | none => .reject .outOfBytes []
        | some (imm, rest'') => .instr (.arithImmRm op (lowField b1) rm imm) rest''

/-- Format J after its opcode byte (R95, R193): exactly one offset byte. -/
def decodeJump (j : JumpOp) (bs : List Byte) : Decoded :=
  match bs with
  | [] => .reject .outOfBytes []
  | off :: rest => .instr (.jump j off) rest

/-- One instruction from a run of bytes, in the byte order and check order of R107 and R242. -/
def decode (p : Params) (bs : List Byte) : Decoded :=
  match bs with
  | [] => .reject .outOfBytes []
  | b1 :: rest =>
    match classify p b1 with
    | .unsupported => .reject .unsupportedOpcode rest
    | .jumpOrLoop j => decodeJump j rest
    | .movRegMem => decodeRegMem .movRegMem b1 rest
    | .arithRegMem =>
      match arithOp (midField b1) with
      | none => .reject .unsupportedArithmeticOp rest
      | some op => decodeRegMem (.arithRegMem op) b1 rest
    | .movImmReg => decodeFullImm (.movImmReg (rmField b1)) (wBitImmReg b1) rest
    | .arithImmAcc =>
      match arithOp (midField b1) with
      | none => .reject .unsupportedArithmeticOp rest
      | some op => decodeFullImm (.arithImmAcc op) (wBit b1) rest
    | .arithImmRm => decodeImmRm p b1 rest

/-- The longest instruction in bytes (R104): the decoder never reads more. -/
def maxLength : Nat := 6

/-! ## The encoder -/

/-- One bit of an encoding. -/
def bit (b : Bool) : BitVec 1 := BitVec.ofBool b

/-- `100010dw` (R91). -/
def movRegMemOpcode (d w : Bool) : Byte := (0b100010#6) ++ bit d ++ bit w

/-- `00ooo0dw` (R91). -/
def arithRegMemOpcode (op : ArithOp) (d w : Bool) : Byte :=
  (0b00#2) ++ op.code ++ (0b0#1) ++ bit d ++ bit w

/-- `1011wrrr` (R92). -/
def movImmRegOpcode (w : Bool) (reg : BitVec 3) : Byte := (0b1011#4) ++ bit w ++ reg

/-- `00ooo10w` (R93). -/
def arithImmAccOpcode (op : ArithOp) (w : Bool) : Byte := (0b00#2) ++ op.code ++ (0b10#2) ++ bit w

/-- `100000xx` (R94). -/
def arithImmRmOpcode (low : BitVec 2) : Byte := (0b100000#6) ++ low

/-- The addressing byte of an operand with its middle field, and its displacement bytes (R91, R94). -/
def encodeRm (mid : BitVec 3) (rm : Rm) : List Byte := addrByte rm.mod mid rm.code :: rm.dispBytes

/-- The bytes of an instruction, in stream order (R80, R91 to R95). -/
def encode : Instr → List Byte
  | .movRegMem d w reg rm => movRegMemOpcode d w :: encodeRm reg rm
  | .addRegMem d w reg rm => arithRegMemOpcode .add d w :: encodeRm reg rm
  | .subRegMem d w reg rm => arithRegMemOpcode .sub d w :: encodeRm reg rm
  | .cmpRegMem d w reg rm => arithRegMemOpcode .cmp d w :: encodeRm reg rm
  | .movImmReg reg imm => movImmRegOpcode imm.w reg :: imm.bytes
  | .addImmRm low rm imm => arithImmRmOpcode low :: (encodeRm (ArithOp.add).code rm ++ imm.bytes)
  | .subImmRm low rm imm => arithImmRmOpcode low :: (encodeRm (ArithOp.sub).code rm ++ imm.bytes)
  | .cmpImmRm low rm imm => arithImmRmOpcode low :: (encodeRm (ArithOp.cmp).code rm ++ imm.bytes)
  | .addImmAcc imm => arithImmAccOpcode .add imm.w :: imm.bytes
  | .subImmAcc imm => arithImmAccOpcode .sub imm.w :: imm.bytes
  | .cmpImmAcc imm => arithImmAccOpcode .cmp imm.w :: imm.bytes
  | .jo off => [JumpOp.opcode .jo, off]
  | .jno off => [JumpOp.opcode .jno, off]
  | .jb off => [JumpOp.opcode .jb, off]
  | .jnb off => [JumpOp.opcode .jnb, off]
  | .je off => [JumpOp.opcode .je, off]
  | .jne off => [JumpOp.opcode .jne, off]
  | .jbe off => [JumpOp.opcode .jbe, off]
  | .jnbe off => [JumpOp.opcode .jnbe, off]
  | .js off => [JumpOp.opcode .js, off]
  | .jns off => [JumpOp.opcode .jns, off]
  | .jp off => [JumpOp.opcode .jp, off]
  | .jnp off => [JumpOp.opcode .jnp, off]
  | .jl off => [JumpOp.opcode .jl, off]
  | .jnl off => [JumpOp.opcode .jnl, off]
  | .jle off => [JumpOp.opcode .jle, off]
  | .jnle off => [JumpOp.opcode .jnle, off]
  | .loopnz off => [JumpOp.opcode .loopnz, off]
  | .loopz off => [JumpOp.opcode .loopz, off]
  | .loop off => [JumpOp.opcode .loop, off]
  | .jcxz off => [JumpOp.opcode .jcxz, off]

/-- The length of an instruction in bytes, by the table of R104. -/
def instrLength : Instr → Nat
  | .movRegMem _ _ _ rm => 2 + rm.dispLen
  | .addRegMem _ _ _ rm => 2 + rm.dispLen
  | .subRegMem _ _ _ rm => 2 + rm.dispLen
  | .cmpRegMem _ _ _ rm => 2 + rm.dispLen
  | .movImmReg _ imm => 1 + imm.len
  | .addImmRm _ rm imm => 2 + rm.dispLen + imm.len
  | .subImmRm _ rm imm => 2 + rm.dispLen + imm.len
  | .cmpImmRm _ rm imm => 2 + rm.dispLen + imm.len
  | .addImmAcc imm => 1 + imm.len
  | .subImmAcc imm => 1 + imm.len
  | .cmpImmAcc imm => 1 + imm.len
  | .jo _ => 2
  | .jno _ => 2
  | .jb _ => 2
  | .jnb _ => 2
  | .je _ => 2
  | .jne _ => 2
  | .jbe _ => 2
  | .jnbe _ => 2
  | .js _ => 2
  | .jns _ => 2
  | .jp _ => 2
  | .jnp _ => 2
  | .jl _ => 2
  | .jnl _ => 2
  | .jle _ => 2
  | .jnle _ => 2
  | .loopnz _ => 2
  | .loopz _ => 2
  | .loop _ => 2
  | .jcxz _ => 2

/-! ## Words of the opcode table -/

/-- The low `n` bytes of a number, least significant first. -/
def bytesLE : Nat → Nat → List Byte
  | 0, _ => []
  | n + 1, w => BitVec.ofNat 8 w :: bytesLE n (w / 256)

/-- The stream bytes of an opcode-table word, followed by zeros up to the longest instruction. The table's
only two-byte rows are those of format MI, and the table numbers their first byte in bits 15:8 and their
second in bits 7:0 (the rows' own note); any other word counts on from its first byte (log 9). -/
def tableBytes (nbits w : Nat) : List Byte :=
  let v := w % 2 ^ nbits
  if nbits = 16 ∧ v / 1024 = 0b100000 then
    [BitVec.ofNat 8 (v / 256), BitVec.ofNat 8 v, 0, 0, 0, 0]
  else bytesLE maxLength v

/-- The instruction that the decoder reads from a word of spec/opcode_table.json, under the default
parameters. -/
def decodeTableWord (nbits w : Nat) : Option Instr :=
  match decode Params.standard (tableBytes nbits w) with
  | .instr i _ => some i
  | .reject _ _ => none

end Sys2Proof
end

