-- ==== Sys2Proof/Machine/State.lean ====
section
/-! DEFINITION. The decoder's state as plain data (10_state, 70_reset R262), the events it delivers, the
reasons a step can stop, and the state at the start of a run. -/

namespace Sys2Proof.Machine

/-- The instruction record (10_state R50). -/
structure Record where
  mnemonic : String
  operands : List String
  deriving DecidableEq, Repr

/-- The four error kinds, in the order of 60_exceptions R230. -/
inductive ErrorKind where
  | unsupportedOpcode
  | truncatedStream
  | unsupportedArithmeticOp
  | sourceError
  deriving DecidableEq, Repr

/-- The number that a model may give an error kind (R230). -/
def ErrorKind.code : ErrorKind → Nat
  | .unsupportedOpcode => 0
  | .truncatedStream => 1
  | .unsupportedArithmeticOp => 2
  | .sourceError => 3

/-- How a run ends at the decoder (10_state R22, R25). -/
inductive Halt where
  | done
  | fail (kind : ErrorKind)
  deriving DecidableEq, Repr

/-- The events of port `out` (10_state R22). -/
inductive Event where
  | emit (rec : Record)
  | done
  | fail (kind : ErrorKind)
  deriving DecidableEq, Repr

/-- The event that announces the end of a run (R22, R237). -/
def Halt.event : Halt → Event
  | .done => .done
  | .fail k => .fail k

/-- Which byte of a displacement or immediate is due: `k ∈ {1, 2}` (10_state R25). -/
inductive FieldByte where
  | first
  | second
  deriving DecidableEq, Repr

/-- The phase register (10_state R25). -/
inductive Phase where
  | boundary
  | needAddr
  | needDisp (k : FieldByte)
  | needImm (k : FieldByte)
  | needOff
  | format
  | halted (h : Halt)
  deriving DecidableEq, Repr

/-- The run status (10_state R52), a view of the phase. -/
inductive RunStatus where
  | running
  | halted (h : Halt)
  deriving DecidableEq, Repr

/-- The run status of a phase (R52). -/
def Phase.status : Phase → RunStatus
  | .halted h => .halted h
  | _ => .running

/-- The DecodeContext (10_state R30 to R39, R46). `none` is the spec's own 'unwritten' (R47), not a missing
reset value. `dispLo` and `immLo` hold the local `lo` of 40_addressing R130 and R132 between two reads
(log 4). -/
structure Ctx where
  opClass     : Option OpClass := none
  d           : Option Bool := none
  w           : Option Bool := none
  s           : Option Bool := none
  mod         : Option (BitVec 2) := none
  reg         : Option (BitVec 3) := none
  rm          : Option (BitVec 3) := none
  subop       : Option (BitVec 3) := none
  memMode     : Option Bool := none
  direct      : Option Bool := none
  dispWidth   : Option DispWidth := none
  dispValue   : Option Word := none
  dispLo      : Option Byte := none
  immValue    : Option Word := none
  immWidth    : Option ImmWidth := none
  immSext     : Option Bool := none
  immLo       : Option Byte := none
  jmpMnemonic : Option String := none
  offByte     : Option Byte := none
  deriving DecidableEq, Repr

/-- Every field unwritten (70_reset R261). -/
def Ctx.unwritten : Ctx := {}

/-- The names of the context's fields, for the fault that a read of an unwritten one is. -/
inductive CtxField where
  | opClass | d | w | s | mod | reg | rm | subop | memMode | direct
  | dispWidth | dispValue | dispLo | immValue | immWidth | immSext | immLo | jmpMnemonic | offByte
  deriving DecidableEq, Repr

/-- How a stream goes on after the bytes that are listed: 'its length is finite or unbounded at the
environment's choice' (20_memory R60, 70_reset R265, log 7). -/
inductive SrcTail where
  /-- A finite stream: no byte follows. -/
  | ends
  /-- Endless: every further byte is `b`. -/
  | constant (b : Byte)
  /-- Endless: every further byte is a free value, that of `Config.endlessByte k`. -/
  | unbounded (k : Nat)
  deriving DecidableEq, Repr

/-- What a read answers that finds no byte at the end of a finite stream (20_memory R61). -/
inductive SrcEnd where
  | clean
  | error
  deriving DecidableEq, Repr

/-- The one address space (20_memory R60): the byte stream as (position, byte) pairs in rising order. A
position that is not listed reads as the tail says; in a finite stream it holds no byte, and the listed
positions are those from 0 on without a gap. -/
structure Memory where
  cells : List Host.Cell
  tail  : SrcTail
  deriving DecidableEq, Repr

/-- The driver around the decoder: the mode it runs in (R23, R111), the index of the first record whose
`execute` call the simulator fails (R247), and whether that has ended the run. -/
structure Driver where
  executing  : Bool
  simFailsAt : Option Nat
  aborted    : Bool
  deriving DecidableEq, Repr

/-- Everything the spec gives the machine. `due` is the model's own: the terminal event between the read
that decided it and its delivery, which R24 counts as two steps (log 3). -/
structure State where
  params : Params
  src    : Memory
  srcEnd : SrcEnd
  cur    : Nat
  start  : Nat
  phase  : Phase
  ctx    : Ctx
  due    : Option Halt
  out    : List Event
  driver : Driver
  deriving DecidableEq, Repr

/-- Why the machine stops. Each is safe: the model stops where the hardware takes no step, or where no rule
of the spec reaches. -/
inductive Fault where
  /-- Raised by `tick`, `step` and every meaning once `Done` or `Fail` was delivered: the decoder takes no
  further step (R22, R52). Safe. -/
  | halted
  /-- Raised by `tick`, `step` and every meaning once the driver ended the run on a simulator error: no
  further decode call is made (R247). Safe. -/
  | driverAborted
  /-- Raised by a meaning that is asked to begin a decode call inside another one (R70, log 10). Safe. -/
  | callInProgress
  /-- Raised by `tick` on a read of a context field that this call has not written (R47). Safe. -/
  | unwrittenField (f : CtxField)
  /-- Raised by `tick` in a phase that the context contradicts: a displacement byte due with width 0. No rule
  reaches it. Safe. -/
  | incoherentPhase
  deriving DecidableEq, Repr

/-- Why an instruction has no meaning. -/
inductive Refusal where
  /-- Raised by an arm of `exec` that has no meaning yet; none is left. Safe. -/
  | notModelled (mnemonic : String)
  deriving DecidableEq, Repr

/-- What a step of this machine answers. -/
abbrev Outcome := Host.Outcome State Fault Refusal

/-- The state at the start of a run (70_reset R260, R262). Nothing has been supplied by the environment yet:
the stream is empty and ends cleanly, the mode is non-executing (log 6, log 8). -/
def State.reset : State where
  params := Params.standard
  src := { cells := [], tail := .ends }
  srcEnd := .clean
  cur := 0
  start := 0
  phase := .boundary
  ctx := Ctx.unwritten
  due := none
  out := []
  driver := { executing := false, simFailsAt := none, aborted := false }

end Sys2Proof.Machine
end

