-- ==== Sys2Proof/Machine/Flags.lean ====
section
/-! DEFINITION. Flags. The decoder has no status flags and no condition codes (10_state R48), and every
instruction rule says 'flags written: none'. The only flags are the addressing-mode flags of the
DecodeContext (R37), computed here from the addressing mode. -/

namespace Sys2Proof.Machine

/-- `mem_mode` (R37): false for the register-direct mode only. -/
def memModeFlag : AddrMode → Bool
  | .register => false
  | .direct => true
  | .memory => true
  | .memoryDisp8 => true
  | .memoryDisp16 => true

/-- `direct` (R37): true for the direct-address mode only. -/
def directFlag : AddrMode → Bool
  | .register => false
  | .direct => true
  | .memory => false
  | .memoryDisp8 => false
  | .memoryDisp16 => false

/-- `mem_mode` of an operand form. -/
def rmIsMem : Rm → Bool
  | .reg _ => false
  | .direct _ => true
  | .mem _ => true
  | .mem8 _ _ => true
  | .mem16 _ _ => true

end Sys2Proof.Machine
end

