-- ==== Sys2Proof/Machine/Operands.lean ====
section
/-! DEFINITION. The operand formatter (40_addressing R140 to R146) and the jump target
(43_jump_loop R191, R192): every operand string the decoder produces (30_encoding R109). -/

namespace Sys2Proof.Machine

/-- `dec(v)` of a natural number (00_scope R13). -/
def decNat (v : Nat) : String := Nat.repr v

/-- `dec(v)` of an integer (R13): a leading `-` for a negative value. -/
def decInt (v : Int) : String :=
  if v < 0 then "-" ++ decNat v.natAbs else decNat v.natAbs

/-- `"[" ++ dec(disp_value) ++ "]"`: the direct address (R140). -/
def directText (v : Word) : String := "[" ++ decNat v.toNat ++ "]"

/-- `"[" ++ EA[rm] ++ "]"`: the base alone (R140). -/
def baseText (rm : BitVec 3) : String := "[" ++ eaBase rm ++ "]"

/-- `"[" ++ EA[rm] ++ " + " ++ dec(disp_value) ++ "]"` (R140), whatever the value is. -/
def baseDispText (rm : BitVec 3) (v : Word) : String :=
  "[" ++ eaBase rm ++ " + " ++ decNat v.toNat ++ "]"

/-- `rmArg` of an operand form (R140); an 8-bit displacement is zero-extended (R131). -/
def rmText (w : Bool) : Rm → String
  | .reg rm => regname w rm
  | .direct a => directText a
  | .mem rm => baseText rm
  | .mem8 rm v => baseDispText rm (zext16 v)
  | .mem16 rm v => baseDispText rm v

/-- `sized(a)` (R143): a memory destination of an immediate form carries the size qualifier of the stored
immediate width. -/
def sizedText (isMem : Bool) (width : ImmWidth) (a : String) : String :=
  if isMem then
    match width with
    | .w8 => "byte " ++ a
    | .w16 => "word " ++ a
  else a

/-- `dec(imm_value)`: the unsigned decimal of the stored value (R145). -/
def immText (v : Word) : String := decNat v.toNat

/-- Destination first (R144): the direction bit puts the r/m operand or the register first. -/
def orderOperands (d : Bool) (rmArg regArg : String) : List String :=
  if d then [regArg, rmArg] else [rmArg, regArg]

/-- The operands of a format RM instruction (R144). -/
def regMemOperands (d w : Bool) (reg : BitVec 3) (rm : Rm) : List String :=
  orderOperands d (rmText w rm) (regname w reg)

/-- The operands of a format IR or AI instruction (R142): the register of the immediate's width, then the
immediate. -/
def regImmOperands (reg : BitVec 3) (imm : Imm) : List String :=
  [regname imm.w reg, immText imm.value]

/-- The operands of a format MI instruction (R142, R143). -/
def rmImmOperands (rm : Rm) (imm : Imm) : List String :=
  [sizedText (rmIsMem rm) imm.width (rmText imm.w rm), immText imm.value]

/-- `offset = sint_8(off_byte) + 2` (R191), in the integers. -/
def jumpOffset (off : Byte) : Int := sint8 off + 2

/-- `target(offset)` (R192). -/
def targetText (offset : Int) : String :=
  if offset = 0 then "$+0"
  else if 0 < offset then "$+" ++ decInt offset ++ "+0"
  else "$" ++ decInt offset ++ "+0"

/-- The one operand of a jump/loop record (R193). -/
def jumpOperands (off : Byte) : List String := [targetText (jumpOffset off)]

end Sys2Proof.Machine
end

