-- ==== Sys2Proof/Machine/Ops.lean ====
section
/-! DEFINITION. The named operations over the stream and the state: the read primitive (20_memory R61), the
start of a decode call (70_reset R261), emitting a record (10_state R51), ending a run (60_exceptions
R237, the whole of this block's exception entry; R243: there is no return from it), and the shared run
of one decode call. -/

namespace Sys2Proof.Machine

/-! ## The byte stream -/

/-- The byte that a position not listed reads as. -/
def SrcTail.byte (tail : SrcTail) (a : Nat) : Option Byte :=
  match tail with
  | .ends => none
  | .constant b => some b
  | .unbounded k => some (Config.endlessByte k a)

/-- The byte listed at a position. -/
def cellAt : List Host.Cell → Nat → Option Byte
  | [], _ => none
  | (k, b) :: rest, a => if k = a then some b else cellAt rest a

/-- The byte at a stream position; `none` beyond the end of a finite stream (R61). -/
def Memory.read (m : Memory) (a : Nat) : Option Byte :=
  match cellAt m.cells a with
  | some b => some b
  | none => m.tail.byte a

/-- List one byte at a position, keeping positions in rising order. -/
def insertCell : List Host.Cell → Nat → Byte → List Host.Cell
  | [], a, b => [(a, b)]
  | (k, c) :: rest, a, b =>
    if a < k then (a, b) :: (k, c) :: rest
    else if a = k then (a, b) :: rest
    else (k, c) :: insertCell rest a b

/-- List no byte at a position. -/
def dropCell (cells : List Host.Cell) (a : Nat) : List Host.Cell := cells.filter (fun c => c.1 != a)

/-- Put one byte at a position; what the tail reads as anyway is not listed. Only the environment does this
(R63). -/
def Memory.write (m : Memory) (a : Nat) (b : Byte) : Memory :=
  { m with cells := if m.tail.byte a = some b then dropCell m.cells a else insertCell m.cells a b }

/-- Put a run of bytes at a position. -/
def Memory.place : Memory → Nat → List Byte → Memory
  | m, _, [] => m
  | m, a, b :: bs => Memory.place (Memory.write m a b) (a + 1) bs

/-- The cells have the positions `n`, `n + 1`, … without a gap. -/
def gapless : Nat → List Host.Cell → Bool
  | _, [] => true
  | n, (k, _) :: rest => k == n && gapless (n + 1) rest

/-- The cells have strictly rising positions from `n` on. -/
def rising : Nat → List Host.Cell → Bool
  | _, [] => true
  | n, (k, _) :: rest => n ≤ k && rising (k + 1) rest

/-- The canonical form of a stream. A finite one lists exactly the positions 0 to its length less one; an
endless one lists rising positions, and none whose byte its tail reads as. -/
def Memory.wf (m : Memory) : Bool :=
  match m.tail with
  | .ends => gapless 0 m.cells
  | .constant _ => rising 0 m.cells && m.cells.all (fun c => m.tail.byte c.1 != some c.2)
  | .unbounded _ => rising 0 m.cells && m.cells.all (fun c => m.tail.byte c.1 != some c.2)

/-- How many bytes are listed: the length of a finite stream. -/
def Memory.length (m : Memory) : Nat := m.cells.length

/-- The cells of a list of bytes, from position `n` on. -/
def cellsOf : Nat → List Byte → List Host.Cell
  | _, [] => []
  | n, b :: bs => (n, b) :: cellsOf (n + 1) bs

/-- The finite stream that holds a list of bytes (R60). -/
def Memory.ofBytes (bs : List Byte) : Memory := { cells := cellsOf 0 bs, tail := .ends }

/-- The bytes from a position on, up to the stream's end, at most `n` of them. -/
def Memory.bytesFrom (m : Memory) : Nat → Nat → List Byte
  | 0, _ => []
  | n + 1, a =>
    match m.read a with
    | none => []
    | some b => b :: Memory.bytesFrom m n (a + 1)

/-- The answers of port `src` (10_state R21). -/
inductive Answer where
  | byte (b : Byte)
  | endOfStream
  | err
  deriving DecidableEq, Repr

/-- `FetchByte()` (R61): a byte advances the cursor by one; exhaustion and error leave it. -/
def fetchByte (s : State) : Answer × State :=
  match s.src.read s.cur with
  | some b => (.byte b, { s with cur := s.cur + 1 })
  | none =>
    match s.srcEnd with
    | .clean => (.endOfStream, s)
    | .error => (.err, s)

/-! ## The start and the ends of a decode call -/

/-- The start of a decode call (R261): every context field unwritten, `start <- cur`. -/
def beginCall (s : State) : State := { s with ctx := Ctx.unwritten, start := s.cur }

/-- The records among a list of events, in order (R53). -/
def recordsOf : List Event → List Record
  | [] => []
  | .emit r :: es => r :: recordsOf es
  | .done :: es => recordsOf es
  | .fail _ :: es => recordsOf es

/-- The driver hands record number `n` to its consumer (R111, R266). In executing mode a failed `execute`
ends the run (R247). -/
def Driver.handOff (dr : Driver) (n : Nat) : Driver :=
  if dr.executing && dr.simFailsAt == some n then { dr with aborted := true } else dr

/-- `emit(rec)` (R12, R26, R51): the record goes out, the context ends with its call (R30), the phase is
Boundary, and the driver passes the record on. -/
def emitRecord (r : Record) (s : State) : State :=
  { s with
    out := s.out ++ [.emit r]
    phase := .boundary
    ctx := Ctx.unwritten
    driver := s.driver.handOff (recordsOf s.out).length }

/-- The end of a run (R22, R237): the terminal event goes out, the context is discarded and the phase is
Halted. For an error this is the whole of exception entry; nothing is saved and nothing returns (R243). -/
def terminate (h : Halt) (s : State) : State :=
  { s with
    out := s.out ++ [h.event]
    phase := .halted h
    ctx := Ctx.unwritten
    due := none }

/-- `raise E` (R12, R237). -/
def raise (k : ErrorKind) (s : State) : State := terminate (.fail k) s

/-- What a read that found no byte means (R232, R234, R235): a source error at any position; else a clean
end before the call's first byte, a truncated stream after it. -/
def streamEndHalt (s : State) : Halt :=
  match s.srcEnd with
  | .error => .fail .sourceError
  | .clean => if s.cur = s.start then .done else .fail .truncatedStream

/-! ## One decode call as a whole -/

/-- The result of reading the bytes of an instruction. -/
inductive Fetched where
  | all (s : State)
  | ended (h : Halt) (s : State)
  deriving DecidableEq, Repr

/-- `n` reads in a row; the first that finds no byte ends the run (R237). -/
def fetchBytes : Nat → State → Fetched
  | 0, s => .all s
  | n + 1, s =>
    match fetchByte s with
    | (.byte _, t) => fetchBytes n t
    | (.endOfStream, t) => .ended (streamEndHalt t) t
    | (.err, t) => .ended (streamEndHalt t) t

/-- Why no decode call can begin in a state, if so (R22, R70, R247). -/
def callBlocked (s : State) : Option Fault :=
  if s.driver.aborted then some .driverAborted
  else
    match s.phase with
    | .halted _ => some .halted
    | .boundary => if s.due = none then none else some .callInProgress
    | .needAddr => some .callInProgress
    | .needDisp _ => some .callInProgress
    | .needImm _ => some .callInProgress
    | .needOff => some .callInProgress
    | .format => some .callInProgress

/-- The decode call of an instruction with `len` bytes and record `r`, whose bytes stand at the cursor: the
call begins, the bytes are read one by one (an exhausted or failing source raises its error, R232, R234),
and the record goes out (R107). -/
def runCall (len : Nat) (r : Record) (s : State) : Outcome :=
  match callBlocked s with
  | some f => .fault f
  | none =>
    match fetchBytes len (beginCall s) with
    | .all t => .next (emitRecord r t)
    | .ended h t => .next (terminate h t)

/-- The decode call that ends without a record after reading `n` bytes (R231 to R235). -/
def rejectCall (why : Reject) (n : Nat) (s : State) : State :=
  let t := { beginCall s with cur := s.cur + n }
  match why with
  | .unsupportedOpcode => raise .unsupportedOpcode t
  | .unsupportedArithmeticOp => raise .unsupportedArithmeticOp t
  | .outOfBytes => terminate (streamEndHalt t) t

end Sys2Proof.Machine
end

