-- ==== Sys2Proof/Machine/Arith.lean ====
section
/-! DEFINITION. The arithmetic family (42_arith R170 to R183): add, sub and cmp in three classes. The
mnemonic is the arithmetic table's (R174). Flags written: none. -/

namespace Sys2Proof.Machine

/-- Class arith-reg-mem (42_arith section 2). -/
def arithRegMemCall (op : ArithOp) (d w : Bool) (reg : BitVec 3) (rm : Rm) (s : State) : Outcome :=
  runCall (2 + rm.dispLen) { mnemonic := op.name, operands := regMemOperands d w reg rm } s

/-- Class arith-imm-rm (42_arith section 3, 40_addressing R147). -/
def arithImmRmCall (op : ArithOp) (rm : Rm) (imm : Imm) (s : State) : Outcome :=
  runCall (2 + rm.dispLen + imm.len) { mnemonic := op.name, operands := rmImmOperands rm imm } s

/-- Class arith-imm-accumulator (42_arith section 4): the register code is 0. -/
def arithImmAccCall (op : ArithOp) (imm : Imm) (s : State) : Outcome :=
  runCall (1 + imm.len) { mnemonic := op.name, operands := regImmOperands 0 imm } s

/-- R175: `add` register/memory with register. -/
def execAddRegMem (d w : Bool) (reg : BitVec 3) (rm : Rm) (s : State) : Outcome :=
  arithRegMemCall .add d w reg rm s

/-- R176: `sub` register/memory with register. -/
def execSubRegMem (d w : Bool) (reg : BitVec 3) (rm : Rm) (s : State) : Outcome :=
  arithRegMemCall .sub d w reg rm s

/-- R177: `cmp` register/memory with register. -/
def execCmpRegMem (d w : Bool) (reg : BitVec 3) (rm : Rm) (s : State) : Outcome :=
  arithRegMemCall .cmp d w reg rm s

/-- R178: `add` immediate to register/memory. -/
def execAddImmRm (rm : Rm) (imm : Imm) (s : State) : Outcome :=
  arithImmRmCall .add rm imm s

/-- R179: `sub` immediate to register/memory. -/
def execSubImmRm (rm : Rm) (imm : Imm) (s : State) : Outcome :=
  arithImmRmCall .sub rm imm s

/-- R180: `cmp` immediate to register/memory. -/
def execCmpImmRm (rm : Rm) (imm : Imm) (s : State) : Outcome :=
  arithImmRmCall .cmp rm imm s

/-- R181: `add` immediate to accumulator. -/
def execAddImmAcc (imm : Imm) (s : State) : Outcome := arithImmAccCall .add imm s

/-- R182: `sub` immediate to accumulator. -/
def execSubImmAcc (imm : Imm) (s : State) : Outcome := arithImmAccCall .sub imm s

/-- R183: `cmp` immediate to accumulator. -/
def execCmpImmAcc (imm : Imm) (s : State) : Outcome := arithImmAccCall .cmp imm s

end Sys2Proof.Machine
end

