-- ==== Sys2Proof/Machine/JumpLoop.lean ====
section
/-! DEFINITION. The jump/loop family (43_jump_loop R190 to R214). A record is emitted and the cursor goes on;
no control is transferred (R194). Flags written: none. -/

namespace Sys2Proof.Machine

/-- `decode_jump` (R193): the mnemonic of the jump table and one target operand. -/
def jumpCall (j : JumpOp) (off : Byte) (s : State) : Outcome :=
  runCall 2 { mnemonic := j.name, operands := jumpOperands off } s

/-- R195: `jo`. -/
def execJo (off : Byte) (s : State) : Outcome := jumpCall .jo off s

/-- R196: `jno`. -/
def execJno (off : Byte) (s : State) : Outcome := jumpCall .jno off s

/-- R197: `jb`. -/
def execJb (off : Byte) (s : State) : Outcome := jumpCall .jb off s

/-- R198: `jnb`. -/
def execJnb (off : Byte) (s : State) : Outcome := jumpCall .jnb off s

/-- R199: `je`. -/
def execJe (off : Byte) (s : State) : Outcome := jumpCall .je off s

/-- R200: `jne`. -/
def execJne (off : Byte) (s : State) : Outcome := jumpCall .jne off s

/-- R201: `jbe`. -/
def execJbe (off : Byte) (s : State) : Outcome := jumpCall .jbe off s

/-- R202: `jnbe`. -/
def execJnbe (off : Byte) (s : State) : Outcome := jumpCall .jnbe off s

/-- R203: `js`. -/
def execJs (off : Byte) (s : State) : Outcome := jumpCall .js off s

/-- R204: `jns`. -/
def execJns (off : Byte) (s : State) : Outcome := jumpCall .jns off s

/-- R205: `jp`. -/
def execJp (off : Byte) (s : State) : Outcome := jumpCall .jp off s

/-- R206: `jnp`. -/
def execJnp (off : Byte) (s : State) : Outcome := jumpCall .jnp off s

/-- R207: `jl`. -/
def execJl (off : Byte) (s : State) : Outcome := jumpCall .jl off s

/-- R208: `jnl`. -/
def execJnl (off : Byte) (s : State) : Outcome := jumpCall .jnl off s

/-- R209: `jle`. -/
def execJle (off : Byte) (s : State) : Outcome := jumpCall .jle off s

/-- R210: `jnle`. -/
def execJnle (off : Byte) (s : State) : Outcome := jumpCall .jnle off s

/-- R211: `loopnz`. -/
def execLoopnz (off : Byte) (s : State) : Outcome := jumpCall .loopnz off s

/-- R212: `loopz`. -/
def execLoopz (off : Byte) (s : State) : Outcome := jumpCall .loopz off s

/-- R213: `loop`. -/
def execLoop (off : Byte) (s : State) : Outcome := jumpCall .loop off s

/-- R214: `jcxz`. -/
def execJcxz (off : Byte) (s : State) : Outcome := jumpCall .jcxz off s

end Sys2Proof.Machine
end

