-- ==== Sys2Proof/Machine/Mov.lean ====
section
/-! DEFINITION. The mov family (41_mov). Flags written: none. -/

namespace Sys2Proof.Machine

/-- R160: `mov` between a register and a register or memory operand. -/
def execMovRegMem (d w : Bool) (reg : BitVec 3) (rm : Rm) (s : State) : Outcome :=
  runCall (2 + rm.dispLen) { mnemonic := "mov", operands := regMemOperands d w reg rm } s

/-- R161: `mov` immediate to register. -/
def execMovImmReg (reg : BitVec 3) (imm : Imm) (s : State) : Outcome :=
  runCall (1 + imm.len) { mnemonic := "mov", operands := regImmOperands reg imm } s

end Sys2Proof.Machine
end

