-- ==== Sys2Proof/Machine/Dispatch.lean ====
section
/-! DEFINITION. One arm per constructor of `Instr`, each one call of that instruction's meaning. -/

namespace Sys2Proof.Machine

def exec (i : Instr) (s : State) : Host.Outcome State Fault Refusal :=
  match i with
  | .movRegMem d w reg rm => Sys2Proof.Machine.execMovRegMem d w reg rm s
  | .addRegMem d w reg rm => Sys2Proof.Machine.execAddRegMem d w reg rm s
  | .subRegMem d w reg rm => Sys2Proof.Machine.execSubRegMem d w reg rm s
  | .cmpRegMem d w reg rm => Sys2Proof.Machine.execCmpRegMem d w reg rm s
  | .movImmReg reg imm => Sys2Proof.Machine.execMovImmReg reg imm s
  | .addImmRm _ rm imm => Sys2Proof.Machine.execAddImmRm rm imm s
  | .subImmRm _ rm imm => Sys2Proof.Machine.execSubImmRm rm imm s
  | .cmpImmRm _ rm imm => Sys2Proof.Machine.execCmpImmRm rm imm s
  | .addImmAcc imm => Sys2Proof.Machine.execAddImmAcc imm s
  | .subImmAcc imm => Sys2Proof.Machine.execSubImmAcc imm s
  | .cmpImmAcc imm => Sys2Proof.Machine.execCmpImmAcc imm s
  | .jo off => Sys2Proof.Machine.execJo off s
  | .jno off => Sys2Proof.Machine.execJno off s
  | .jb off => Sys2Proof.Machine.execJb off s
  | .jnb off => Sys2Proof.Machine.execJnb off s
  | .je off => Sys2Proof.Machine.execJe off s
  | .jne off => Sys2Proof.Machine.execJne off s
  | .jbe off => Sys2Proof.Machine.execJbe off s
  | .jnbe off => Sys2Proof.Machine.execJnbe off s
  | .js off => Sys2Proof.Machine.execJs off s
  | .jns off => Sys2Proof.Machine.execJns off s
  | .jp off => Sys2Proof.Machine.execJp off s
  | .jnp off => Sys2Proof.Machine.execJnp off s
  | .jl off => Sys2Proof.Machine.execJl off s
  | .jnl off => Sys2Proof.Machine.execJnl off s
  | .jle off => Sys2Proof.Machine.execJle off s
  | .jnle off => Sys2Proof.Machine.execJnle off s
  | .loopnz off => Sys2Proof.Machine.execLoopnz off s
  | .loopz off => Sys2Proof.Machine.execLoopz off s
  | .loop off => Sys2Proof.Machine.execLoop off s
  | .jcxz off => Sys2Proof.Machine.execJcxz off s

end Sys2Proof.Machine
end

