-- ==== Sys2Proof/Machine/Tick.lean ====
section
/-! DEFINITION. The decoder as the byte-at-a-time machine of 10_state R24 to R26: one `tick` is one read on
`src` or one event on `out`. Each component of 00_scope R1 is a function here and writes the context fields
that 10_state gives it. `step` (Machine/Step.lean) is a whole decode call; that the two agree is a claim. -/

namespace Sys2Proof.Machine

/-- A component's result: the next state, or the fault of reading an unwritten field (R47). -/
abbrev Ticked := Except Fault State

/-- The value of a context field; a field this call has not written faults (R47). -/
def need {α : Type} (f : CtxField) (x : Option α) : Except Fault α :=
  match x with
  | some v => .ok v
  | none => .error (.unwrittenField f)

/-- A terminal event is decided; the next tick delivers it (R24, R237). The phase stays as it is until then:
DESIGN CHOICE, since R25 names no phase between the read that decides an end and its delivery (log 3). -/
def setDue (h : Halt) (s : State) : State := { s with due := some h }

/-! ## Opcode Classifier (30_encoding R82 to R90) -/

/-- The sub-opcode check of an arithmetic opcode or addressing byte (R172): the next phase, or the error. -/
def checkSubop (subop : BitVec 3) (next : Phase) (s : State) : State :=
  match arithOp subop with
  | some _ => { s with phase := next }
  | none => setDue (.fail .unsupportedArithmeticOp) s

/-- The class that the first byte gives, and the fields the classifier extracts from it (R31 to R36, R46).
An arithmetic class writes all its fields before the sub-opcode is checked: DESIGN CHOICE, since R86 and R88 give
them together and R107 checks before `d`, `w` and `reg` are set (log 17). Under `SW_BYTE = FIRST` arith-imm-rm
writes `w` here, as R33 says, and `s` with it: DESIGN CHOICE, since R147 sets both after byte two (log 17). -/
def latchOpcode (b1 : Byte) (s : State) : State :=
  let c := classify s.params b1
  match c with
  | .unsupported => setDue (.fail .unsupportedOpcode) { s with ctx := { s.ctx with opClass := some c } }
  | .jumpOrLoop j =>
    { s with ctx := { s.ctx with opClass := some c, jmpMnemonic := some j.name }, phase := .needOff }
  | .movRegMem =>
    { s with
      ctx := { s.ctx with opClass := some c, d := some (dBit b1), w := some (wBit b1) }
      phase := .needAddr }
  | .arithRegMem =>
    checkSubop (midField b1) .needAddr
      { s with
        ctx := { s.ctx with
          opClass := some c, subop := some (midField b1), d := some (dBit b1), w := some (wBit b1) } }
  | .movImmReg =>
    { s with
      ctx := { s.ctx with opClass := some c, w := some (wBitImmReg b1), reg := some (rmField b1) }
      phase := .needImm .first }
  | .arithImmAcc =>
    checkSubop (midField b1) (.needImm .first)
      { s with
        ctx := { s.ctx with
          opClass := some c, subop := some (midField b1), w := some (wBit b1), reg := some 0 } }
  | .arithImmRm =>
    match s.params.swByte with
    | .second => { s with ctx := { s.ctx with opClass := some c }, phase := .needAddr }
    | .first =>
      { s with
        ctx := { s.ctx with opClass := some c, s := some (sOf .first b1 b1), w := some (wOf .first b1 b1) }
        phase := .needAddr }

/-- The first read of a decode call, in phase Boundary (R107). -/
def tickBoundary (s : State) : State :=
  match fetchByte (beginCall s) with
  | (.byte b1, t) => latchOpcode b1 t
  | (.endOfStream, t) => setDue .done t
  | (.err, t) => setDue (.fail .sourceError) t

/-! ## Reads after the first byte -/

/-- A read inside an instruction: exhaustion is `TruncatedStream` (R232), an error `SourceError` (R234). -/
def readInside (k : Byte → State → Ticked) (s : State) : Ticked :=
  match fetchByte s with
  | (.byte b, t) => k b t
  | (.endOfStream, t) => .ok (setDue (.fail .truncatedStream) t)
  | (.err, t) => .ok (setDue (.fail .sourceError) t)

/-- Where an instruction goes after its addressing byte and displacement (R26). -/
def afterDisp (c : OpClass) : Phase :=
  if c = .arithImmRm then .needImm .first else .format

/-- Where an instruction goes after its addressing byte (R26). -/
def afterAddr (c : OpClass) (width : DispWidth) : Phase :=
  match width with
  | .w0 => afterDisp c
  | .w8 => .needDisp .first
  | .w16 => .needDisp .first

/-! ## Addressing Byte Decoder (40_addressing R120 to R129) -/

/-- The mode, its flags and the displacement width, from `mod` and `rm` (R37, R38, R123 to R127). -/
def latchMode (mod : BitVec 2) (rm : BitVec 3) (c : Ctx) : Ctx :=
  let m := addrMode mod rm
  { c with
    mod := some mod
    rm := some rm
    memMode := some (memModeFlag m)
    direct := some (directFlag m)
    dispWidth := some m.dispWidth }

/-- The middle field is the sub-opcode for arith-imm-rm (R122); under `SW_BYTE = SECOND` the same byte gives
`s` and `w` (R89). All fields of the byte are written before the sub-opcode is checked: DESIGN CHOICE, since R147
checks it before `s`, `w`, `mem_mode`, `direct` and `disp_width` are set, and R89 sets `s` and `w` with it
(log 17). -/
def latchAddrImmRm (b2 : Byte) (s : State) : State :=
  let c := latchMode (modField b2) (rmField b2) { s.ctx with subop := some (midField b2) }
  let c' := match s.params.swByte with
    | .second => { c with s := some (sOf .second b2 b2), w := some (wOf .second b2 b2) }
    | .first => c
  checkSubop (midField b2) (afterAddr .arithImmRm (addrMode (modField b2) (rmField b2)).dispWidth)
    { s with ctx := c' }

/-- The middle field is a register code for mov-reg-mem and arith-reg-mem (R122). -/
def latchAddrRegMem (c : OpClass) (b2 : Byte) (s : State) : State :=
  { s with
    ctx := latchMode (modField b2) (rmField b2) { s.ctx with reg := some (midField b2) }
    phase := afterAddr c (addrMode (modField b2) (rmField b2)).dispWidth }

/-- Phase NeedAddr (R120). -/
def tickAddr (s : State) : Ticked :=
  match need .opClass s.ctx.opClass with
  | .error f => .error f
  | .ok c =>
    readInside (fun b2 t =>
      .ok (if c = .arithImmRm then latchAddrImmRm b2 t else latchAddrRegMem c b2 t)) s

/-! ## Displacement/Immediate Reader (40_addressing R130 to R137) -/

/-- Phase NeedDisp(1) (R130): the whole of an 8-bit displacement, zero-extended, or the low byte of 16. -/
def tickDispFirst (s : State) : Ticked := do
  let c ← need .opClass s.ctx.opClass
  let width ← need .dispWidth s.ctx.dispWidth
  match width with
  | .w0 => .error .incoherentPhase
  | .w8 =>
    readInside (fun lo t =>
      .ok { t with ctx := { t.ctx with dispValue := some (zext16 lo) }, phase := afterDisp c }) s
  | .w16 =>
    readInside (fun lo t =>
      .ok { t with ctx := { t.ctx with dispLo := some lo }, phase := .needDisp .second }) s

/-- Phase NeedDisp(2) (R130): the high byte. -/
def tickDispSecond (s : State) : Ticked := do
  let c ← need .opClass s.ctx.opClass
  let lo ← need .dispLo s.ctx.dispLo
  readInside (fun hi t =>
    .ok { t with ctx := { t.ctx with dispValue := some (joinLE lo hi) }, phase := afterDisp c }) s

/-- Whether an immediate of width 1 is sign-extended: `s` is read for arith-imm-rm with w = 1 only (R34,
R132). -/
def sextWanted (c : Ctx) : Except Fault Bool := do
  let cls ← need .opClass c.opClass
  let w ← need .w c.w
  if w && cls == .arithImmRm then need .s c.s else .ok false

/-- Phase NeedImm(1) (R132): an 8-bit immediate, a sign-extended one, or the low byte of 16. -/
def tickImmFirst (s : State) : Ticked := do
  let w ← need .w s.ctx.w
  let sext ← sextWanted s.ctx
  readInside (fun lo t =>
    .ok (if !w then
      { t with
        ctx := { t.ctx with immWidth := some .w8, immValue := some (zext16 lo), immSext := some false }
        phase := .format }
    else if sext then
      { t with
        ctx := { t.ctx with immWidth := some .w16, immValue := some (sext16 lo), immSext := some true }
        phase := .format }
    else
      { t with ctx := { t.ctx with immLo := some lo }, phase := .needImm .second })) s

/-- Phase NeedImm(2) (R132): the high byte. -/
def tickImmSecond (s : State) : Ticked := do
  let lo ← need .immLo s.ctx.immLo
  readInside (fun hi t =>
    .ok { t with
      ctx := { t.ctx with
        immWidth := some .w16, immValue := some (joinLE lo hi), immSext := some false }
      phase := .format }) s

/-! ## Jump/Loop Decoder (43_jump_loop R193) -/

/-- Phase NeedOff: the offset byte. -/
def tickOff (s : State) : Ticked :=
  readInside (fun b t => .ok { t with ctx := { t.ctx with offByte := some b }, phase := .format }) s

/-! ## Operand Formatter (40_addressing R140 to R147) -/

/-- `rm_arg()` (R140), reading only the fields its branch uses. -/
def rmArgOf (c : Ctx) : Except Fault String := do
  let memMode ← need .memMode c.memMode
  if !memMode then do
    let w ← need .w c.w
    let rm ← need .rm c.rm
    .ok (regname w rm)
  else do
    let direct ← need .direct c.direct
    if direct then do
      let v ← need .dispValue c.dispValue
      .ok (directText v)
    else do
      let width ← need .dispWidth c.dispWidth
      let rm ← need .rm c.rm
      if width = .w0 then .ok (baseText rm)
      else do
        let v ← need .dispValue c.dispValue
        .ok (baseDispText rm v)

/-- `arith_mnemonic(subop)` (R174). An invalid sub-opcode never comes this far (R172). -/
def arithMnemonicOf (c : Ctx) : Except Fault String := do
  let subop ← need .subop c.subop
  match arithOp subop with
  | some op => .ok op.name
  | none => .error .incoherentPhase

/-- The record of a format RM instruction (R144). -/
def formatRegMem (mnemonic : String) (c : Ctx) : Except Fault Record := do
  let d ← need .d c.d
  let w ← need .w c.w
  let reg ← need .reg c.reg
  let a ← rmArgOf c
  .ok { mnemonic := mnemonic, operands := orderOperands d a (regname w reg) }

/-- The record of a format IR or AI instruction (R142). -/
def formatRegImm (mnemonic : String) (c : Ctx) : Except Fault Record := do
  let w ← need .w c.w
  let reg ← need .reg c.reg
  let v ← need .immValue c.immValue
  .ok { mnemonic := mnemonic, operands := [regname w reg, immText v] }

/-- The record of a format MI instruction (R142, R143, R147). -/
def formatRmImm (mnemonic : String) (c : Ctx) : Except Fault Record := do
  let a ← rmArgOf c
  let memMode ← need .memMode c.memMode
  let width ← need .immWidth c.immWidth
  let v ← need .immValue c.immValue
  .ok { mnemonic := mnemonic, operands := [sizedText memMode width a, immText v] }

/-- The record of a jump/loop instruction (R193). -/
def formatJump (c : Ctx) : Except Fault Record := do
  let m ← need .jmpMnemonic c.jmpMnemonic
  let b ← need .offByte c.offByte
  .ok { mnemonic := m, operands := jumpOperands b }

/-- The record of the call, by class (R107). -/
def formatRecord (c : Ctx) : Except Fault Record := do
  let cls ← need .opClass c.opClass
  match cls with
  | .movRegMem => formatRegMem "mov" c
  | .movImmReg => formatRegImm "mov" c
  | .arithRegMem => do
    let m ← arithMnemonicOf c
    formatRegMem m c
  | .arithImmAcc => do
    let m ← arithMnemonicOf c
    formatRegImm m c
  | .arithImmRm => do
    let m ← arithMnemonicOf c
    formatRmImm m c
  | .jumpOrLoop _ => formatJump c
  | .unsupported => .error .incoherentPhase

/-- Phase Format (R26, R51): the record goes out. -/
def tickFormat (s : State) : Ticked := do
  let r ← formatRecord s.ctx
  .ok (emitRecord r s)

/-! ## One tick -/

/-- The work of a phase of a running decoder with no terminal event due (R26). -/
def tickPhase (s : State) : Ticked :=
  match s.phase with
  | .boundary => .ok (tickBoundary s)
  | .needAddr => tickAddr s
  | .needDisp .first => tickDispFirst s
  | .needDisp .second => tickDispSecond s
  | .needImm .first => tickImmFirst s
  | .needImm .second => tickImmSecond s
  | .needOff => tickOff s
  | .format => tickFormat s
  | .halted _ => .error .halted

/-- One step in the sense of R24: one read on `src` with its answer, or one event on `out`. A run that is
over takes none (R22, R247). -/
def tick (s : State) : Outcome :=
  if s.driver.aborted then .fault .driverAborted
  else
    match s.phase, s.due with
    | .halted _, _ => .fault .halted
    | _, some h => .next (terminate h s)
    | _, none =>
      match tickPhase s with
      | .ok t => .next t
      | .error f => .fault f

/-- Whether a decode call is not under way: the decoder is at a boundary or halted, and no terminal event is
due. -/
def callOver (s : State) : Bool :=
  match s.phase with
  | .boundary => s.due == none
  | .halted _ => true
  | _ => false

/-- The most ticks of one decode call (R24, R268): 6 reads and one event. -/
def maxTicks : Nat := 7

/-- Ticks up to the next event on `out`, at most `n` of them. -/
def finishCall : Nat → State → Outcome
  | 0, s => .next s
  | n + 1, s =>
    match tick s with
    | .next t => if callOver t then .next t else finishCall n t
    | .fault f => .fault f
    | .refused r => .refused r

/-- `k` ticks in a row, stopping at the first fault. -/
def tickRun : Nat → State → Outcome
  | 0, s => .next s
  | k + 1, s =>
    match tick s with
    | .next t => tickRun k t
    | .fault f => .fault f
    | .refused r => .refused r

end Sys2Proof.Machine
end

