-- ==== Sys2Proof/Machine/Step.lean ====
section
/-! DEFINITION. The host's step: up to the next event on `out`. From an instruction boundary that is one whole
decode call (30_encoding R107): the bytes at the cursor are decoded and the instruction is run, or the
call ends without a record. Inside a call it is the rest of that call. The finer step of 10_state R24 is
`tick` (log 2). -/

namespace Sys2Proof.Machine

/-- Whether a decode call can begin: a running decoder at an instruction boundary. -/
def State.atBoundary (s : State) : Bool := callBlocked s == none

/-- The bytes of the stream from the cursor on, at most as many as the longest instruction has (R104). -/
def State.window (s : State) : List Byte := s.src.bytesFrom maxLength s.cur

/-- One decode call from an instruction boundary (R107). -/
def decodeCall (s : State) : Outcome :=
  match decode s.params s.window with
  | .instr i _ => exec i s
  | .reject why rest => .next (rejectCall why (s.window.length - rest.length) s)

/-- One step of the machine: to the next event on `out`. -/
def step (s : State) : Host.Outcome State Fault Refusal :=
  if s.atBoundary then decodeCall s else finishCall maxTicks s

/-- `s` with an opcode-table word as the stream's bytes at the cursor: the environment supplies them (R264).
At a boundary of a running decoder with the default parameters the next step runs that instruction. -/
def State.withFetchWord (s : State) (nbits w : Nat) : State :=
  { s with src := s.src.place s.cur (tableBytes nbits w) }

end Sys2Proof.Machine
end

