-- ==== Sys2Proof/Machine/Printer.lean ====
section
/-! DEFINITION. What the decoder's consumers see, as views of the state: the text of the non-executing
printer (30_encoding R108, R263) and the calls to the simulator in executing mode (R111, R265). -/

namespace Sys2Proof.Machine

/-- The operands of a line: separated by a comma and a space (R108). -/
def operandsText : List String → String
  | [] => ""
  | [a] => a
  | a :: rest => a ++ ", " ++ operandsText rest

/-- The line of a record, without its terminator (R108). -/
def recordLine (r : Record) : String := r.mnemonic ++ " " ++ operandsText r.operands

/-- The lines of records in record order, each ended by a line feed (R108). -/
def recordLines : List Record → String
  | [] => ""
  | r :: rs => recordLine r ++ "\n" ++ recordLines rs

/-- The header line (R108, R263). -/
def headerLine : String := "bits 16\n"

/-- The text printed so far: the header and a line per record, in non-executing mode only (R108, R111). -/
def printedText (s : State) : String :=
  if s.driver.executing then "" else headerLine ++ recordLines (recordsOf s.out)

/-- A call the driver makes on the simulator (R111). -/
inductive SimCall where
  | execute (rec : Record)
  | renderFinalState
  deriving DecidableEq, Repr

/-- The calls made so far, in order (R111, R265): one `execute` per record, and the render after `Done`. None
outside executing mode. -/
def simCalls (s : State) : List SimCall :=
  if s.driver.executing then
    (recordsOf s.out).map .execute ++
      (if s.phase = .halted .done then [.renderFinalState] else [])
  else []

end Sys2Proof.Machine
end

