-- ==== Sys2Proof/Safety.lean ====
section
/-! DEFINITION. The terms that claims use: the bytes at the cursor, the state after an emitted record and after
the end of a run, the order of contexts, and the invariant that every step and every tick keeps. -/

namespace Sys2Proof.Machine

/-! ## The stream at the cursor -/

/-- The next bytes of the stream are `bs` (more may follow). -/
abbrev State.Holds (s : State) (bs : List Byte) : Prop := s.src.bytesFrom bs.length s.cur = bs

/-- The stream has at least `n` more bytes. -/
abbrev State.HasBytes (s : State) (n : Nat) : Prop := (s.src.bytesFrom n s.cur).length = n

/-- The stream's remaining bytes are exactly `bs`: they stand at the cursor and no byte follows, so the stream
is finite. -/
abbrev State.HoldsOnly (s : State) (bs : List Byte) : Prop :=
  s.src.bytesFrom bs.length s.cur = bs ∧ s.src.read (s.cur + bs.length) = none

/-! ## The states after a decode call -/

/-- `s` after a decode call of `len` bytes that emitted `r` (R28, R51): every field not named is unchanged. -/
def State.emitted (s : State) (len : Nat) (r : Record) : State :=
  { s with
    cur := s.cur + len
    start := s.cur
    phase := .boundary
    ctx := Ctx.unwritten
    out := s.out ++ [.emit r]
    driver := s.driver.handOff (recordsOf s.out).length }

/-- `s` after a decode call that read `n` bytes and ended the run (R237): every field not named is
unchanged. -/
def State.ended (s : State) (n : Nat) (h : Halt) : State :=
  { s with
    cur := s.cur + n
    start := s.cur
    phase := .halted h
    ctx := Ctx.unwritten
    due := none
    out := s.out ++ [h.event] }

/-! ## The context -/

/-- A written field keeps its value. -/
def keeps {α : Type} [DecidableEq α] (x y : Option α) : Bool := x == none || x == y

/-- `d` holds every value that `c` holds: no written field was written again (R30). -/
def Ctx.extendedBy (c d : Ctx) : Bool :=
  keeps c.opClass d.opClass && keeps c.d d.d && keeps c.w d.w && keeps c.s d.s && keeps c.mod d.mod &&
  keeps c.reg d.reg && keeps c.rm d.rm && keeps c.subop d.subop && keeps c.memMode d.memMode &&
  keeps c.direct d.direct && keeps c.dispWidth d.dispWidth && keeps c.dispValue d.dispValue &&
  keeps c.dispLo d.dispLo && keeps c.immValue d.immValue && keeps c.immWidth d.immWidth &&
  keeps c.immSext d.immSext && keeps c.immLo d.immLo && keeps c.jmpMnemonic d.jmpMnemonic &&
  keeps c.offByte d.offByte

/-- The sub-opcode is written and selects a member (R172, R174). -/
def subopWritten (c : Ctx) : Bool :=
  match c.subop with
  | some x => (arithOp x).isSome
  | none => false

/-- The classifier has written its fields (R31 to R36, R46). That `s` and `w` of arith-imm-rm under
`SW_BYTE = FIRST` are among them is the model's choice (log 17). -/
def opcodeWritten (p : Params) (c : Ctx) : Bool :=
  match c.opClass with
  | some .movRegMem => c.d.isSome && c.w.isSome
  | some .arithRegMem => c.d.isSome && c.w.isSome && subopWritten c
  | some .movImmReg => c.w.isSome && c.reg.isSome
  | some .arithImmAcc => c.w.isSome && c.reg.isSome && subopWritten c
  | some .arithImmRm => p.swByte == .second || (c.s.isSome && c.w.isSome)
  | some (.jumpOrLoop j) => c.jmpMnemonic == some j.name
  | some .unsupported => false
  | none => false

/-- The class has an addressing byte (R120). -/
def classHasAddr : Option OpClass → Bool
  | some .movRegMem => true
  | some .arithRegMem => true
  | some .arithImmRm => true
  | _ => false

/-- The class has an immediate and no addressing byte (R92, R93). -/
def classHasFullImm : Option OpClass → Bool
  | some .movImmReg => true
  | some .arithImmAcc => true
  | _ => false

/-- The class is jump-or-loop. -/
def classIsJump : Option OpClass → Bool
  | some (.jumpOrLoop _) => true
  | _ => false

/-- The mode's flags and displacement width are those of `mod` and `rm` (R37, R38). -/
def modeWritten (c : Ctx) : Bool :=
  match c.mod, c.rm with
  | some m, some r =>
    c.memMode == some (memModeFlag (addrMode m r)) && c.direct == some (directFlag (addrMode m r)) &&
    c.dispWidth == some (addrMode m r).dispWidth
  | _, _ => false

/-- The Addressing Byte Decoder has written its fields (R35 to R38). -/
def addrWritten (p : Params) (c : Ctx) : Bool :=
  opcodeWritten p c && classHasAddr c.opClass && modeWritten c &&
  (if c.opClass = some .arithImmRm then subopWritten c && c.s.isSome && c.w.isSome else c.reg.isSome)

/-- The displacement is complete (R130): written unless its width is 0. -/
def dispRead (c : Ctx) : Bool := c.dispWidth == some .w0 || c.dispValue.isSome

/-- The immediate is due (R26): what comes before it is complete. -/
def immDue (p : Params) (c : Ctx) : Bool :=
  (classHasFullImm c.opClass && opcodeWritten p c) ||
  (c.opClass == some .arithImmRm && addrWritten p c && dispRead c)

/-- The immediate's fields are unwritten. -/
def immUnwritten (c : Ctx) : Bool := c.immValue == none && c.immWidth == none && c.immSext == none

/-- The addressing byte's fields and all later ones are unwritten. -/
def addrUnwritten (p : Params) (c : Ctx) : Bool :=
  c.mod == none && c.rm == none && c.memMode == none && c.direct == none && c.dispWidth == none &&
  c.dispValue == none && c.dispLo == none && immUnwritten c && c.immLo == none &&
  (if c.opClass = some .arithImmRm then
    c.subop == none && (p.swByte == .first || (c.s == none && c.w == none))
  else c.reg == none)

/-- What a phase of a running call has written, and what it has not (R25, R26, R30). -/
def phaseReady (p : Params) (c : Ctx) : Phase → Bool
  | .boundary => c == Ctx.unwritten
  | .needAddr => opcodeWritten p c && classHasAddr c.opClass && addrUnwritten p c
  | .needDisp .first =>
    addrWritten p c && c.dispWidth != some .w0 && c.dispValue == none && c.dispLo == none &&
    immUnwritten c && c.immLo == none
  | .needDisp .second =>
    addrWritten p c && c.dispWidth == some .w16 && c.dispLo.isSome && c.dispValue == none &&
    immUnwritten c && c.immLo == none
  | .needImm .first => immDue p c && immUnwritten c && c.immLo == none
  | .needImm .second => immDue p c && c.w == some true && c.immLo.isSome && immUnwritten c
  | .needOff => opcodeWritten p c && classIsJump c.opClass && c.offByte == none
  | .format =>
    if classIsJump c.opClass then opcodeWritten p c && c.offByte.isSome
    else if c.opClass = some .movRegMem ∨ c.opClass = some .arithRegMem then addrWritten p c && dispRead c
    else immDue p c && c.immValue.isSome && c.immWidth.isSome
  | .halted _ => c == Ctx.unwritten

/-! ## The context when an instruction's bytes are all read -/

/-- The fields that the addressing byte and the displacement of an operand write (R35 to R38, R123 to R131). -/
def rmFields (rm : Rm) (c : Ctx) : Ctx :=
  match rm with
  | .reg r =>
    { c with mod := some 0b11, rm := some r, memMode := some false, direct := some false, dispWidth := some .w0 }
  | .direct a =>
    { c with
      mod := some 0b00, rm := some 0b110, memMode := some true, direct := some true, dispWidth := some .w16
      dispValue := some a, dispLo := some (loByte a) }
  | .mem r =>
    { c with mod := some 0b00, rm := some r, memMode := some true, direct := some false, dispWidth := some .w0 }
  | .mem8 r v =>
    { c with
      mod := some 0b01, rm := some r, memMode := some true, direct := some false, dispWidth := some .w8
      dispValue := some (zext16 v) }
  | .mem16 r v =>
    { c with
      mod := some 0b10, rm := some r, memMode := some true, direct := some false, dispWidth := some .w16
      dispValue := some v, dispLo := some (loByte v) }

/-- The fields that the immediate writes (R39, R132 to R135). -/
def immFields (imm : Imm) (c : Ctx) : Ctx :=
  match imm with
  | .imm8 b => { c with immWidth := some .w8, immValue := some (zext16 b), immSext := some false }
  | .imm16 v =>
    { c with immWidth := some .w16, immValue := some v, immSext := some false, immLo := some (loByte v) }
  | .sext8 b => { c with immWidth := some .w16, immValue := some (sext16 b), immSext := some true }

/-- The fields of an arith-imm-rm instruction (R33, R34, R36, R89). -/
def immRmContext (p : Params) (subop : BitVec 3) (low : BitVec 2) (rm : Rm) (imm : Imm) : Ctx :=
  immFields imm (rmFields rm
    { opClass := some .arithImmRm
      subop := some subop
      s := some (sOfImmRm p.swByte low rm)
      w := some (wOfImmRm p.swByte low rm) })

/-- The fields of a jump/loop instruction (R46). -/
def jumpContext (j : JumpOp) (mnemonic : String) (off : Byte) : Ctx :=
  { opClass := some (.jumpOrLoop j), jmpMnemonic := some mnemonic, offByte := some off }

/-- The whole context of an instruction in phase Format: the fields its class writes, and no other
(R31 to R39, R46). `dispLo` and `immLo` are the model's own (log 4). -/
def contextOf (p : Params) : Instr → Ctx
  | .movRegMem d w reg rm =>
    rmFields rm { opClass := some .movRegMem, d := some d, w := some w, reg := some reg }
  | .addRegMem d w reg rm =>
    rmFields rm { opClass := some .arithRegMem, subop := some 0b000, d := some d, w := some w, reg := some reg }
  | .subRegMem d w reg rm =>
    rmFields rm { opClass := some .arithRegMem, subop := some 0b101, d := some d, w := some w, reg := some reg }
  | .cmpRegMem d w reg rm =>
    rmFields rm { opClass := some .arithRegMem, subop := some 0b111, d := some d, w := some w, reg := some reg }
  | .movImmReg reg imm => immFields imm { opClass := some .movImmReg, w := some imm.w, reg := some reg }
  | .addImmRm low rm imm => immRmContext p 0b000 low rm imm
  | .subImmRm low rm imm => immRmContext p 0b101 low rm imm
  | .cmpImmRm low rm imm => immRmContext p 0b111 low rm imm
  | .addImmAcc imm =>
    immFields imm { opClass := some .arithImmAcc, subop := some 0b000, w := some imm.w, reg := some 0 }
  | .subImmAcc imm =>
    immFields imm { opClass := some .arithImmAcc, subop := some 0b101, w := some imm.w, reg := some 0 }
  | .cmpImmAcc imm =>
    immFields imm { opClass := some .arithImmAcc, subop := some 0b111, w := some imm.w, reg := some 0 }
  | .jo off => jumpContext .jo "jo" off
  | .jno off => jumpContext .jno "jno" off
  | .jb off => jumpContext .jb "jb" off
  | .jnb off => jumpContext .jnb "jnb" off
  | .je off => jumpContext .je "je" off
  | .jne off => jumpContext .jne "jne" off
  | .jbe off => jumpContext .jbe "jbe" off
  | .jnbe off => jumpContext .jnbe "jnbe" off
  | .js off => jumpContext .js "js" off
  | .jns off => jumpContext .jns "jns" off
  | .jp off => jumpContext .jp "jp" off
  | .jnp off => jumpContext .jnp "jnp" off
  | .jl off => jumpContext .jl "jl" off
  | .jnl off => jumpContext .jnl "jnl" off
  | .jle off => jumpContext .jle "jle" off
  | .jnle off => jumpContext .jnle "jnle" off
  | .loopnz off => jumpContext .loopnz "loopnz" off
  | .loopz off => jumpContext .loopz "loopz" off
  | .loop off => jumpContext .loop "loop" off
  | .jcxz off => jumpContext .jcxz "jcxz" off

/-! ## The invariant -/

/-- The terminal event that a phase goes with (R22, R52). -/
def terminalOf : Phase → List Event
  | .halted h => [h.event]
  | _ => []

/-- The mnemonics and operand counts of records (R50, R110). -/
def recordShape (r : Record) : Bool :=
  (["mov", "add", "sub", "cmp"].contains r.mnemonic && r.operands.length == 2) ||
  (JumpOp.all.any (fun j => j.name == r.mnemonic) && r.operands.length == 1)

/-- The driver has ended the run exactly when the record that the simulator fails has gone out (R247). -/
def driverShape (s : State) : Bool :=
  match s.driver.executing, s.driver.simFailsAt with
  | true, some n =>
    if s.driver.aborted then
      (recordsOf s.out).length == n + 1 && s.phase == .boundary && s.due == none
    else (recordsOf s.out).length ≤ n
  | _, _ => !s.driver.aborted

/-- What holds of a decoder in every state of a run. -/
structure Inv (s : State) : Prop where
  /-- The jump table is a subset of the 20 entries (R8). -/
  params_wf : s.params.wf = true
  /-- The stream has its canonical form (R60). -/
  src_wf : s.src.wf = true
  /-- No byte beyond a finite stream has been read (R27, R61). -/
  cur_le : s.src.tail = .ends → s.cur ≤ s.src.length
  /-- An endless stream neither ends nor fails (R265). -/
  endless_clean : s.src.tail ≠ .ends → s.srcEnd = .clean
  /-- The call began at or before the cursor (R28). -/
  start_le : s.start ≤ s.cur
  /-- The records come first, then exactly one terminal event once the run has ended (R53). -/
  out_shape : s.out = (recordsOf s.out).map .emit ++ terminalOf s.phase
  /-- Every record has a mnemonic of R110 with its number of operands (R50). -/
  records_shape : (recordsOf s.out).all recordShape = true
  /-- With no terminal event due, the context is as the phase requires (R25, R26, R30). -/
  ctx_ready : s.due = none → phaseReady s.params s.ctx s.phase = true
  /-- A terminal event is due in a running decoder only (R52). -/
  due_running : s.due ≠ none → s.phase.status = .running
  /-- A clean end comes at an instruction boundary only (R25, R235). -/
  done_clean : (s.due = some .done ∨ s.phase = .halted .done) → s.start = s.cur
  /-- The driver's state (R247). -/
  driver_shape : driverShape s = true

end Sys2Proof.Machine
end

