-- ==== Sys2Proof/Certificates/Slice0/Obligations.lean ====
section
/-! DEFINITION. The statements for the provers: what the decoder's numbered rules say of the model, and what
the model as a whole keeps. Each docstring says which rule it formalises. -/

open Sys2Proof Sys2Proof.Machine

/-! ## Reset and the tables -/

/-- R260, with R262's start and parameters: the decoder at the start of a run, and that its first decode call
classifies the byte at position 0. There is no reset vector. -/
def Obligations.ResetState : Prop :=
  State.reset.cur = 0 ∧ State.reset.phase = .boundary ∧ State.reset.phase.status = .running ∧
  State.reset.ctx = Ctx.unwritten ∧ State.reset.out = [] ∧
  State.reset.start = 0 ∧ State.reset.params.swByte = .second ∧ State.reset.params.jumpTable = JumpOp.all ∧
  ∀ (m : Memory) (b : Byte), m.read 0 = some b →
    ∃ t, tick { State.reset with src := m } = .next t ∧ t.cur = 1 ∧
      t.ctx.opClass = some (classify State.reset.params b)

/-- The invariant holds at reset. -/
def Obligations.InvariantAtReset : Prop := Inv State.reset

/-- R40, R41, R129: the register names by width and code, and the base expressions. -/
def Obligations.NameTables : Prop :=
  (∀ i : BitVec 3, some (regname false i) =
    ["al", "cl", "dl", "bl", "ah", "ch", "dh", "bh"][i.toNat]?) ∧
  (∀ i : BitVec 3, some (regname true i) =
    ["ax", "cx", "dx", "bx", "sp", "bp", "si", "di"][i.toNat]?) ∧
  (∀ i : BitVec 3, some (eaBase i) =
    ["bx+si", "bx+di", "bp+si", "bp+di", "si", "di", "bp", "bx"][i.toNat]?)

/-! ## Decoding -/

/-- Words written out bit by bit from R91 to R95, one of each class (two of arith-imm-rm), decode to the
instruction they stand for. -/
def Obligations.SampleWordsDecode : Prop :=
  decode Params.standard [0b10001010, 0b00000110, 0b00110100, 0b00010010] =
    .instr (.movRegMem true false 0b000 (.direct 0x1234)) [] ∧
  decode Params.standard [0b00101001, 0b11011000] = .instr (.subRegMem false true 0b011 (.reg 0b000)) [] ∧
  decode Params.standard [0b10111011, 0b00000101, 0b00000001] =
    .instr (.movImmReg 0b011 (.imm16 0x0105)) [] ∧
  decode Params.standard [0b10000001, 0b01101111, 0b00000010, 0b10000000] =
    .instr (.subImmRm 0b01 (.mem8 0b111 0x02) (.sext8 0x80)) [] ∧
  decode Params.standard [0b10000000, 0b10111110, 0b11101000, 0b00000011, 0b00001001] =
    .instr (.cmpImmRm 0b00 (.mem16 0b110 0x03E8) (.imm8 0x09)) [] ∧
  decode Params.standard [0b00111101, 0b00000000, 0b00000001] = .instr (.cmpImmAcc (.imm16 0x0100)) [] ∧
  decode Params.standard [0b01110101, 0b11111101] = .instr (.jne 0xFD) [] ∧
  decode Params.standard [0b11100010, 0b11111011] = .instr (.loop 0xFB) []

/-- R91 to R95: decoding an encoded well-formed instruction gives it back, with whatever follows left
unread, under every value of the parameters. -/
def Obligations.DecodeOfEncodeIsTheInstruction : Prop :=
  ∀ (p : Params) (i : Instr) (rest : List Byte), WellFormed p i →
    decode p (encode i ++ rest) = .instr i rest

/-- The other direction: what decodes is well-formed, and its bytes are its encoding; no bit is dropped. -/
def Obligations.DecodedBytesAreTheEncoding : Prop :=
  ∀ (p : Params) (bs rest : List Byte) (i : Instr), decode p bs = .instr i rest →
    WellFormed p i ∧ bs = encode i ++ rest

/-- R84: no byte is both a jump/loop opcode and a hit of a masked row, nor a hit of two masked rows, and the
class is therefore that of the row it matches, in whichever order the rows are tried. -/
def Obligations.ClassifierRowsAreDisjoint : Prop :=
  ∀ (p : Params) (b1 : Byte),
    ((jumpLookup p b1).isSome → ∀ r ∈ maskRows, r.hits b1 = false) ∧
    (∀ r ∈ maskRows, ∀ r' ∈ maskRows, r.hits b1 = true → r'.hits b1 = true → r = r') ∧
    (∀ r ∈ maskRows, r.hits b1 = true → classify p b1 = r.cls) ∧
    (∀ j, jumpLookup p b1 = some j → classify p b1 = .jumpOrLoop j) ∧
    (jumpLookup p b1 = none → (∀ r ∈ maskRows, r.hits b1 = false) → classify p b1 = .unsupported)

/-- R97 with R82: the class of every first byte by its range, for a decoder with the full jump table, with
the variant of each of the 20 bytes of R190; 164 byte values are unsupported (R231). -/
def Obligations.FirstByteMap : Prop :=
  ∀ (p : Params) (b1 : Byte), p.jumpTable = JumpOp.all →
    let n := b1.toNat
    (classify p b1 = .movRegMem ↔ 0x88 ≤ n ∧ n ≤ 0x8B) ∧
    (classify p b1 = .movImmReg ↔ 0xB0 ≤ n ∧ n ≤ 0xBF) ∧
    (classify p b1 = .arithImmRm ↔ 0x80 ≤ n ∧ n ≤ 0x83) ∧
    (classify p b1 = .arithRegMem ↔ n ≤ 0x3B ∧ n % 8 ≤ 3) ∧
    (classify p b1 = .arithImmAcc ↔ n ≤ 0x3D ∧ (n % 8 = 4 ∨ n % 8 = 5)) ∧
    ((∃ j, classify p b1 = .jumpOrLoop j) ↔ (0x70 ≤ n ∧ n ≤ 0x7F) ∨ (0xE0 ≤ n ∧ n ≤ 0xE3)) ∧
    (∀ x ∈ [(0x70#8, JumpOp.jo), (0x71#8, JumpOp.jno), (0x72#8, JumpOp.jb), (0x73#8, JumpOp.jnb)] ++
      [(0x74#8, JumpOp.je), (0x75#8, JumpOp.jne), (0x76#8, JumpOp.jbe), (0x77#8, JumpOp.jnbe)] ++
      [(0x78#8, JumpOp.js), (0x79#8, JumpOp.jns), (0x7A#8, JumpOp.jp), (0x7B#8, JumpOp.jnp)] ++
      [(0x7C#8, JumpOp.jl), (0x7D#8, JumpOp.jnl), (0x7E#8, JumpOp.jle), (0x7F#8, JumpOp.jnle)] ++
      [(0xE0#8, JumpOp.loopnz), (0xE1#8, JumpOp.loopz), (0xE2#8, JumpOp.loop), (0xE3#8, JumpOp.jcxz)],
      (classify p b1 = .jumpOrLoop x.2 ↔ b1 = x.1)) ∧
    ((List.range 256).filter (fun k => classify p (BitVec.ofNat 8 k) = .unsupported)).length = 164

/-- R102 and R128: in the admitted classes only the sub-opcodes are checked. With enough bytes after it, a
first byte of a supported class, whose sub-opcode (where the class has one) is valid, starts an
instruction. -/
def Obligations.NoOtherEncodingIsIllegal : Prop :=
  ∀ (p : Params) (b1 b2 : Byte) (rest : List Byte), 4 ≤ rest.length →
    classify p b1 ≠ .unsupported →
    (classify p b1 = .arithRegMem ∨ classify p b1 = .arithImmAcc → (arithOp (midField b1)).isSome) →
    (classify p b1 = .arithImmRm → (arithOp (midField b2)).isSome) →
    ∃ i rest', decode p (b1 :: b2 :: rest) = .instr i rest'

/-- R104: an instruction's length by its class, from the bytes the decoder consumes; 2 is the shortest and 6
the longest. -/
def Obligations.LengthByClass : Prop :=
  ∀ (p : Params) (bs rest : List Byte) (i : Instr), decode p bs = .instr i rest →
    bs.length = instrLength i + rest.length ∧ 2 ≤ instrLength i ∧ instrLength i ≤ 6

/-- R62, R105: the decoder never looks at a byte beyond those it consumes. -/
def Obligations.DecodeIgnoresLaterBytes : Prop :=
  ∀ (p : Params) (bs extra : List Byte),
    (∀ i rest, decode p bs = .instr i rest → decode p (bs ++ extra) = .instr i (rest ++ extra)) ∧
    (∀ r rest, decode p bs = .reject r rest → r ≠ .outOfBytes →
      decode p (bs ++ extra) = .reject r (rest ++ extra))

/-- When the bytes at the cursor are the encoding of a well-formed instruction, a step from an instruction
boundary is `exec` of that instruction at that state; `exec` itself reads the bytes and moves the
cursor. -/
def Obligations.StepRunsTheDecodedInstruction : Prop :=
  ∀ (s : State) (i : Instr), s.atBoundary = true → WellFormed s.params i →
    s.Holds (encode i) → step s = exec i s

/-- The environment supplies the stream (R264): with an opcode-table word put at the cursor (log 6, log 9), the
next step runs the instruction that the decoder reads from that word. -/
def Obligations.TableWordRunsNext : Prop :=
  ∀ (s : State) (nbits w : Nat) (i : Instr), s.atBoundary = true → s.params = Params.standard →
    decodeTableWord nbits w = some i →
    step (s.withFetchWord nbits w) = exec i (s.withFetchWord nbits w)

/-! ## What each instruction emits -/

/-- R160, R175, R176, R177 with R144: the register/memory forms, every addressing form. `d = 0` puts the r/m
operand first, `d = 1` the register; no qualifier (R143); every other field is unchanged. Here and below,
`emitted` also says what the driver does with a record, which is the model's choice (log 8). -/
def Obligations.RegMemFormsEmitTheirRecord : Prop :=
  ∀ (d w : Bool) (reg : BitVec 3) (rm : Rm) (s : State), s.atBoundary = true → s.HasBytes (2 + rm.dispLen) →
    let ops := if d then [regname w reg, rmText w rm] else [rmText w rm, regname w reg]
    exec (.movRegMem d w reg rm) s = .next (s.emitted (2 + rm.dispLen) ⟨"mov", ops⟩) ∧
    exec (.addRegMem d w reg rm) s = .next (s.emitted (2 + rm.dispLen) ⟨"add", ops⟩) ∧
    exec (.subRegMem d w reg rm) s = .next (s.emitted (2 + rm.dispLen) ⟨"sub", ops⟩) ∧
    exec (.cmpRegMem d w reg rm) s = .next (s.emitted (2 + rm.dispLen) ⟨"cmp", ops⟩)

/-- R161: `mov` immediate to register: one byte shown as it is, two bytes joined low byte first, both unsigned
(R145); the register's table is that of the immediate's width. -/
def Obligations.MovImmRegEmitsItsRecord : Prop :=
  ∀ (reg : BitVec 3) (s : State), s.atBoundary = true →
    (∀ b : Byte, s.HasBytes 2 →
      exec (.movImmReg reg (.imm8 b)) s =
        .next (s.emitted 2 ⟨"mov", [regname false reg, toString b.toNat]⟩)) ∧
    (∀ lo hi : Byte, s.HasBytes 3 →
      exec (.movImmReg reg (.imm16 (joinLE lo hi))) s =
        .next (s.emitted 3 ⟨"mov", [regname true reg, toString (lo.toNat + 256 * hi.toNat)]⟩))

/-- R178, R179, R180 with R142, R143, R145: the immediate to register/memory forms. A memory destination
carries `byte` for an 8-bit immediate and `word` for a 16-bit or sign-extended one, a register none; a
sign-extended byte of 128 or more shows as itself plus 65280. -/
def Obligations.ImmRmFormsEmitTheirRecord : Prop :=
  ∀ (low : BitVec 2) (rm : Rm) (imm : Imm) (s : State), s.atBoundary = true →
    s.HasBytes (2 + rm.dispLen + imm.len) →
    let qualifier := if rm.mod = 0b11 then "" else if imm.w then "word " else "byte "
    let value := match imm with
      | .imm8 b => b.toNat
      | .imm16 v => v.toNat
      | .sext8 b => if b.toNat < 128 then b.toNat else b.toNat + 65280
    let ops := [qualifier ++ rmText imm.w rm, toString value]
    let len := 2 + rm.dispLen + imm.len
    exec (.addImmRm low rm imm) s = .next (s.emitted len ⟨"add", ops⟩) ∧
    exec (.subImmRm low rm imm) s = .next (s.emitted len ⟨"sub", ops⟩) ∧
    exec (.cmpImmRm low rm imm) s = .next (s.emitted len ⟨"cmp", ops⟩)

/-- R181, R182, R183: the accumulator forms. The destination is al or ax by the immediate's width; the byte
form is not sign-extended. -/
def Obligations.ImmAccFormsEmitTheirRecord : Prop :=
  ∀ (s : State), s.atBoundary = true →
    (∀ b : Byte, s.HasBytes 2 →
      exec (.addImmAcc (.imm8 b)) s = .next (s.emitted 2 ⟨"add", ["al", toString b.toNat]⟩) ∧
      exec (.subImmAcc (.imm8 b)) s = .next (s.emitted 2 ⟨"sub", ["al", toString b.toNat]⟩) ∧
      exec (.cmpImmAcc (.imm8 b)) s = .next (s.emitted 2 ⟨"cmp", ["al", toString b.toNat]⟩)) ∧
    (∀ v : Word, s.HasBytes 3 →
      exec (.addImmAcc (.imm16 v)) s = .next (s.emitted 3 ⟨"add", ["ax", toString v.toNat]⟩) ∧
      exec (.subImmAcc (.imm16 v)) s = .next (s.emitted 3 ⟨"sub", ["ax", toString v.toNat]⟩) ∧
      exec (.cmpImmAcc (.imm16 v)) s = .next (s.emitted 3 ⟨"cmp", ["ax", toString v.toNat]⟩))

/-- R195 to R210 with R190 to R194: the sixteen conditional jumps. One operand, the signed byte plus 2
beside `$`; the cursor goes on by 2 whatever the offset. -/
def Obligations.ConditionalJumpsEmitTheirRecord : Prop :=
  ∀ (off : Byte) (s : State), s.atBoundary = true → s.HasBytes 2 →
    let o : Int := off.toInt + 2
    let target := if o = 0 then "$+0"
      else if 0 < o then "$+" ++ toString o ++ "+0" else "$" ++ toString o ++ "+0"
    exec (.jo off) s = .next (s.emitted 2 ⟨"jo", [target]⟩) ∧
    exec (.jno off) s = .next (s.emitted 2 ⟨"jno", [target]⟩) ∧
    exec (.jb off) s = .next (s.emitted 2 ⟨"jb", [target]⟩) ∧
    exec (.jnb off) s = .next (s.emitted 2 ⟨"jnb", [target]⟩) ∧
    exec (.je off) s = .next (s.emitted 2 ⟨"je", [target]⟩) ∧
    exec (.jne off) s = .next (s.emitted 2 ⟨"jne", [target]⟩) ∧
    exec (.jbe off) s = .next (s.emitted 2 ⟨"jbe", [target]⟩) ∧
    exec (.jnbe off) s = .next (s.emitted 2 ⟨"jnbe", [target]⟩) ∧
    exec (.js off) s = .next (s.emitted 2 ⟨"js", [target]⟩) ∧
    exec (.jns off) s = .next (s.emitted 2 ⟨"jns", [target]⟩) ∧
    exec (.jp off) s = .next (s.emitted 2 ⟨"jp", [target]⟩) ∧
    exec (.jnp off) s = .next (s.emitted 2 ⟨"jnp", [target]⟩) ∧
    exec (.jl off) s = .next (s.emitted 2 ⟨"jl", [target]⟩) ∧
    exec (.jnl off) s = .next (s.emitted 2 ⟨"jnl", [target]⟩) ∧
    exec (.jle off) s = .next (s.emitted 2 ⟨"jle", [target]⟩) ∧
    exec (.jnle off) s = .next (s.emitted 2 ⟨"jnle", [target]⟩)

/-- R211 to R214 with R190 to R194: loopnz, loopz, loop and jcxz. No register is decremented. -/
def Obligations.LoopFormsEmitTheirRecord : Prop :=
  ∀ (off : Byte) (s : State), s.atBoundary = true → s.HasBytes 2 →
    let o : Int := off.toInt + 2
    let target := if o = 0 then "$+0"
      else if 0 < o then "$+" ++ toString o ++ "+0" else "$" ++ toString o ++ "+0"
    exec (.loopnz off) s = .next (s.emitted 2 ⟨"loopnz", [target]⟩) ∧
    exec (.loopz off) s = .next (s.emitted 2 ⟨"loopz", [target]⟩) ∧
    exec (.loop off) s = .next (s.emitted 2 ⟨"loop", [target]⟩) ∧
    exec (.jcxz off) s = .next (s.emitted 2 ⟨"jcxz", [target]⟩)

/-! ## From bytes to records -/

/-- R160, R175 to R177 with R123 to R131, R144 and R174, from the raw bytes: a first byte that matches mask
0xFC and value 0x88, or mask 0xC4 and value 0x00 with bits 5:3 = 000, 101 or 111, then an addressing byte
`mod reg rm` of each mode with its displacement bytes, little-endian. -/
def Obligations.RegMemBytesToRecord : Prop :=
  ∀ (s : State) (m : String) (b1 b2 lo hi : Byte), s.atBoundary = true →
    (b1 &&& 0xFC = 0x88 ∧ m = "mov" ∨
     b1 &&& 0xC4 = 0x00 ∧ (b1.extractLsb' 3 3 = 0b000#3 ∧ m = "add" ∨ b1.extractLsb' 3 3 = 0b101#3 ∧ m = "sub" ∨
       b1.extractLsb' 3 3 = 0b111#3 ∧ m = "cmp")) →
    let w := b1.getLsbD 0
    let reg : BitVec 3 := b2.extractLsb' 3 3
    let rm : BitVec 3 := b2.extractLsb' 0 3
    let emits := fun (len : Nat) (a : String) =>
      step s = .next (s.emitted len
        ⟨m, if b1.getLsbD 1 then [regname w reg, a] else [a, regname w reg]⟩)
    (0xC0 ≤ b2.toNat → s.Holds [b1, b2] → emits 2 (regname w rm)) ∧
    (b2.toNat < 0x40 → rm = 6 → s.Holds [b1, b2, lo, hi] →
      emits 4 ("[" ++ toString (lo.toNat + 256 * hi.toNat) ++ "]")) ∧
    (b2.toNat < 0x40 → rm ≠ 6 → s.Holds [b1, b2] → emits 2 ("[" ++ eaBase rm ++ "]")) ∧
    (0x40 ≤ b2.toNat → b2.toNat < 0x80 → s.Holds [b1, b2, lo] →
      emits 3 ("[" ++ eaBase rm ++ " + " ++ toString lo.toNat ++ "]")) ∧
    (0x80 ≤ b2.toNat → b2.toNat < 0xC0 → s.Holds [b1, b2, lo, hi] →
      emits 4 ("[" ++ eaBase rm ++ " + " ++ toString (lo.toNat + 256 * hi.toNat) ++ "]"))

/-- R161, R181 to R183 with R87, R88, R132 to R136, from the raw bytes: `1011wrrr` and `00ooo10w` with one or
two immediate bytes, low first, shown unsigned. -/
def Obligations.ImmediateBytesToRecord : Prop :=
  ∀ (s : State) (m : String) (b1 lo hi : Byte), s.atBoundary = true →
    (b1 &&& 0xF0 = 0xB0 →
      let reg : BitVec 3 := b1.extractLsb' 0 3
      (b1.getLsbD 3 = false → s.Holds [b1, lo] →
        step s = .next (s.emitted 2 ⟨"mov", [regname false reg, toString lo.toNat]⟩)) ∧
      (b1.getLsbD 3 = true → s.Holds [b1, lo, hi] →
        step s = .next (s.emitted 3 ⟨"mov", [regname true reg, toString (lo.toNat + 256 * hi.toNat)]⟩))) ∧
    (b1 &&& 0xC6 = 0x04 →
      (b1.extractLsb' 3 3 = 0b000#3 ∧ m = "add" ∨ b1.extractLsb' 3 3 = 0b101#3 ∧ m = "sub" ∨
        b1.extractLsb' 3 3 = 0b111#3 ∧ m = "cmp") →
      (b1.getLsbD 0 = false → s.Holds [b1, lo] →
        step s = .next (s.emitted 2 ⟨m, ["al", toString lo.toNat]⟩)) ∧
      (b1.getLsbD 0 = true → s.Holds [b1, lo, hi] →
        step s = .next (s.emitted 3 ⟨m, ["ax", toString (lo.toNat + 256 * hi.toNat)]⟩)))

/-- R190 to R193 from the raw bytes: each of the 20 opcode bytes with its mnemonic, where the decoder's jump
table holds the entry; where it does not (R8), the byte is an unsupported opcode. -/
def Obligations.JumpBytesToRecord : Prop :=
  ∀ (s : State) (off : Byte), s.atBoundary = true →
    let o : Int := off.toInt + 2
    let target := if o = 0 then "$+0"
      else if 0 < o then "$+" ++ toString o ++ "+0" else "$" ++ toString o ++ "+0"
    ∀ x ∈ [(0x70#8, JumpOp.jo, "jo"), (0x71#8, JumpOp.jno, "jno"), (0x72#8, JumpOp.jb, "jb"), (0x73#8, JumpOp.jnb, "jnb")] ++
      [(0x74#8, JumpOp.je, "je"), (0x75#8, JumpOp.jne, "jne"), (0x76#8, JumpOp.jbe, "jbe"), (0x77#8, JumpOp.jnbe, "jnbe")] ++
      [(0x78#8, JumpOp.js, "js"), (0x79#8, JumpOp.jns, "jns"), (0x7A#8, JumpOp.jp, "jp"), (0x7B#8, JumpOp.jnp, "jnp")] ++
      [(0x7C#8, JumpOp.jl, "jl"), (0x7D#8, JumpOp.jnl, "jnl"), (0x7E#8, JumpOp.jle, "jle"), (0x7F#8, JumpOp.jnle, "jnle")] ++
      [(0xE0#8, JumpOp.loopnz, "loopnz"), (0xE1#8, JumpOp.loopz, "loopz"), (0xE2#8, JumpOp.loop, "loop"), (0xE3#8, JumpOp.jcxz, "jcxz")],
      (x.2.1 ∈ s.params.jumpTable → s.Holds [x.1, off] → step s = .next (s.emitted 2 ⟨x.2.2, [target]⟩)) ∧
      (x.2.1 ∉ s.params.jumpTable → s.Holds [x.1] →
        step s = .next (s.ended 1 (.fail .unsupportedOpcode)))

/-- R89, R102: under `SW_BYTE = SECOND` the low two bits of the arith-imm-rm opcode byte are ignored: two
streams that differ only there give the same step but for the stream itself. -/
def Obligations.SecondIgnoresOpcodeLowBits : Prop :=
  ∀ (s t : State) (b1 b1' : Byte) (rest : List Byte), s.params.swByte = .second →
    s.atBoundary = true → b1 &&& 0xFC = 0x80 → b1' &&& 0xFC = 0x80 → rest.length ≤ 5 →
    s.HoldsOnly (b1 :: rest) → t = { s with src := t.src } → t.HoldsOnly (b1' :: rest) →
    ∃ s', step s = .next s' ∧ step t = .next { s' with src := t.src }

/-- R33, R34, R132 to R135 under each `SW_BYTE`, from the raw bytes, for a register destination and each member: which byte
gives `s` and `w`, how many immediate bytes are read, and what value shows. -/
def Obligations.ImmediateWidthAndSignExtension : Prop :=
  ∀ (s : State) (m : String) (b1 b2 lo hi : Byte), s.atBoundary = true →
    b1 &&& 0xFC = 0x80 → b2 &&& 0xC0 = 0xC0 →
    (b2.extractLsb' 3 3 = 0b000#3 ∧ m = "add" ∨ b2.extractLsb' 3 3 = 0b101#3 ∧ m = "sub" ∨
      b2.extractLsb' 3 3 = 0b111#3 ∧ m = "cmp") →
    s.Holds [b1, b2, lo, hi] →
    let src := match s.params.swByte with | .second => b2 | .first => b1
    let rm : BitVec 3 := b2.extractLsb' 0 3
    (src.getLsbD 0 = false →
      step s = .next (s.emitted 3 ⟨m, [regname false rm, toString lo.toNat]⟩)) ∧
    (src.getLsbD 0 = true → src.getLsbD 1 = true → lo.toNat < 128 →
      step s = .next (s.emitted 3 ⟨m, [regname true rm, toString lo.toNat]⟩)) ∧
    (src.getLsbD 0 = true → src.getLsbD 1 = true → 128 ≤ lo.toNat →
      step s = .next (s.emitted 3 ⟨m, [regname true rm, toString (0xFF00 + lo.toNat)]⟩)) ∧
    (src.getLsbD 0 = true → src.getLsbD 1 = false →
      step s = .next (s.emitted 4 ⟨m, [regname true rm, toString (lo.toNat + 256 * hi.toNat)]⟩))

/-! ## Errors and the end of a run -/

/-- R231, R100: an unsupported first byte ends the run right after it, with nothing else read. -/
def Obligations.UnsupportedOpcodeEndsTheRun : Prop :=
  ∀ (s : State) (b1 : Byte), s.atBoundary = true → s.Holds [b1] → classify s.params b1 = .unsupported →
    step s = .next (s.ended 1 (.fail .unsupportedOpcode))

/-- R172, R233, R241: an invalid sub-opcode ends the run as soon as it is read, after byte 1 for the
reg-mem and accumulator classes and after byte 2 for arith-imm-rm, whatever follows or is missing. -/
def Obligations.InvalidSubopEndsTheRunAtOnce : Prop :=
  ∀ (s : State) (b1 b2 : Byte), s.atBoundary = true →
    (b1 &&& 0xC4 = 0x00 ∨ b1 &&& 0xC6 = 0x04 → b1.extractLsb' 3 3 ∉ [0b000#3, 0b101#3, 0b111#3] →
      s.Holds [b1] → step s = .next (s.ended 1 (.fail .unsupportedArithmeticOp))) ∧
    (b1 &&& 0xFC = 0x80 → b2.extractLsb' 3 3 ∉ [0b000#3, 0b101#3, 0b111#3] →
      s.Holds [b1, b2] → step s = .next (s.ended 2 (.fail .unsupportedArithmeticOp)))

/-- R232, R234, R238: a stream that stops inside an instruction ends the run with `TruncatedStream`, or with
`SourceError` where the source failed; the cursor stands at the stream's end, no record is made, and both
the step and the instruction's own meaning say so (that a meaning reads its own bytes is log 10). -/
def Obligations.StreamEndInsideInstruction : Prop :=
  ∀ (s : State) (i : Instr) (k : Nat), s.atBoundary = true → WellFormed s.params i →
    0 < k → k < instrLength i → s.HoldsOnly ((encode i).take k) →
    let h := match s.srcEnd with | .clean => Halt.fail .truncatedStream | .error => Halt.fail .sourceError
    step s = .next (s.ended k h) ∧ exec i s = .next (s.ended k h)

/-- R235, and R234 at a boundary: no byte at an instruction boundary is `Done` for an exhausted source (an empty
stream at once) and `SourceError` for a failed one, and nothing else gives `Done`. -/
def Obligations.StreamEndAtBoundary : Prop :=
  ∀ (s : State), s.atBoundary = true →
    (s.src.read s.cur = none → s.srcEnd = .clean → step s = .next (s.ended 0 .done)) ∧
    (s.src.read s.cur = none → s.srcEnd = .error → step s = .next (s.ended 0 (.fail .sourceError))) ∧
    (∀ t, step s = .next t → t.phase = .halted .done → s.src.read s.cur = none ∧ s.srcEnd = .clean)

/-- R52: Running at reset; once halted, no step and no tick is taken (so the status never changes again); only
the delivery of `Done` or `Fail` halts. That a halted machine answers a fault, and its name, is log 10. -/
def Obligations.HaltedTakesNoStep : Prop :=
  State.reset.phase.status = .running ∧
  (∀ (s : State) (h : Halt), s.phase = .halted h →
    ∀ t, step s ≠ .next t ∧ tick s ≠ .next t ∧ ∀ i, exec i s ≠ .next t) ∧
  (∀ (s : State) (h : Halt), s.driver.aborted = false → s.phase = .halted h →
    step s = .fault .halted ∧ tick s = .fault .halted ∧ ∀ i, exec i s = .fault .halted) ∧
  (∀ (s t : State), tick s = .next t → t.phase.status ≠ s.phase.status →
    ∃ h, t.phase = .halted h ∧ t.out = s.out ++ [h.event])

/-- R247: in executing mode the record whose `execute` call fails is the last; the driver takes no further
step after it. A record before it, or non-executing mode, ends nothing. How the simulator's answers
stand in State is log 8. -/
def Obligations.SimulatorErrorEndsTheRun : Prop :=
  ∀ (s t : State) (i : Instr), exec i s = .next t → t.phase = .boundary →
    (s.driver.executing = true → s.driver.simFailsAt = some (recordsOf s.out).length →
      t.driver.aborted = true ∧ step t = .fault .driverAborted ∧ tick t = .fault .driverAborted) ∧
    (s.driver.executing = false ∨ s.driver.simFailsAt ≠ some (recordsOf s.out).length →
      t.driver.aborted = false)

/-! ## Frames -/

/-- R63, R29, R48, R194: whatever an instruction does, record or error, it writes no byte of the stream and
no parameter, the cursor only advances, within the instruction's length, and exactly one event goes
out. -/
def Obligations.ExecFrame : Prop :=
  ∀ (i : Instr) (s t : State), exec i s = .next t →
    (∀ a, t.src.read a = s.src.read a) ∧ t.src = s.src ∧ t.srcEnd = s.srcEnd ∧ t.params = s.params ∧
    t.driver.executing = s.driver.executing ∧ t.driver.simFailsAt = s.driver.simFailsAt ∧
    t.start = s.cur ∧ s.cur ≤ t.cur ∧ t.cur ≤ s.cur + instrLength i ∧
    t.ctx = Ctx.unwritten ∧ t.due = none ∧ ∃ e, t.out = s.out ++ [e]

/-- R24, R27, R28, R63: a tick leaves the stream, the parameters and the driver's mode and simulator answer
alone, moves the cursor by one exactly when it consumed the byte that stood there, sets `start` only where a
call begins, and lets the driver end the run only where a record goes out. -/
def Obligations.TickFrame : Prop :=
  ∀ (s t : State), tick s = .next t →
    t.src = s.src ∧ t.srcEnd = s.srcEnd ∧ t.params = s.params ∧
    t.driver.executing = s.driver.executing ∧ t.driver.simFailsAt = s.driver.simFailsAt ∧
    (t.start = s.start ∨ (s.phase = .boundary ∧ s.due = none ∧ t.start = s.cur)) ∧
    (t.driver = s.driver ∨ ∃ r, t.out = s.out ++ [.emit r]) ∧
    (t.cur = s.cur ∨ (t.cur = s.cur + 1 ∧ (s.src.read s.cur).isSome ∧ t.out = s.out)) ∧
    (t.out = s.out ∨ ∃ e, t.out = s.out ++ [e])

/-- R62, R267, R72: a step depends on no byte from the position it ends at on, and on nothing before the
cursor. Two states that agree but for such bytes, and whose sources answer alike at that position, give
the same result. -/
def Obligations.StepDependsOnItsBytesOnly : Prop :=
  ∀ (s s' : State) (m : Memory), s.atBoundary = true → step s = .next s' →
    (∀ a, s.cur ≤ a → a < s'.cur → m.read a = s.src.read a) →
    (s'.phase = .boundary ∨ s'.phase = .halted (.fail .unsupportedOpcode) ∨
      s'.phase = .halted (.fail .unsupportedArithmeticOp) ∨ m.read s'.cur = s.src.read s'.cur) →
    step { s with src := m } = .next { s' with src := m }

/-! ## The byte-at-a-time machine -/

/-- R24, R25, R26: the whole decode call and the byte-at-a-time machine agree: from every state a step is the
ticks up to the next event. That the host's step is a whole decode call is log 2. -/
def Obligations.StepIsTheTicksToTheNextEvent : Prop :=
  ∀ (s : State), step s = finishCall maxTicks s

/-- R22, R24, R268: a decode call from a boundary takes 2 to 7 ticks, one more than the bytes it reads where it
emits a record; exactly one event goes out, at the last. That an error's event is a tick of its own is log
3. -/
def Obligations.TicksOfADecodeCall : Prop :=
  ∀ (s s' : State), s.atBoundary = true → step s = .next s' →
    (∃ e, s'.out = s.out ++ [e]) ∧
    ∃ k, 2 ≤ k ∧ k ≤ 7 ∧ tickRun k s = .next s' ∧
      (s'.phase = .boundary → k = s'.cur - s.cur + 1) ∧
      ∀ j, j < k → ∃ m, tickRun j s = .next m ∧ m.out = s.out

/-- R31 to R39, R46 with R26: when all bytes of an instruction have been read the phase is Format and the
context holds exactly the fields its class writes (`contextOf`), and before that the phase is not Format.
The fields dispLo and immLo are log 4. -/
def Obligations.ContextWhenFormatting : Prop :=
  ∀ (s : State) (i : Instr), s.atBoundary = true → WellFormed s.params i →
    s.Holds (encode i) →
    (∃ m, tickRun (instrLength i) s = .next m ∧ m.phase = .format ∧ m.due = none ∧
      m.cur = s.cur + instrLength i ∧ m.start = s.cur ∧ m.out = s.out ∧ m.ctx = contextOf s.params i) ∧
    ∀ j, j < instrLength i → ∃ m, tickRun j s = .next m ∧ m.phase ≠ .format ∧ m.out = s.out

/-- R30: within a decode call no context field is written twice. -/
def Obligations.ContextFieldsAreWrittenOnce : Prop :=
  ∀ (s t : State), Inv s → tick s = .next t → t.out = s.out → s.ctx.extendedBy t.ctx = true

/-- R47: no rule reads an unwritten field: in every state of the invariant a tick stops only when the run is
over. -/
def Obligations.NoUnwrittenFieldIsRead : Prop :=
  ∀ (s : State), Inv s → s.driver.aborted = false → s.phase.status = .running → ∃ t, tick s = .next t

/-! ## Invariants -/

/-- Every step keeps the invariant. -/
def Obligations.StepKeepsTheInvariant : Prop :=
  ∀ (s t : State), Inv s → step s = .next t → Inv t

/-- Every tick keeps the invariant. -/
def Obligations.TickKeepsTheInvariant : Prop :=
  ∀ (s t : State), Inv s → tick s = .next t → Inv t

/-- A running decoder always takes its step. -/
def Obligations.RunningDecoderSteps : Prop :=
  ∀ (s : State), Inv s → s.driver.aborted = false → s.phase.status = .running → ∃ t, step s = .next t

/-! ## Whole runs -/

/-- R268, R265: a run over a finite stream with `n` bytes left ends within `n + 1` decode calls. The driver's
end is log 8. -/
def Obligations.RunEndsWithinBytesPlusOneCalls : Prop :=
  ∀ (s : State), Inv s → s.atBoundary = true → s.src.tail = .ends →
    ∃ (k : Nat) (t : State), k ≤ s.src.length - s.cur + 1 ∧ Sys2Proof.core.run k s = .next t ∧
      ((∃ h, t.phase = .halted h) ∨ t.driver.aborted = true)

/-- R70, R53, R265: a stream that is the encodings of well-formed instructions one after another gives their
records in stream order, one decode call each, and then `Done`. -/
def Obligations.RunEmitsTheRecordsInOrder : Prop :=
  ∀ (is : List Instr) (s : State), s.atBoundary = true → s.srcEnd = .clean →
    s.driver.executing = false → (∀ i ∈ is, WellFormed s.params i) →
    s.HoldsOnly (is.flatMap encode) →
    ∃ (t : State) (rs : List Record), Sys2Proof.core.run (is.length + 1) s = .next t ∧ t.phase = .halted .done ∧
      t.cur = s.cur + (is.flatMap encode).length ∧ t.out = s.out ++ rs.map Event.emit ++ [.done] ∧
      rs.length = is.length ∧
      ∀ (n : Nat) (i : Instr) (r : Record), is[n]? = some i → rs[n]? = some r →
        ∀ u : State, u.atBoundary = true → u.HasBytes (instrLength i) →
          exec i u = .next (u.emitted (instrLength i) r)

/-- R265: a stream that never ends and never fails. After any number of decode calls the run goes on, a record
for each, unless a byte of it was an unsupported opcode or sub-opcode or the driver ended the run (log 8);
it never ends as a finite stream's does. How an endless stream stands in State is log 7. -/
def Obligations.EndlessStreamNeverRunsOut : Prop :=
  ∀ (s : State), Inv s → s.atBoundary = true → s.src.tail ≠ .ends → ∀ n : Nat,
    (∃ t, Sys2Proof.core.run n s = .next t ∧ t.phase = .boundary ∧ t.driver.aborted = false ∧
      (recordsOf t.out).length = (recordsOf s.out).length + n) ∨
    (∃ k t, k ≤ n ∧ Sys2Proof.core.run k s = .next t ∧
      (t.phase = .halted (.fail .unsupportedOpcode) ∨ t.phase = .halted (.fail .unsupportedArithmeticOp) ∨
        t.driver.aborted = true))

/-- R265: a stream that goes on for ever with the encodings of well-formed instructions gives a run that never
ends: whatever the number of decode calls, each emits a record and the next can begin. -/
def Obligations.EndlessCodeRunsForEver : Prop :=
  ∀ (s : State), s.atBoundary = true → (s.driver.executing = false ∨ s.driver.simFailsAt = none) →
    (∀ n : Nat, ∃ is : List Instr, is.length = n ∧ (∀ i ∈ is, WellFormed s.params i) ∧
      s.Holds (is.flatMap encode)) →
    ∀ n : Nat, ∃ t, Sys2Proof.core.run n s = .next t ∧ t.atBoundary = true ∧
      (recordsOf t.out).length = (recordsOf s.out).length + n

/-! ## Output -/

/-- R108, R263, R239: in non-executing mode the text starts with the header line; a step that emits a record
adds its line, mnemonic, space and operands separated by a comma and a space, and a line feed; a step
that ends the run adds nothing. The first clause rests on the reset value of the mode, log 8's choice. -/
def Obligations.PrintedTextGrowsByLines : Prop :=
  printedText State.reset = "bits 16\n" ∧
  ∀ (s t : State), s.driver.executing = false → s.atBoundary = true → step s = .next t →
    (∃ h, t.phase = .halted h ∧ printedText t = printedText s) ∨
    (∃ m a b, t.out = s.out ++ [.emit ⟨m, [a, b]⟩] ∧
      printedText t = printedText s ++ (m ++ " " ++ a ++ ", " ++ b ++ "\n")) ∨
    (∃ m a, t.out = s.out ++ [.emit ⟨m, [a]⟩] ∧ printedText t = printedText s ++ (m ++ " " ++ a ++ "\n"))

/-- R111, R265: in executing mode nothing is printed, each emitted record is one `execute` call, and the
render is asked for exactly after `Done`. That a call is made in the step that emits its record, and that the
calls are views of the events, is log 8's choice. -/
def Obligations.ExecutingModeHandsRecordsOver : Prop :=
  ∀ (s t : State), s.driver.executing = true → s.atBoundary = true → step s = .next t →
    printedText t = "" ∧
    ((∃ r, t.out = s.out ++ [.emit r] ∧ simCalls t = simCalls s ++ [.execute r]) ∨
     (t.phase = .halted .done ∧ simCalls t = simCalls s ++ [.renderFinalState]) ∨
     (∃ k, t.phase = .halted (.fail k) ∧ simCalls t = simCalls s))
end

