-- ==== Sys2Proof/Laws/Decode.lean ====
section
/-! SUPPORT. The pieces of decoding and encoding: bit fields of the bytes an encoder makes, the r/m operand and
the immediate read back, and the class of every opcode byte. -/

namespace Sys2Proof

/-! ## Bit fields -/

@[simp] theorem modField_addrByte : ∀ (m : BitVec 2) (a b : BitVec 3), modField (addrByte m a b) = m := by
  decide

@[simp] theorem midField_addrByte : ∀ (m : BitVec 2) (a b : BitVec 3), midField (addrByte m a b) = a := by
  decide

@[simp] theorem rmField_addrByte : ∀ (m : BitVec 2) (a b : BitVec 3), rmField (addrByte m a b) = b := by
  decide

/-- An addressing byte is its three fields. -/
theorem addrByte_fields : ∀ b : Byte, addrByte (modField b) (midField b) (rmField b) = b := by decide

/-- The value of two bytes, low byte first (R64). -/
theorem toNat_joinLE (lo hi : Byte) : (joinLE lo hi).toNat = lo.toNat + 256 * hi.toNat := by
  have := lo.isLt
  simp only [joinLE, BitVec.toNat_append]
  rw [← Nat.shiftLeft_add_eq_or_of_lt this, Nat.shiftLeft_eq]
  omega

theorem toNat_loByte (v : Word) : (loByte v).toNat = v.toNat % 256 := by simp [loByte]

theorem toNat_hiByte (v : Word) : (hiByte v).toNat = v.toNat / 256 := by
  have := v.isLt
  simp [hiByte, Nat.shiftRight_eq_div_pow]
  omega

@[simp] theorem joinLE_lo_hi (v : Word) : joinLE (loByte v) (hiByte v) = v := by
  apply BitVec.eq_of_toNat_eq
  rw [toNat_joinLE, toNat_loByte, toNat_hiByte]
  omega

@[simp] theorem loByte_joinLE (lo hi : Byte) : loByte (joinLE lo hi) = lo := by
  apply BitVec.eq_of_toNat_eq
  have := lo.isLt
  rw [toNat_loByte, toNat_joinLE]
  omega

@[simp] theorem hiByte_joinLE (lo hi : Byte) : hiByte (joinLE lo hi) = hi := by
  apply BitVec.eq_of_toNat_eq
  have := lo.isLt
  rw [toNat_hiByte, toNat_joinLE]
  omega

@[simp] theorem toNat_zext16 (b : Byte) : (zext16 b).toNat = b.toNat := by
  have := b.isLt
  simp [zext16]; omega

/-- The value of a sign-extended byte (R135). -/
theorem toNat_sext16 : ∀ b : Byte, (sext16 b).toNat = if b.toNat < 128 then b.toNat else b.toNat + 65280 := by
  decide

/-- `sint_8` is the two's complement reading (R11). -/
theorem sint8_eq_toInt : ∀ b : Byte, sint8 b = b.toInt := by decide

@[simp] theorem midField_lowField_arithImmRm : ∀ low : BitVec 2, lowField (arithImmRmOpcode low) = low := by
  decide

/-! ## Lengths -/

@[simp] theorem Rm.length_dispBytes (rm : Rm) : rm.dispBytes.length = rm.dispLen := by cases rm <;> rfl

@[simp] theorem Imm.length_bytes (imm : Imm) : imm.bytes.length = imm.len := by cases imm <;> rfl

theorem Rm.dispLen_le (rm : Rm) : rm.dispLen ≤ 2 := by cases rm <;> simp [Rm.dispLen]

theorem Imm.len_le (imm : Imm) : 1 ≤ imm.len ∧ imm.len ≤ 2 := by cases imm <;> simp [Imm.len]

/-! ## The r/m operand -/

/-- The mode of an operand's own fields. -/
theorem addrMode_of_rm (rm : Rm) (h : rm.wf = true) :
    addrMode rm.mod rm.code = match rm with
      | .reg _ => .register
      | .direct _ => .direct
      | .mem _ => .memory
      | .mem8 _ _ => .memoryDisp8
      | .mem16 _ _ => .memoryDisp16 := by
  cases rm with
  | mem rm => revert h; simp only [Rm.wf, Rm.mod, Rm.code]; revert rm; decide
  | _ => simp [addrMode, Rm.mod, Rm.code]

/-- Reading back an operand's displacement. -/
theorem readRm_dispBytes (rm : Rm) (h : rm.wf = true) (rest : List Byte) :
    readRm rm.mod rm.code (rm.dispBytes ++ rest) = some (rm, rest) := by
  have hm := addrMode_of_rm rm h
  cases rm <;> simp only at hm <;> unfold readRm <;> rw [hm] <;> simp [Rm.dispBytes, Rm.code]

/-- The r/m operand that was read is well-formed, has the fields it was read by, and its displacement bytes are
those consumed. -/
theorem readRm_eq_some {m : BitVec 2} {r : BitVec 3} {bs rest : List Byte} {rm : Rm}
    (h : readRm m r bs = some (rm, rest)) :
    rm.wf = true ∧ rm.mod = m ∧ rm.code = r ∧ bs = rm.dispBytes ++ rest := by
  have key : ∀ (m : BitVec 2) (r : BitVec 3),
      (addrMode m r = .register → m = 0b11) ∧ (addrMode m r = .direct → m = 0b00 ∧ r = 0b110) ∧
      (addrMode m r = .memory → m = 0b00 ∧ r ≠ 0b110) ∧ (addrMode m r = .memoryDisp8 → m = 0b01) ∧
      (addrMode m r = .memoryDisp16 → m = 0b10) := by decide
  obtain ⟨k1, k2, k3, k4, k5⟩ := key m r
  unfold readRm at h
  split at h <;> rename_i hm <;> cases h
  · exact ⟨rfl, (k1 hm).symm, rfl, rfl⟩
  · exact ⟨rfl, (k2 hm).1.symm, (k2 hm).2.symm, by simp [Rm.dispBytes]⟩
  · exact ⟨by simpa [Rm.wf] using (k3 hm).2, (k3 hm).1.symm, rfl, rfl⟩
  · exact ⟨rfl, (k4 hm).symm, rfl, rfl⟩
  · exact ⟨rfl, (k5 hm).symm, rfl, by simp [Rm.dispBytes]⟩

/-- Bytes after the operand do not matter. -/
theorem readRm_append {m : BitVec 2} {r : BitVec 3} {bs rest : List Byte} {rm : Rm}
    (h : readRm m r bs = some (rm, rest)) (extra : List Byte) :
    readRm m r (bs ++ extra) = some (rm, rest ++ extra) := by
  obtain ⟨h1, rfl, rfl, rfl⟩ := readRm_eq_some h
  rw [List.append_assoc, readRm_dispBytes rm h1]

/-- The number of displacement bytes of a mode and a list long enough for it. -/
theorem readRm_isSome {m : BitVec 2} {r : BitVec 3} {bs : List Byte}
    (h : (addrMode m r).dispWidth.bytes ≤ bs.length) : (readRm m r bs).isSome = true := by
  unfold readRm
  cases hm : addrMode m r <;> simp only [hm, AddrMode.dispWidth, DispWidth.bytes] at h <;>
    match bs, h with
    | [], h => simp at h ⊢
    | [_], h => simp at h ⊢
    | _ :: _ :: _, _ => simp

/-! ## The immediate -/

/-- Reading back an immediate of the form that `w` and `s` select. -/
theorem readImm_bytes (imm : Imm) (s w : Bool) (h : imm.fits s w = true) (rest : List Byte) :
    readImm s w (imm.bytes ++ rest) = some (imm, rest) := by
  cases imm <;> cases s <;> cases w <;> simp [Imm.fits] at h <;> simp [readImm, Imm.bytes]

/-- The immediate that was read has the form that `w` and `s` select, and its bytes are those consumed. -/
theorem readImm_eq_some {s w : Bool} {bs rest : List Byte} {imm : Imm}
    (h : readImm s w bs = some (imm, rest)) : imm.fits s w = true ∧ bs = imm.bytes ++ rest := by
  unfold readImm at h
  split at h <;> cases h <;> simp [Imm.fits, Imm.bytes]

/-- The width of an immediate that fits. -/
theorem Imm.w_of_fits {imm : Imm} {s w : Bool} (h : imm.fits s w = true) : imm.w = w := by
  cases imm <;> cases s <;> cases w <;> simp_all [Imm.fits, Imm.w]

/-- An immediate without sign extension fits its own width. -/
theorem Imm.fits_of_full {imm : Imm} (h : imm.full = true) : imm.fits false imm.w = true := by
  cases imm <;> simp_all [Imm.fits, Imm.w, Imm.full]

theorem Imm.full_of_fits {imm : Imm} {w : Bool} (h : imm.fits false w = true) : imm.full = true := by
  cases imm <;> cases w <;> simp_all [Imm.fits, Imm.full]

/-- Bytes after the immediate do not matter. -/
theorem readImm_append {s w : Bool} {bs rest : List Byte} {imm : Imm}
    (h : readImm s w bs = some (imm, rest)) (extra : List Byte) :
    readImm s w (bs ++ extra) = some (imm, rest ++ extra) := by
  obtain ⟨h1, rfl⟩ := readImm_eq_some h
  rw [List.append_assoc, readImm_bytes imm s w h1]

/-! ## The classifier -/

/-- No variant has a byte that is no jump/loop opcode. -/
theorem jumpLookup_eq_none (p : Params) (b : Byte) (h : ∀ j : JumpOp, j.opcode ≠ b) : jumpLookup p b = none := by
  simp only [jumpLookup, List.find?_eq_none]
  intro j _
  simp [h j]

theorem JumpOp.opcode_injective : ∀ i j : JumpOp, i.opcode = j.opcode → i = j := by
  intro i j
  cases i <;> cases j <;> simp [JumpOp.opcode]

/-- The variant that the table gives has that byte and is in the table. -/
theorem jumpLookup_eq_some {p : Params} {b : Byte} {j : JumpOp} :
    jumpLookup p b = some j ↔ p.hasJump j = true ∧ j.opcode = b := by
  simp only [Params.hasJump, List.contains_iff_mem]
  constructor
  · intro h
    exact ⟨List.mem_of_find?_eq_some h, by simpa using List.find?_some h⟩
  · rintro ⟨hm, rfl⟩
    cases h : jumpLookup p j.opcode with
    | none =>
      simp only [jumpLookup, List.find?_eq_none] at h
      exact absurd (h j hm) (by simp)
    | some k =>
      have := List.find?_some h
      rw [JumpOp.opcode_injective k j (by simpa using this)]

theorem classify_jump {p : Params} {j : JumpOp} (h : p.hasJump j = true) :
    classify p j.opcode = .jumpOrLoop j := by
  simp [classify, jumpLookup_eq_some.2 ⟨h, rfl⟩]

theorem classify_movRegMem (p : Params) (d w : Bool) : classify p (movRegMemOpcode d w) = .movRegMem := by
  rw [classify, jumpLookup_eq_none p _ (by cases d <;> cases w <;> intro j <;> cases j <;> decide)]
  cases d <;> cases w <;> decide

theorem classify_arithRegMem (p : Params) (op : ArithOp) (d w : Bool) :
    classify p (arithRegMemOpcode op d w) = .arithRegMem := by
  rw [classify, jumpLookup_eq_none p _
    (by cases op <;> cases d <;> cases w <;> intro j <;> cases j <;> decide)]
  cases op <;> cases d <;> cases w <;> decide

theorem movImmReg_not_jump : ∀ (w : Bool) (reg : BitVec 3) (j : JumpOp), j.opcode ≠ movImmRegOpcode w reg := by
  intro w reg j
  cases w <;> cases j <;> revert reg <;> decide

theorem classify_movImmReg (p : Params) (w : Bool) (reg : BitVec 3) :
    classify p (movImmRegOpcode w reg) = .movImmReg := by
  rw [classify, jumpLookup_eq_none p _ (movImmReg_not_jump w reg)]
  cases w <;> revert reg <;> decide

theorem classify_arithImmAcc (p : Params) (op : ArithOp) (w : Bool) :
    classify p (arithImmAccOpcode op w) = .arithImmAcc := by
  rw [classify, jumpLookup_eq_none p _ (by cases op <;> cases w <;> intro j <;> cases j <;> decide)]
  cases op <;> cases w <;> decide

theorem classify_arithImmRm (p : Params) (low : BitVec 2) : classify p (arithImmRmOpcode low) = .arithImmRm := by
  rw [classify, jumpLookup_eq_none p _ (by intro j; cases j <;> revert low <;> decide)]
  revert low; decide

/-- A byte's class, when the table holds no variant for it. -/
theorem classify_of_not_jump (p : Params) (b : Byte) (h : ∀ j : JumpOp, j.opcode ≠ b) :
    classify p b = classifyMasked b := by
  simp [classify, jumpLookup_eq_none p b h]

/-! ## The fields of the opcode bytes -/

@[simp] theorem dBit_movRegMem (d w : Bool) : dBit (movRegMemOpcode d w) = d := by cases d <;> cases w <;> rfl

@[simp] theorem wBit_movRegMem (d w : Bool) : wBit (movRegMemOpcode d w) = w := by cases d <;> cases w <;> rfl

@[simp] theorem dBit_arithRegMem (op : ArithOp) (d w : Bool) : dBit (arithRegMemOpcode op d w) = d := by
  cases op <;> cases d <;> cases w <;> rfl

@[simp] theorem wBit_arithRegMem (op : ArithOp) (d w : Bool) : wBit (arithRegMemOpcode op d w) = w := by
  cases op <;> cases d <;> cases w <;> rfl

@[simp] theorem midField_arithRegMem (op : ArithOp) (d w : Bool) :
    midField (arithRegMemOpcode op d w) = op.code := by
  cases op <;> cases d <;> cases w <;> rfl

@[simp] theorem wBitImmReg_movImmReg : ∀ (w : Bool) (reg : BitVec 3), wBitImmReg (movImmRegOpcode w reg) = w := by
  decide

@[simp] theorem rmField_movImmReg : ∀ (w : Bool) (reg : BitVec 3), rmField (movImmRegOpcode w reg) = reg := by
  decide

@[simp] theorem wBit_arithImmAcc (op : ArithOp) (w : Bool) : wBit (arithImmAccOpcode op w) = w := by
  cases op <;> cases w <;> rfl

@[simp] theorem midField_arithImmAcc (op : ArithOp) (w : Bool) :
    midField (arithImmAccOpcode op w) = op.code := by
  cases op <;> cases w <;> rfl

@[simp] theorem arithOp_code (op : ArithOp) : arithOp op.code = some op := by cases op <;> rfl

theorem arithOp_eq_some : ∀ {x : BitVec 3} {op : ArithOp}, arithOp x = some op → op.code = x := by
  intro x op
  cases op <;> revert x <;> decide

/-- `s` of an encoded arith-imm-rm instruction is that of its operands. -/
theorem sOf_encode (sw : SwByte) (low : BitVec 2) (mid : BitVec 3) (rm : Rm) :
    sOf sw (arithImmRmOpcode low) (addrByte rm.mod mid rm.code) = sOfImmRm sw low rm := by
  have h1 : ∀ low : BitVec 2, (arithImmRmOpcode low).getLsbD 1 = low.getLsbD 1 := by decide
  have h2 : ∀ (m : BitVec 2) (a b : BitVec 3), (addrByte m a b).getLsbD 1 = b.getLsbD 1 := by decide
  cases sw
  · exact h2 _ _ _
  · exact h1 _

/-- `w` of an encoded arith-imm-rm instruction is that of its operands. -/
theorem wOf_encode (sw : SwByte) (low : BitVec 2) (mid : BitVec 3) (rm : Rm) :
    wOf sw (arithImmRmOpcode low) (addrByte rm.mod mid rm.code) = wOfImmRm sw low rm := by
  have h1 : ∀ low : BitVec 2, (arithImmRmOpcode low).getLsbD 0 = low.getLsbD 0 := by decide
  have h2 : ∀ (m : BitVec 2) (a b : BitVec 3), (addrByte m a b).getLsbD 0 = b.getLsbD 0 := by decide
  cases sw
  · exact h2 _ _ _
  · exact h1 _

/-! ## Opcode bytes of a class -/

/-- What a byte of each class is, as an encoder's opcode byte. -/
theorem opcode_of_class :
    ∀ b : Byte,
      (classifyMasked b = .movRegMem → b = movRegMemOpcode (dBit b) (wBit b)) ∧
      (classifyMasked b = .movImmReg → b = movImmRegOpcode (wBitImmReg b) (rmField b)) ∧
      (classifyMasked b = .arithImmRm → b = arithImmRmOpcode (lowField b)) ∧
      (classifyMasked b = .arithRegMem → ∀ op ∈ arithOp (midField b),
        b = arithRegMemOpcode op (dBit b) (wBit b)) ∧
      (classifyMasked b = .arithImmAcc → ∀ op ∈ arithOp (midField b),
        b = arithImmAccOpcode op (wBit b)) := by
  decide

/-- A class other than jump-or-loop is that of the masked rows. -/
theorem classifyMasked_of_classify {p : Params} {b : Byte} {c : OpClass} (h : classify p b = c)
    (hc : ∀ j, c ≠ .jumpOrLoop j) : classifyMasked b = c := by
  unfold classify at h
  split at h
  · rename_i j _
    exact absurd h.symm (hc j)
  · exact h

/-- The masked rows never give class jump-or-loop. -/
theorem classifyMasked_ne_jump : ∀ (b : Byte) (j : JumpOp), classifyMasked b ≠ .jumpOrLoop j := by
  intro b j h
  have key : ∀ b : Byte, classifyMasked b ∈
      [.movRegMem, .movImmReg, .arithImmRm, .arithRegMem, .arithImmAcc, .unsupported] := by decide
  have := key b
  rw [h] at this
  simp at this

/-- Class jump-or-loop is given by the table alone. -/
theorem classify_eq_jump {p : Params} {b : Byte} {j : JumpOp} :
    classify p b = .jumpOrLoop j ↔ p.hasJump j = true ∧ j.opcode = b := by
  rw [← jumpLookup_eq_some]
  unfold classify
  split
  · rename_i k hk; simp [hk]
  · rename_i hk; simp [hk, classifyMasked_ne_jump]

/-! ## The parts of the decoder -/

/-- Format MI after its opcode byte, on encoded operands (R94). -/
theorem decode_arithImmRm (p : Params) (low : BitVec 2) (rm : Rm) (imm : Imm) (op : ArithOp)
    (rest : List Byte) (h : immRmWf p low rm imm = true) :
    decode p (arithImmRmOpcode low :: (encodeRm op.code rm ++ imm.bytes) ++ rest) =
      .instr (.arithImmRm op low rm imm) rest := by
  simp only [immRmWf, Bool.and_eq_true] at h
  simp only [decode, List.cons_append, classify_arithImmRm, decodeImmRm, encodeRm]
  simp only [midField_addrByte, arithOp_code, modField_addrByte, rmField_addrByte, List.append_assoc,
    readRm_dispBytes rm h.1, sOf_encode, wOf_encode, readImm_bytes imm _ _ h.2, midField_lowField_arithImmRm]

/-- Format RM after its opcode byte, on encoded operands (R91). -/
theorem decodeRegMem_encodeRm (mk : Bool → Bool → BitVec 3 → Rm → Instr) (b1 : Byte) (reg : BitVec 3)
    (rm : Rm) (rest : List Byte) (h : rm.wf = true) :
    decodeRegMem mk b1 (encodeRm reg rm ++ rest) = .instr (mk (dBit b1) (wBit b1) reg rm) rest := by
  simp [decodeRegMem, encodeRm, readRm_dispBytes rm h]

/-- Formats IR and AI after their opcode byte, on an encoded immediate (R92, R93). -/
theorem decodeFullImm_bytes (mk : Imm → Instr) (imm : Imm) (rest : List Byte) (h : imm.full = true) :
    decodeFullImm mk imm.w (imm.bytes ++ rest) = .instr (mk imm) rest := by
  simp [decodeFullImm, readImm_bytes imm _ _ (Imm.fits_of_full h)]

/-- What format RM accepts after its opcode byte. -/
theorem decodeRegMem_inv {mk : Bool → Bool → BitVec 3 → Rm → Instr} {b1 : Byte}
    {bs rest : List Byte} {i : Instr} (h : decodeRegMem mk b1 bs = .instr i rest) :
    ∃ reg rm, rm.wf = true ∧ i = mk (dBit b1) (wBit b1) reg rm ∧ bs = encodeRm reg rm ++ rest := by
  unfold decodeRegMem at h
  split at h
  · cases h
  · rename_i b2 tl
    split at h
    · cases h
    · rename_i rm tl' hr
      cases h
      obtain ⟨h1, h2, h3, h4⟩ := readRm_eq_some hr
      refine ⟨_, rm, h1, rfl, ?_⟩
      rw [encodeRm, h2, h3, addrByte_fields, h4]; rfl

/-- What formats IR and AI accept after their opcode byte. -/
theorem decodeFullImm_inv {mk : Imm → Instr} {w : Bool} {bs rest : List Byte} {i : Instr}
    (h : decodeFullImm mk w bs = .instr i rest) :
    ∃ imm, imm.full = true ∧ imm.w = w ∧ i = mk imm ∧ bs = imm.bytes ++ rest := by
  unfold decodeFullImm at h
  split at h
  · cases h
  · rename_i imm tl hr
    cases h
    obtain ⟨h1, h2⟩ := readImm_eq_some hr
    exact ⟨imm, Imm.full_of_fits h1, Imm.w_of_fits h1, rfl, h2⟩

/-- What format MI accepts after its opcode byte. -/
theorem decodeImmRm_inv {p : Params} {b1 : Byte} {bs rest : List Byte} {i : Instr}
    (hb : b1 = arithImmRmOpcode (lowField b1)) (h : decodeImmRm p b1 bs = .instr i rest) :
    ∃ op rm imm, immRmWf p (lowField b1) rm imm = true ∧ i = .arithImmRm op (lowField b1) rm imm ∧
      bs = encodeRm op.code rm ++ imm.bytes ++ rest := by
  unfold decodeImmRm at h
  split at h
  · cases h
  · rename_i b2 tl
    split at h
    · cases h
    · rename_i op hop
      split at h
      · cases h
      · rename_i rm tl' hr
        split at h
        · cases h
        · rename_i imm tl'' hi
          cases h
          obtain ⟨h1, h2, h3, h4⟩ := readRm_eq_some hr
          obtain ⟨h5, h6⟩ := readImm_eq_some hi
          have hb2 : b2 = addrByte rm.mod op.code rm.code := by
            rw [h2, h3, arithOp_eq_some hop, addrByte_fields]
          refine ⟨op, rm, imm, ?_, rfl, ?_⟩
          · rw [hb, hb2, sOf_encode, wOf_encode] at h5
            simp [immRmWf, h1]
            simpa using h5
          · rw [encodeRm, ← hb2, h4, h6]; simp

theorem dispBytes_le_two (m : BitVec 2) (r : BitVec 3) : (addrMode m r).dispWidth.bytes ≤ 2 := by
  cases addrMode m r <;> decide

/-- Everything a rejection can be: an unsupported first byte, an invalid sub-opcode in the first or the second
byte, or bytes that end too soon. -/
theorem decode_reject_cases {p : Params} {bs rest : List Byte} {r : Reject} (h : decode p bs = .reject r rest) :
    (r = .unsupportedOpcode ∧ ∃ b1, bs = b1 :: rest ∧ classify p b1 = .unsupported) ∨
    (r = .unsupportedArithmeticOp ∧ ∃ b1, bs = b1 :: rest ∧
      (classify p b1 = .arithRegMem ∨ classify p b1 = .arithImmAcc) ∧ arithOp (midField b1) = none) ∨
    (r = .unsupportedArithmeticOp ∧ ∃ b1 b2, bs = b1 :: b2 :: rest ∧ classify p b1 = .arithImmRm ∧
      arithOp (midField b2) = none) ∨
    (r = .outOfBytes ∧ rest = [] ∧ bs.length < maxLength) := by
  have hread : ∀ (m r) (l : List Byte), readRm m r l = none → l.length < 2 := by
    intro m r l h
    by_contra hc
    have := readRm_isSome (m := m) (r := r) (bs := l) (Nat.le_trans (dispBytes_le_two m r) (by omega))
    simp [h] at this
  have hrimm : ∀ (s w) (l : List Byte), readImm s w l = none → l.length < 2 := by
    intro s w l h
    match l with
    | [] => simp
    | [_] => simp
    | a :: b :: l => cases s <;> cases w <;> simp [readImm] at h
  have hrg : ∀ mk b1 l, decodeRegMem mk b1 l = .reject r rest → r = .outOfBytes ∧ rest = [] ∧ l.length < 3 := by
    intro mk b1 l h; unfold decodeRegMem at h
    split at h
    · cases h; simp
    · split at h
      · rename_i hr; cases h; have := hread _ _ _ hr; simp; omega
      · cases h
  have hfl : ∀ mk w l, decodeFullImm mk w l = .reject r rest → r = .outOfBytes ∧ rest = [] ∧ l.length < 3 := by
    intro mk b1 l h; unfold decodeFullImm at h
    split at h
    · rename_i hr; cases h; have := hrimm _ _ _ hr; simp; omega
    · cases h
  unfold decode at h
  cases bs with
  | nil => simp only at h; cases h; simp [maxLength]
  | cons b1 tl =>
    simp only at h
    cases hc : classify p b1 with
    | unsupported => simp only [hc] at h; cases h; exact .inl ⟨rfl, b1, rfl, hc⟩
    | jumpOrLoop j =>
      simp only [hc] at h
      cases tl <;> simp only [decodeJump] at h <;> cases h; simp [maxLength]
    | movRegMem => simp only [hc] at h; obtain ⟨h1, h2, h3⟩ := hrg _ _ _ h; simp [h1, h2, maxLength]; omega
    | movImmReg => simp only [hc] at h; obtain ⟨h1, h2, h3⟩ := hfl _ _ _ h; simp [h1, h2, maxLength]; omega
    | arithRegMem =>
      simp only [hc] at h
      cases hop : arithOp (midField b1) with
      | none => simp only [hop] at h; cases h; exact .inr (.inl ⟨rfl, b1, rfl, .inl hc, hop⟩)
      | some op => simp only [hop] at h; obtain ⟨h1, h2, h3⟩ := hrg _ _ _ h; simp [h1, h2, maxLength]; omega
    | arithImmAcc =>
      simp only [hc] at h
      cases hop : arithOp (midField b1) with
      | none => simp only [hop] at h; cases h; exact .inr (.inl ⟨rfl, b1, rfl, .inr hc, hop⟩)
      | some op => simp only [hop] at h; obtain ⟨h1, h2, h3⟩ := hfl _ _ _ h; simp [h1, h2, maxLength]; omega
    | arithImmRm =>
      simp only [hc] at h
      cases tl with
      | nil => simp only [decodeImmRm] at h; cases h; simp [maxLength]
      | cons b2 tl =>
        simp only [decodeImmRm] at h
        cases hop : arithOp (midField b2) with
        | none => simp only [hop] at h; cases h; exact .inr (.inr (.inl ⟨rfl, b1, b2, rfl, hc, hop⟩))
        | some op =>
          simp only [hop] at h
          split at h
          · rename_i hr; cases h; have := hread _ _ _ hr; simp [maxLength]; omega
          · rename_i rm tl' hr
            have h4 := (readRm_eq_some hr).2.2.2
            have := rm.dispLen_le
            split at h
            · rename_i hr; cases h; have := hrimm _ _ _ hr; simp [maxLength, h4]; omega
            · cases h

/-- A sub-opcode outside the table of R174. -/
theorem arithOp_none : ∀ x : BitVec 3, x ∉ [0b000#3, 0b101#3, 0b111#3] → arithOp x = none := by decide

/-- The class of a byte that matches a masked row of R82. -/
theorem masked_class (p : Params) : ∀ b : Byte,
    (b &&& 0xC4 = 0x00 → classify p b = .arithRegMem) ∧ (b &&& 0xC6 = 0x04 → classify p b = .arithImmAcc) ∧
    (b &&& 0xFC = 0x80 → classify p b = .arithImmRm) ∧ (b &&& 0xFC = 0x88 → classify p b = .movRegMem) ∧
    (b &&& 0xF0 = 0xB0 → classify p b = .movImmReg) := by
  intro b
  have k1 : ∀ j : JumpOp, ¬ (j.opcode &&& 0xC4 = 0x00) ∧ ¬ (j.opcode &&& 0xC6 = 0x04) ∧
      ¬ (j.opcode &&& 0xFC = 0x80) ∧ ¬ (j.opcode &&& 0xFC = 0x88) ∧ ¬ (j.opcode &&& 0xF0 = 0xB0) := by
    intro j; cases j <;> decide
  have k2 : ∀ b : Byte,
      (b &&& 0xC4 = 0x00 → classifyMasked b = .arithRegMem) ∧
      (b &&& 0xC6 = 0x04 → classifyMasked b = .arithImmAcc) ∧
      (b &&& 0xFC = 0x80 → classifyMasked b = .arithImmRm) ∧
      (b &&& 0xFC = 0x88 → classifyMasked b = .movRegMem) ∧
      (b &&& 0xF0 = 0xB0 → classifyMasked b = .movImmReg) := by decide
  refine ⟨fun h => ?_, fun h => ?_, fun h => ?_, fun h => ?_, fun h => ?_⟩
  · rw [classify_of_not_jump p b (fun j hj => (k1 j).1 (hj ▸ h))]; exact (k2 b).1 h
  · rw [classify_of_not_jump p b (fun j hj => (k1 j).2.1 (hj ▸ h))]; exact (k2 b).2.1 h
  · rw [classify_of_not_jump p b (fun j hj => (k1 j).2.2.1 (hj ▸ h))]; exact (k2 b).2.2.1 h
  · rw [classify_of_not_jump p b (fun j hj => (k1 j).2.2.2.1 (hj ▸ h))]; exact (k2 b).2.2.2.1 h
  · rw [classify_of_not_jump p b (fun j hj => (k1 j).2.2.2.2 (hj ▸ h))]; exact (k2 b).2.2.2.2 h

end Sys2Proof
end

