-- ==== Sys2Proof/Laws/Memory.lean ====
section
/-! SUPPORT. The byte stream: what a read gives after a write, that writes keep the canonical form, and the
runs of bytes at a position. -/

namespace Sys2Proof.Machine

/-! ## Cells -/

theorem cellAt_insert_same (cs : List Host.Cell) (a : Nat) (b : Byte) : cellAt (insertCell cs a b) a = some b := by
  induction cs with
  | nil => simp [insertCell, cellAt]
  | cons c rest ih =>
    obtain ⟨k, c⟩ := c
    simp only [insertCell]
    split
    · simp [cellAt]
    · split
      · simp [cellAt]
      · rename_i h1 h2
        simp [cellAt, Ne.symm h2, ih]

theorem cellAt_insert_other (cs : List Host.Cell) (a x : Nat) (b : Byte) (h : x ≠ a) :
    cellAt (insertCell cs a b) x = cellAt cs x := by
  induction cs with
  | nil => simp [insertCell, cellAt, Ne.symm h]
  | cons c rest ih =>
    obtain ⟨k, c⟩ := c
    simp only [insertCell]
    split
    · simp [cellAt, Ne.symm h]
    · split
      · rename_i h2
        subst h2
        simp [cellAt, Ne.symm h]
      · simp [cellAt, ih]

theorem cellAt_drop_same (cs : List Host.Cell) (a : Nat) : cellAt (dropCell cs a) a = none := by
  induction cs with
  | nil => rfl
  | cons c rest ih =>
    simp only [dropCell, List.filter_cons] at *
    split
    · rename_i h
      have : c.1 ≠ a := by simpa using h
      simp [cellAt, this, ih]
    · exact ih

theorem cellAt_drop_other (cs : List Host.Cell) (a x : Nat) (h : x ≠ a) :
    cellAt (dropCell cs a) x = cellAt cs x := by
  induction cs with
  | nil => rfl
  | cons c rest ih =>
    simp only [dropCell, List.filter_cons] at *
    split
    · simp [cellAt, ih]
    · rename_i h'
      have : c.1 = a := by simpa using h'
      simp [cellAt, this, Ne.symm h, ih]

/-! ## Reads and writes -/

@[simp] theorem Memory.write_tail (m : Memory) (a : Nat) (b : Byte) : (m.write a b).tail = m.tail := rfl

theorem Memory.read_write_same (m : Memory) (a : Nat) (b : Byte) : (m.write a b).read a = some b := by
  simp only [Memory.read, Memory.write]
  split <;> rename_i h <;> split at h
  · rw [cellAt_drop_same] at h; cases h
  · rw [cellAt_insert_same] at h; simpa using h.symm
  · assumption
  · rw [cellAt_insert_same] at h; cases h

theorem Memory.read_write_other (m : Memory) (a x : Nat) (b : Byte) (h : x ≠ a) :
    (m.write a b).read x = m.read x := by
  simp only [Memory.read, Memory.write]
  by_cases hb : m.tail.byte a = some b
  · simp only [hb, if_true, cellAt_drop_other _ _ _ h]
  · simp only [hb, if_false, cellAt_insert_other _ _ _ _ h]

/-- A read below a run that was placed, or beyond it, is as before. -/
theorem Memory.read_place_other (bs : List Byte) :
    ∀ (m : Memory) (a x : Nat), x < a ∨ a + bs.length ≤ x → (m.place a bs).read x = m.read x := by
  induction bs with
  | nil => intro m a x _; rfl
  | cons b bs ih =>
    intro m a x h
    simp only [Memory.place, List.length_cons] at *
    rw [ih _ _ _ (by omega), Memory.read_write_other _ _ _ _ (by omega)]

/-- The run that was placed reads back. -/
theorem Memory.bytesFrom_place (bs : List Byte) :
    ∀ (m : Memory) (a : Nat), (m.place a bs).bytesFrom bs.length a = bs := by
  suffices h : ∀ (bs : List Byte) (m m' : Memory) (a : Nat),
      (∀ x, a ≤ x → x < a + bs.length → m'.read x = (m.place a bs).read x) →
      m'.bytesFrom bs.length a = bs from fun m a => h bs m _ a (fun _ _ _ => rfl)
  intro bs
  induction bs with
  | nil => intros; rfl
  | cons b bs ih =>
    intro m m' a h
    have h0 := h a (Nat.le_refl a) (by simp)
    rw [Memory.place, Memory.read_place_other _ _ _ _ (by omega), Memory.read_write_same] at h0
    simp only [List.length_cons, Memory.bytesFrom, h0]
    rw [ih (m.write a b) m' (a + 1)]
    intro x h1 h2
    exact h x (by omega) (by simp; omega)

/-! ## The canonical form -/

theorem gapless_insert :
    ∀ (cs : List Host.Cell) (n a : Nat) (b : Byte), n ≤ a → a ≤ n + cs.length → gapless n cs = true →
      gapless n (insertCell cs a b) = true ∧ a + 1 ≤ n + (insertCell cs a b).length := by
  intro cs
  induction cs with
  | nil =>
    intro n a b h1 h2 _
    have : a = n := by simp at h2; omega
    simp [insertCell, gapless, this]
  | cons c rest ih =>
    intro n a b h1 h2 h
    obtain ⟨k, c⟩ := c
    simp only [gapless, Bool.and_eq_true, beq_iff_eq] at h
    obtain ⟨rfl, h⟩ := h
    simp only [insertCell]
    rw [if_neg (by omega)]
    split
    · rename_i hk
      simp [gapless, hk, h]
    · have := ih (k + 1) a b (by omega) (by simp at h2; omega) h
      simp only [gapless, beq_self_eq_true, Bool.true_and, List.length_cons]
      exact ⟨this.1, by omega⟩

theorem rising_mono : ∀ (cs : List Host.Cell) (n n' : Nat), n' ≤ n → rising n cs = true → rising n' cs = true := by
  intro cs n n' h hr
  cases cs with
  | nil => rfl
  | cons c rest => simp [rising] at *; exact ⟨by omega, hr.2⟩

theorem rising_insert :
    ∀ (cs : List Host.Cell) (n a : Nat) (b : Byte), n ≤ a → rising n cs = true →
      rising n (insertCell cs a b) = true := by
  intro cs
  induction cs with
  | nil => intro n a b h _; simpa [insertCell, rising] using h
  | cons c rest ih =>
    intro n a b h hr
    obtain ⟨k, c⟩ := c
    simp only [rising, Bool.and_eq_true, decide_eq_true_eq] at hr
    simp only [insertCell]
    split
    · simp only [rising, Bool.and_eq_true, decide_eq_true_eq]; exact ⟨h, by omega, hr.2⟩
    · split
      · rename_i hk
        simp only [rising, Bool.and_eq_true, decide_eq_true_eq, hk]; exact hr
      · simp only [rising, Bool.and_eq_true, decide_eq_true_eq]
        exact ⟨hr.1, ih _ _ _ (by omega) hr.2⟩

theorem rising_drop (a : Nat) :
    ∀ (cs : List Host.Cell) (n : Nat), rising n cs = true → rising n (dropCell cs a) = true := by
  intro cs
  induction cs with
  | nil => intro n _; rfl
  | cons c rest ih =>
    intro n hr
    obtain ⟨k, c⟩ := c
    simp only [rising, Bool.and_eq_true, decide_eq_true_eq] at hr
    simp only [dropCell, List.filter_cons] at *
    split
    · simp only [rising, Bool.and_eq_true, decide_eq_true_eq]; exact ⟨hr.1, ih _ hr.2⟩
    · exact rising_mono _ _ _ (by omega) (ih _ hr.2)

/-- A listed cell after a listing is the new one or was listed. -/
theorem mem_insertCell (cs : List Host.Cell) (a : Nat) (b : Byte) (c : Host.Cell)
    (h : c ∈ insertCell cs a b) : c = (a, b) ∨ c ∈ cs := by
  induction cs with
  | nil => simpa [insertCell] using h
  | cons d rest ih =>
    obtain ⟨k, d⟩ := d
    simp only [insertCell] at h
    split at h
    · simpa using h
    · split at h
      · simp at h ⊢; tauto
      · simp at h ⊢; tauto

/-- A write keeps the canonical form; in a finite stream, a write within the stream or at its end. -/
theorem Memory.wf_write (m : Memory) (a : Nat) (b : Byte) (ha : m.tail = .ends → a ≤ m.length) (h : m.wf = true) :
    (m.write a b).wf = true := by
  obtain ⟨cs, tail⟩ := m
  have endless : ∀ tail : SrcTail, (rising 0 cs && cs.all (fun c => tail.byte c.1 != some c.2)) = true →
      (rising 0 (Memory.write ⟨cs, tail⟩ a b).cells &&
        (Memory.write ⟨cs, tail⟩ a b).cells.all (fun c => tail.byte c.1 != some c.2)) = true := by
    intro tail h
    simp only [Bool.and_eq_true, List.all_eq_true] at h ⊢
    simp only [Memory.write]
    split
    · exact ⟨rising_drop a _ _ h.1, fun c hc => h.2 c (List.mem_filter.1 hc).1⟩
    · rename_i hb
      refine ⟨rising_insert _ _ _ _ (Nat.zero_le a) h.1, fun c hc => ?_⟩
      rcases mem_insertCell _ _ _ _ hc with rfl | hc
      · simpa using hb
      · exact h.2 c hc
  cases tail with
  | ends => exact (gapless_insert cs 0 a b (Nat.zero_le a) (by simpa [Memory.length] using ha rfl) h).1
  | constant c => exact endless _ h
  | unbounded k => exact endless _ h

/-- A write at the end of a finite stream, or within it, leaves its position within the stream. -/
theorem Memory.length_write (m : Memory) (a : Nat) (b : Byte) (he : m.tail = .ends) (ha : a ≤ m.length)
    (h : m.wf = true) : a + 1 ≤ (m.write a b).length := by
  obtain ⟨cs, tail⟩ := m
  cases he
  simpa [Memory.length, Memory.write, SrcTail.byte] using
    (gapless_insert cs 0 a b (Nat.zero_le a) (by simpa [Memory.length] using ha) h).2

@[simp] theorem Memory.place_tail (bs : List Byte) : ∀ (m : Memory) (a : Nat), (m.place a bs).tail = m.tail := by
  induction bs with
  | nil => intros; rfl
  | cons b bs ih => intro m a; exact ih _ _

/-- Placing a run keeps the canonical form; in a finite stream, within the stream or at its end. -/
theorem Memory.wf_place (bs : List Byte) :
    ∀ (m : Memory) (a : Nat), (m.tail = .ends → a ≤ m.length) → m.wf = true → (m.place a bs).wf = true := by
  induction bs with
  | nil => intro m a _ h; exact h
  | cons b bs ih =>
    intro m a ha h
    exact ih _ _ (fun he => Memory.length_write m a b he (ha he) h) (Memory.wf_write m a b ha h)

theorem gapless_cellsOf (bs : List Byte) : ∀ n, gapless n (cellsOf n bs) = true := by
  induction bs with
  | nil => intro n; rfl
  | cons b bs ih => intro n; simp [cellsOf, gapless, ih]

/-- The stream of a list of bytes is in canonical form. -/
theorem Memory.wf_ofBytes (bs : List Byte) : (Memory.ofBytes bs).wf = true := gapless_cellsOf bs 0

theorem cellAt_gapless :
    ∀ (cs : List Host.Cell) (n a : Nat), gapless n cs = true →
      ((cellAt cs a).isSome = true ↔ n ≤ a ∧ a < n + cs.length) := by
  intro cs
  induction cs with
  | nil => intro n a _; simp [cellAt]
  | cons c rest ih =>
    intro n a h
    obtain ⟨k, c⟩ := c
    simp only [gapless, Bool.and_eq_true, beq_iff_eq] at h
    obtain ⟨rfl, h⟩ := h
    simp only [cellAt]
    split
    · rename_i hk; subst hk; simp
    · rename_i hk
      rw [ih _ a h]; simp; omega

/-- In a canonical finite stream the positions that hold a byte are those below its length. -/
theorem Memory.read_isSome_iff (m : Memory) (a : Nat) (he : m.tail = .ends) (h : m.wf = true) :
    (m.read a).isSome = true ↔ a < m.length := by
  obtain ⟨cs, tail⟩ := m
  cases he
  rw [Memory.read]
  have := cellAt_gapless cs 0 a h
  cases hc : cellAt cs a <;> simp [hc, SrcTail.byte, Memory.length] at * <;> omega

/-- An endless stream holds a byte at every position (R60, R265). -/
theorem Memory.read_endless (m : Memory) (a : Nat) (he : m.tail ≠ .ends) : (m.read a).isSome = true := by
  obtain ⟨cs, tail⟩ := m
  rw [Memory.read]
  cases cellAt cs a <;> cases tail <;> simp_all [SrcTail.byte]

/-! ## Runs of bytes -/

@[simp] theorem Memory.bytesFrom_zero (m : Memory) (a : Nat) : m.bytesFrom 0 a = [] := rfl

theorem Memory.bytesFrom_length_le (m : Memory) : ∀ (n a : Nat), (m.bytesFrom n a).length ≤ n := by
  intro n
  induction n with
  | zero => intro a; simp
  | succ n ih =>
    intro a
    simp only [Memory.bytesFrom]
    split
    · simp
    · simp; exact ih _

/-- A run is a byte and the run after it. -/
theorem Memory.bytesFrom_cons (m : Memory) (n a : Nat) (b : Byte) (bs : List Byte) :
    m.bytesFrom (n + 1) a = b :: bs ↔ m.read a = some b ∧ m.bytesFrom n (a + 1) = bs := by
  simp only [Memory.bytesFrom]
  split <;> rename_i h <;> simp [h]

/-- A run is empty where the stream holds no byte. -/
theorem Memory.bytesFrom_nil (m : Memory) (n a : Nat) : m.bytesFrom (n + 1) a = [] ↔ m.read a = none := by
  simp only [Memory.bytesFrom]
  split <;> rename_i h <;> simp [h]

/-- A shorter run is the beginning of a longer one. -/
theorem Memory.bytesFrom_take (m : Memory) :
    ∀ (k n a : Nat), k ≤ n → m.bytesFrom k a = (m.bytesFrom n a).take k := by
  intro k
  induction k with
  | zero => intro n a _; simp
  | succ k ih =>
    intro n a h
    obtain ⟨n, rfl⟩ : ∃ n', n = n' + 1 := ⟨n - 1, by omega⟩
    simp only [Memory.bytesFrom]
    split
    · rfl
    · simp [ih n (a + 1) (by omega)]

/-- A run shorter than asked for ends where the stream does. -/
theorem Memory.read_end_of_short (m : Memory) :
    ∀ (n a : Nat), (m.bytesFrom n a).length < n → m.read (a + (m.bytesFrom n a).length) = none := by
  intro n
  induction n with
  | zero => intro a h; simp at h
  | succ n ih =>
    intro a h
    simp only [Memory.bytesFrom] at *
    split
    · simpa
    · rename_i b hb
      rw [hb] at h
      have := ih (a + 1) (by simpa using h)
      rw [← this]; simp; congr 1; omega

/-- What stands at the cursor and then ends is the whole of every longer run. -/
theorem Memory.bytesFrom_of_ends (m : Memory) :
    ∀ (bs : List Byte) (n a : Nat), m.bytesFrom bs.length a = bs → m.read (a + bs.length) = none →
      bs.length ≤ n → m.bytesFrom n a = bs := by
  intro bs
  induction bs with
  | nil =>
    intro n a _ h _
    cases n with
    | zero => rfl
    | succ n => exact (Memory.bytesFrom_nil m n a).2 (by simpa using h)
  | cons b bs ih =>
    intro n a h he hn
    obtain ⟨n, rfl⟩ : ∃ n', n = n' + 1 := ⟨n - 1, by simp at hn; omega⟩
    obtain ⟨h1, h2⟩ := (Memory.bytesFrom_cons m _ a b bs).1 h
    refine (Memory.bytesFrom_cons m n a b bs).2 ⟨h1, ih n (a + 1) h2 ?_ (by simpa using hn)⟩
    rw [← he]; simp; congr 1; omega

/-- A run that stands at the cursor begins every longer run. -/
theorem Memory.bytesFrom_prefix (m : Memory) (bs : List Byte) (n a : Nat)
    (h : m.bytesFrom bs.length a = bs) (hn : bs.length ≤ n) :
    ∃ rest, m.bytesFrom n a = bs ++ rest := by
  have := Memory.bytesFrom_take m bs.length n a hn
  rw [h] at this
  exact ⟨(m.bytesFrom n a).drop bs.length, by
    conv_lhs => rw [← List.take_append_drop bs.length (m.bytesFrom n a), ← this]⟩

/-- What follows the beginning of a run is the run from there. -/
theorem Memory.bytesFrom_drop (m : Memory) (xs : List Byte) :
    ∀ (n a : Nat) (ys : List Byte), m.bytesFrom n a = xs ++ ys →
      ys = m.bytesFrom (n - xs.length) (a + xs.length) := by
  induction xs with
  | nil => intro n a ys h; simpa using h.symm
  | cons x xs ih =>
    intro n a ys h
    cases n with
    | zero => simp at h
    | succ n =>
      have := ih n (a+1) ys ((Memory.bytesFrom_cons ..).1 h).2
      rw [this]; simp; congr 1; omega

end Sys2Proof.Machine
end

