-- ==== Sys2Proof/Laws/State.lean ====
section
/-! SUPPORT. One lemma per field per update of the state, each true by rfl, so that no proof unfolds an
update. -/

namespace Sys2Proof.Machine

/-! ## beginCall -/

@[simp] theorem beginCall_params (s : State) : (beginCall s).params = s.params := rfl

@[simp] theorem beginCall_src (s : State) : (beginCall s).src = s.src := rfl

@[simp] theorem beginCall_srcEnd (s : State) : (beginCall s).srcEnd = s.srcEnd := rfl

@[simp] theorem beginCall_cur (s : State) : (beginCall s).cur = s.cur := rfl

@[simp] theorem beginCall_start (s : State) : (beginCall s).start = s.cur := rfl

@[simp] theorem beginCall_phase (s : State) : (beginCall s).phase = s.phase := rfl

@[simp] theorem beginCall_ctx (s : State) : (beginCall s).ctx = Ctx.unwritten := rfl

@[simp] theorem beginCall_due (s : State) : (beginCall s).due = s.due := rfl

@[simp] theorem beginCall_out (s : State) : (beginCall s).out = s.out := rfl

@[simp] theorem beginCall_driver (s : State) : (beginCall s).driver = s.driver := rfl

/-! ## emitRecord -/

@[simp] theorem emitRecord_params (r : Record) (s : State) : (emitRecord r s).params = s.params := rfl

@[simp] theorem emitRecord_src (r : Record) (s : State) : (emitRecord r s).src = s.src := rfl

@[simp] theorem emitRecord_srcEnd (r : Record) (s : State) : (emitRecord r s).srcEnd = s.srcEnd := rfl

@[simp] theorem emitRecord_cur (r : Record) (s : State) : (emitRecord r s).cur = s.cur := rfl

@[simp] theorem emitRecord_start (r : Record) (s : State) : (emitRecord r s).start = s.start := rfl

@[simp] theorem emitRecord_phase (r : Record) (s : State) : (emitRecord r s).phase = .boundary := rfl

@[simp] theorem emitRecord_ctx (r : Record) (s : State) : (emitRecord r s).ctx = Ctx.unwritten := rfl

@[simp] theorem emitRecord_due (r : Record) (s : State) : (emitRecord r s).due = s.due := rfl

@[simp] theorem emitRecord_out (r : Record) (s : State) : (emitRecord r s).out = s.out ++ [.emit r] := rfl

@[simp] theorem emitRecord_driver (r : Record) (s : State) : (emitRecord r s).driver = s.driver.handOff (recordsOf s.out).length := rfl

/-! ## terminate -/

@[simp] theorem terminate_params (h : Halt) (s : State) : (terminate h s).params = s.params := rfl

@[simp] theorem terminate_src (h : Halt) (s : State) : (terminate h s).src = s.src := rfl

@[simp] theorem terminate_srcEnd (h : Halt) (s : State) : (terminate h s).srcEnd = s.srcEnd := rfl

@[simp] theorem terminate_cur (h : Halt) (s : State) : (terminate h s).cur = s.cur := rfl

@[simp] theorem terminate_start (h : Halt) (s : State) : (terminate h s).start = s.start := rfl

@[simp] theorem terminate_phase (h : Halt) (s : State) : (terminate h s).phase = .halted h := rfl

@[simp] theorem terminate_ctx (h : Halt) (s : State) : (terminate h s).ctx = Ctx.unwritten := rfl

@[simp] theorem terminate_due (h : Halt) (s : State) : (terminate h s).due = none := rfl

@[simp] theorem terminate_out (h : Halt) (s : State) : (terminate h s).out = s.out ++ [h.event] := rfl

@[simp] theorem terminate_driver (h : Halt) (s : State) : (terminate h s).driver = s.driver := rfl

/-! ## raise -/

@[simp] theorem raise_params (k : ErrorKind) (s : State) : (raise k s).params = s.params := rfl

@[simp] theorem raise_src (k : ErrorKind) (s : State) : (raise k s).src = s.src := rfl

@[simp] theorem raise_srcEnd (k : ErrorKind) (s : State) : (raise k s).srcEnd = s.srcEnd := rfl

@[simp] theorem raise_cur (k : ErrorKind) (s : State) : (raise k s).cur = s.cur := rfl

@[simp] theorem raise_start (k : ErrorKind) (s : State) : (raise k s).start = s.start := rfl

@[simp] theorem raise_phase (k : ErrorKind) (s : State) : (raise k s).phase = .halted (.fail k) := rfl

@[simp] theorem raise_ctx (k : ErrorKind) (s : State) : (raise k s).ctx = Ctx.unwritten := rfl

@[simp] theorem raise_due (k : ErrorKind) (s : State) : (raise k s).due = none := rfl

@[simp] theorem raise_out (k : ErrorKind) (s : State) : (raise k s).out = s.out ++ [.fail k] := rfl

@[simp] theorem raise_driver (k : ErrorKind) (s : State) : (raise k s).driver = s.driver := rfl

/-! ## setDue -/

@[simp] theorem setDue_params (h : Halt) (s : State) : (setDue h s).params = s.params := rfl

@[simp] theorem setDue_src (h : Halt) (s : State) : (setDue h s).src = s.src := rfl

@[simp] theorem setDue_srcEnd (h : Halt) (s : State) : (setDue h s).srcEnd = s.srcEnd := rfl

@[simp] theorem setDue_cur (h : Halt) (s : State) : (setDue h s).cur = s.cur := rfl

@[simp] theorem setDue_start (h : Halt) (s : State) : (setDue h s).start = s.start := rfl

@[simp] theorem setDue_phase (h : Halt) (s : State) : (setDue h s).phase = s.phase := rfl

@[simp] theorem setDue_ctx (h : Halt) (s : State) : (setDue h s).ctx = s.ctx := rfl

@[simp] theorem setDue_due (h : Halt) (s : State) : (setDue h s).due = some h := rfl

@[simp] theorem setDue_out (h : Halt) (s : State) : (setDue h s).out = s.out := rfl

@[simp] theorem setDue_driver (h : Halt) (s : State) : (setDue h s).driver = s.driver := rfl

/-! ## emitted -/

@[simp] theorem emitted_params (n : Nat) (r : Record) (s : State) : (s.emitted n r).params = s.params := rfl

@[simp] theorem emitted_src (n : Nat) (r : Record) (s : State) : (s.emitted n r).src = s.src := rfl

@[simp] theorem emitted_srcEnd (n : Nat) (r : Record) (s : State) : (s.emitted n r).srcEnd = s.srcEnd := rfl

@[simp] theorem emitted_cur (n : Nat) (r : Record) (s : State) : (s.emitted n r).cur = s.cur + n := rfl

@[simp] theorem emitted_start (n : Nat) (r : Record) (s : State) : (s.emitted n r).start = s.cur := rfl

@[simp] theorem emitted_phase (n : Nat) (r : Record) (s : State) : (s.emitted n r).phase = .boundary := rfl

@[simp] theorem emitted_ctx (n : Nat) (r : Record) (s : State) : (s.emitted n r).ctx = Ctx.unwritten := rfl

@[simp] theorem emitted_due (n : Nat) (r : Record) (s : State) : (s.emitted n r).due = s.due := rfl

@[simp] theorem emitted_out (n : Nat) (r : Record) (s : State) : (s.emitted n r).out = s.out ++ [.emit r] := rfl

@[simp] theorem emitted_driver (n : Nat) (r : Record) (s : State) : (s.emitted n r).driver = s.driver.handOff (recordsOf s.out).length := rfl

/-! ## ended -/

@[simp] theorem ended_params (n : Nat) (h : Halt) (s : State) : (s.ended n h).params = s.params := rfl

@[simp] theorem ended_src (n : Nat) (h : Halt) (s : State) : (s.ended n h).src = s.src := rfl

@[simp] theorem ended_srcEnd (n : Nat) (h : Halt) (s : State) : (s.ended n h).srcEnd = s.srcEnd := rfl

@[simp] theorem ended_cur (n : Nat) (h : Halt) (s : State) : (s.ended n h).cur = s.cur + n := rfl

@[simp] theorem ended_start (n : Nat) (h : Halt) (s : State) : (s.ended n h).start = s.cur := rfl

@[simp] theorem ended_phase (n : Nat) (h : Halt) (s : State) : (s.ended n h).phase = .halted h := rfl

@[simp] theorem ended_ctx (n : Nat) (h : Halt) (s : State) : (s.ended n h).ctx = Ctx.unwritten := rfl

@[simp] theorem ended_due (n : Nat) (h : Halt) (s : State) : (s.ended n h).due = none := rfl

@[simp] theorem ended_out (n : Nat) (h : Halt) (s : State) : (s.ended n h).out = s.out ++ [h.event] := rfl

@[simp] theorem ended_driver (n : Nat) (h : Halt) (s : State) : (s.ended n h).driver = s.driver := rfl

/-! ## withFetchWord -/

@[simp] theorem withFetchWord_params (n w : Nat) (s : State) : (s.withFetchWord n w).params = s.params := rfl

@[simp] theorem withFetchWord_src (n w : Nat) (s : State) : (s.withFetchWord n w).src = s.src.place s.cur (tableBytes n w) := rfl

@[simp] theorem withFetchWord_srcEnd (n w : Nat) (s : State) : (s.withFetchWord n w).srcEnd = s.srcEnd := rfl

@[simp] theorem withFetchWord_cur (n w : Nat) (s : State) : (s.withFetchWord n w).cur = s.cur := rfl

@[simp] theorem withFetchWord_start (n w : Nat) (s : State) : (s.withFetchWord n w).start = s.start := rfl

@[simp] theorem withFetchWord_phase (n w : Nat) (s : State) : (s.withFetchWord n w).phase = s.phase := rfl

@[simp] theorem withFetchWord_ctx (n w : Nat) (s : State) : (s.withFetchWord n w).ctx = s.ctx := rfl

@[simp] theorem withFetchWord_due (n w : Nat) (s : State) : (s.withFetchWord n w).due = s.due := rfl

@[simp] theorem withFetchWord_out (n w : Nat) (s : State) : (s.withFetchWord n w).out = s.out := rfl

@[simp] theorem withFetchWord_driver (n w : Nat) (s : State) : (s.withFetchWord n w).driver = s.driver := rfl

/-! ## The driver -/

@[simp] theorem handOff_executing (dr : Driver) (n : Nat) : (dr.handOff n).executing = dr.executing := by
  unfold Driver.handOff; split <;> rfl

@[simp] theorem handOff_simFailsAt (dr : Driver) (n : Nat) : (dr.handOff n).simFailsAt = dr.simFailsAt := by
  unfold Driver.handOff; split <;> rfl

/-- The driver is aborted after a hand-off exactly when it was, or the simulator fails this record (R247). -/
theorem handOff_aborted (dr : Driver) (n : Nat) :
    (dr.handOff n).aborted = (dr.aborted || (dr.executing && dr.simFailsAt == some n)) := by
  unfold Driver.handOff
  split <;> rename_i h <;> simp [h]

/-! ## Records among events -/

@[simp] theorem recordsOf_nil : recordsOf [] = [] := rfl

@[simp] theorem recordsOf_append (xs ys : List Event) :
    recordsOf (xs ++ ys) = recordsOf xs ++ recordsOf ys := by
  induction xs with
  | nil => rfl
  | cons e xs ih => cases e <;> simp [recordsOf, ih]

@[simp] theorem recordsOf_emit (r : Record) : recordsOf [.emit r] = [r] := rfl

@[simp] theorem recordsOf_halt (h : Halt) : recordsOf [h.event] = [] := by cases h <;> rfl

@[simp] theorem recordsOf_map_emit (rs : List Record) : recordsOf (rs.map .emit) = rs := by
  induction rs with
  | nil => rfl
  | cons r rs ih => simp [recordsOf, ih]

end Sys2Proof.Machine
end

