-- ==== Sys2Proof/Laws/Ops.lean ====
section
/-! SUPPORT. What each shared operation can do: the read primitive, reads in a row, the start of a call, a whole
call with a record, and a call without one. -/

namespace Sys2Proof.Machine

/-! ## Reads -/

/-- `FetchByte` where a byte stands at the cursor. -/
theorem fetchByte_some {s : State} {b : Byte} (h : s.src.read s.cur = some b) :
    fetchByte s = (.byte b, { s with cur := s.cur + 1 }) := by
  simp [fetchByte, h]

/-- `FetchByte` at the stream's end leaves the state. -/
theorem fetchByte_none {s : State} (h : s.src.read s.cur = none) :
    (s.srcEnd = .clean ∧ fetchByte s = (.endOfStream, s)) ∨ (s.srcEnd = .error ∧ fetchByte s = (.err, s)) := by
  cases he : s.srcEnd <;> simp [fetchByte, h, he]

/-- Reads in a row where the stream has the bytes. -/
theorem fetchBytes_all :
    ∀ (n : Nat) (s : State), s.HasBytes n → fetchBytes n s = .all { s with cur := s.cur + n } := by
  intro n
  induction n with
  | zero => intro s _; rfl
  | succ n ih =>
    intro s h
    simp only [State.HasBytes, Memory.bytesFrom] at h
    split at h
    · simp at h
    · rename_i b hb
      have h' : State.HasBytes { s with cur := s.cur + 1 } n := by simpa using h
      simp only [fetchBytes, fetchByte_some hb, ih _ h']
      simp; omega

/-- Reads in a row where the stream ends after `k` bytes. -/
theorem fetchBytes_ended :
    ∀ (n k : Nat) (s : State), k < n → s.HasBytes k → s.src.read (s.cur + k) = none →
      fetchBytes n s =
        .ended (streamEndHalt { s with cur := s.cur + k }) { s with cur := s.cur + k } := by
  intro n
  induction n with
  | zero => intro k s h; omega
  | succ n ih =>
    intro k s hk h he
    cases k with
    | zero =>
      have he' : s.src.read s.cur = none := by simpa using he
      rcases fetchByte_none he' with ⟨-, hf⟩ | ⟨-, hf⟩ <;> simp only [fetchBytes, hf] <;> rfl
    | succ k =>
      simp only [State.HasBytes, Memory.bytesFrom] at h
      split at h
      · simp at h
      · rename_i b hb
        have h' : State.HasBytes { s with cur := s.cur + 1 } k := by simpa using h
        have e : s.cur + 1 + k = s.cur + (k + 1) := by omega
        simp only [fetchBytes, fetchByte_some hb]
        rw [ih k _ (by omega) h' (by simpa [e] using he)]
        simp [e]

/-- A stream has `n` more bytes, or ends after fewer. -/
theorem hasBytes_or_ends (s : State) (n : Nat) :
    s.HasBytes n ∨ ∃ k, k < n ∧ s.HasBytes k ∧ s.src.read (s.cur + k) = none := by
  have hle := Memory.bytesFrom_length_le s.src n s.cur
  by_cases h : (s.src.bytesFrom n s.cur).length = n
  · exact .inl h
  · refine .inr ⟨_, by omega, ?_, Memory.read_end_of_short s.src n s.cur (by omega)⟩
    simp only [State.HasBytes]
    rw [Memory.bytesFrom_take _ _ n _ hle, List.take_length]

/-- What stands at the cursor is as many bytes as it has. -/
theorem State.Holds.hasBytes {s : State} {bs : List Byte} (h : s.Holds bs) : s.HasBytes bs.length := by
  simp only [State.HasBytes, State.Holds] at *; rw [h]

/-- A beginning of what stands at the cursor stands there. -/
theorem State.HasBytes.mono {s : State} {n k : Nat} (h : s.HasBytes n) (hk : k ≤ n) : s.HasBytes k := by
  simp only [State.HasBytes] at *
  rw [Memory.bytesFrom_take s.src k n s.cur hk, List.length_take, h]
  omega

/-! ## When a call can begin -/

theorem atBoundary_iff (s : State) :
    s.atBoundary = true ↔ s.driver.aborted = false ∧ s.phase = .boundary ∧ s.due = none := by
  simp only [State.atBoundary, beq_iff_eq, callBlocked]
  cases s.driver.aborted <;> cases s.phase <;> simp

theorem callBlocked_of_atBoundary {s : State} (h : s.atBoundary = true) : callBlocked s = none := by
  simpa [State.atBoundary] using h

/-! ## A call with a record -/

/-- The call emits its record where the stream has its bytes. -/
theorem runCall_emits {s : State} {len : Nat} (r : Record) (hb : s.atBoundary = true) (h : s.HasBytes len) :
    runCall len r s = .next (s.emitted len r) := by
  have h' : State.HasBytes (beginCall s) len := h
  have hf := fetchBytes_all len (beginCall s) h'
  simp only [runCall, callBlocked_of_atBoundary hb, hf]
  rfl

/-- The end of the stream `k` bytes after the start of a call, as a halt (R232, R234, R235). -/
def endHalt (e : SrcEnd) (k : Nat) : Halt :=
  match e with
  | .error => .fail .sourceError
  | .clean => if k = 0 then .done else .fail .truncatedStream

theorem streamEndHalt_beginCall (s : State) (k : Nat) :
    streamEndHalt { beginCall s with cur := s.cur + k } = endHalt s.srcEnd k := by
  cases h : s.srcEnd <;> simp [streamEndHalt, endHalt, h]

/-- The call ends the run where the stream ends inside it. -/
theorem runCall_ends {s : State} {len k : Nat} (r : Record) (hb : s.atBoundary = true) (hk : k < len)
    (h : s.HasBytes k) (he : s.src.read (s.cur + k) = none) :
    runCall len r s = .next (s.ended k (endHalt s.srcEnd k)) := by
  have h' : State.HasBytes (beginCall s) k := h
  have hf := fetchBytes_ended len k (beginCall s) hk h' he
  have e : (beginCall s).cur = s.cur := rfl
  rw [e, streamEndHalt_beginCall] at hf
  simp only [runCall, callBlocked_of_atBoundary hb, hf]
  rfl

/-- Everything a call with a record can do when it answers a next state. -/
theorem runCall_cases {s t : State} {len : Nat} {r : Record} (h : runCall len r s = .next t) :
    s.atBoundary = true ∧
    ((s.HasBytes len ∧ t = s.emitted len r) ∨
     ∃ k, k < len ∧ s.HasBytes k ∧ s.src.read (s.cur + k) = none ∧
       t = s.ended k (endHalt s.srcEnd k)) := by
  have hb : s.atBoundary = true := by
    cases hc : callBlocked s with
    | none => simp [State.atBoundary, hc]
    | some f => simp [runCall, hc] at h
  refine ⟨hb, ?_⟩
  rcases hasBytes_or_ends s len with h1 | ⟨k, hk, h1, h2⟩
  · rw [runCall_emits r hb h1] at h
    cases h
    exact .inl ⟨h1, rfl⟩
  · rw [runCall_ends r hb hk h1 h2] at h
    cases h
    exact .inr ⟨k, hk, h1, h2, rfl⟩

/-! ## A call without a record -/

theorem rejectCall_unsupportedOpcode (n : Nat) (s : State) :
    rejectCall .unsupportedOpcode n s = s.ended n (.fail .unsupportedOpcode) := rfl

theorem rejectCall_unsupportedArithmeticOp (n : Nat) (s : State) :
    rejectCall .unsupportedArithmeticOp n s = s.ended n (.fail .unsupportedArithmeticOp) := rfl

theorem rejectCall_outOfBytes (n : Nat) (s : State) :
    rejectCall .outOfBytes n s = s.ended n (endHalt s.srcEnd n) := by
  simp only [rejectCall, streamEndHalt_beginCall]
  rfl

/-! ## Meanings -/

/-- Every meaning is one call with the instruction's length and a record of the shape of R50. -/
theorem exec_is_runCall (i : Instr) :
    ∃ r, recordShape r = true ∧ ∀ s, exec i s = runCall (instrLength i) r s := by
  cases i with
  | movRegMem d => exact ⟨_, by cases d <;> rfl, fun _ => rfl⟩
  | addRegMem d => exact ⟨_, by cases d <;> rfl, fun _ => rfl⟩
  | subRegMem d => exact ⟨_, by cases d <;> rfl, fun _ => rfl⟩
  | cmpRegMem d => exact ⟨_, by cases d <;> rfl, fun _ => rfl⟩
  | _ => exact ⟨_, by rfl, fun _ => rfl⟩

end Sys2Proof.Machine
end

