-- ==== Sys2Proof/Laws/PerInstr.lean ====
section
/-! SUPPORT. The family EncodedLength, one lemma per constructor: an instruction's bytes are as many as the
table of R104 says, 2 at least and 6 at most. -/

namespace Sys2Proof.Laws.EncodedLength

/-- The length of an instruction's encoding (30_encoding R104). -/
def Statement (i : Instr) : Prop :=
  (encode i).length = instrLength i ∧ 2 ≤ instrLength i ∧ instrLength i ≤ 6

/-- Format RM (R91). -/
theorem ofRm (rm : Rm) : 2 ≤ 2 + rm.dispLen ∧ 2 + rm.dispLen ≤ 6 := by
  have := rm.dispLen_le
  omega

/-- Format MI (R94). -/
theorem ofRmImm (rm : Rm) (imm : Imm) :
    2 ≤ 2 + rm.dispLen + imm.len ∧ 2 + rm.dispLen + imm.len ≤ 6 := by
  have := rm.dispLen_le
  have := imm.len_le
  omega

/-- Formats IR and AI (R92, R93). -/
theorem ofImm (imm : Imm) : 2 ≤ 1 + imm.len ∧ 1 + imm.len ≤ 6 := by
  have := imm.len_le
  omega

/-- Format J (R95). -/
theorem ofJump : 2 ≤ 2 ∧ 2 ≤ 6 := by decide

theorem movRegMem (d w : Bool) (reg : BitVec 3) (rm : Rm) : Statement (.movRegMem d w reg rm) :=
  ⟨by simp [encode, encodeRm, instrLength]; omega, ofRm rm⟩

theorem addRegMem (d w : Bool) (reg : BitVec 3) (rm : Rm) : Statement (.addRegMem d w reg rm) :=
  ⟨by simp [encode, encodeRm, instrLength]; omega, ofRm rm⟩

theorem subRegMem (d w : Bool) (reg : BitVec 3) (rm : Rm) : Statement (.subRegMem d w reg rm) :=
  ⟨by simp [encode, encodeRm, instrLength]; omega, ofRm rm⟩

theorem cmpRegMem (d w : Bool) (reg : BitVec 3) (rm : Rm) : Statement (.cmpRegMem d w reg rm) :=
  ⟨by simp [encode, encodeRm, instrLength]; omega, ofRm rm⟩

theorem movImmReg (reg : BitVec 3) (imm : Imm) : Statement (.movImmReg reg imm) :=
  ⟨by simp [encode, instrLength]; omega, ofImm imm⟩

theorem addImmRm (low : BitVec 2) (rm : Rm) (imm : Imm) : Statement (.addImmRm low rm imm) :=
  ⟨by simp [encode, encodeRm, instrLength]; omega, ofRmImm rm imm⟩

theorem subImmRm (low : BitVec 2) (rm : Rm) (imm : Imm) : Statement (.subImmRm low rm imm) :=
  ⟨by simp [encode, encodeRm, instrLength]; omega, ofRmImm rm imm⟩

theorem cmpImmRm (low : BitVec 2) (rm : Rm) (imm : Imm) : Statement (.cmpImmRm low rm imm) :=
  ⟨by simp [encode, encodeRm, instrLength]; omega, ofRmImm rm imm⟩

theorem addImmAcc (imm : Imm) : Statement (.addImmAcc imm) :=
  ⟨by simp [encode, instrLength]; omega, ofImm imm⟩

theorem subImmAcc (imm : Imm) : Statement (.subImmAcc imm) :=
  ⟨by simp [encode, instrLength]; omega, ofImm imm⟩

theorem cmpImmAcc (imm : Imm) : Statement (.cmpImmAcc imm) :=
  ⟨by simp [encode, instrLength]; omega, ofImm imm⟩

theorem jo (off : Byte) : Statement (.jo off) := ⟨rfl, ofJump⟩

theorem jno (off : Byte) : Statement (.jno off) := ⟨rfl, ofJump⟩

theorem jb (off : Byte) : Statement (.jb off) := ⟨rfl, ofJump⟩

theorem jnb (off : Byte) : Statement (.jnb off) := ⟨rfl, ofJump⟩

theorem je (off : Byte) : Statement (.je off) := ⟨rfl, ofJump⟩

theorem jne (off : Byte) : Statement (.jne off) := ⟨rfl, ofJump⟩

theorem jbe (off : Byte) : Statement (.jbe off) := ⟨rfl, ofJump⟩

theorem jnbe (off : Byte) : Statement (.jnbe off) := ⟨rfl, ofJump⟩

theorem js (off : Byte) : Statement (.js off) := ⟨rfl, ofJump⟩

theorem jns (off : Byte) : Statement (.jns off) := ⟨rfl, ofJump⟩

theorem jp (off : Byte) : Statement (.jp off) := ⟨rfl, ofJump⟩

theorem jnp (off : Byte) : Statement (.jnp off) := ⟨rfl, ofJump⟩

theorem jl (off : Byte) : Statement (.jl off) := ⟨rfl, ofJump⟩

theorem jnl (off : Byte) : Statement (.jnl off) := ⟨rfl, ofJump⟩

theorem jle (off : Byte) : Statement (.jle off) := ⟨rfl, ofJump⟩

theorem jnle (off : Byte) : Statement (.jnle off) := ⟨rfl, ofJump⟩

theorem loopnz (off : Byte) : Statement (.loopnz off) := ⟨rfl, ofJump⟩

theorem loopz (off : Byte) : Statement (.loopz off) := ⟨rfl, ofJump⟩

theorem loop (off : Byte) : Statement (.loop off) := ⟨rfl, ofJump⟩

theorem jcxz (off : Byte) : Statement (.jcxz off) := ⟨rfl, ofJump⟩

end Sys2Proof.Laws.EncodedLength
end

