-- ==== Sys2Proof/Laws/Tick.lean ====
section
/-! SUPPORT. What one tick of the byte-at-a-time machine can do (10_state R24, R26), said once. -/

namespace Sys2Proof.Machine

/-- What a tick that consumed a byte leaves: the cursor one further, a running phase, and a terminal event
only where the classifier or the sub-opcode check decided an error. -/
def Consumed (s t : State) : Prop :=
  ∃ start ctx phase due, t = { s with cur := s.cur + 1, start := start, ctx := ctx, phase := phase, due := due } ∧
    phase.status = .running ∧ (due = s.due ∨ ∃ k, due = some (.fail k)) ∧
    (s.phase = .boundary → start = s.cur) ∧ (s.phase ≠ .boundary → start = s.start)

/-! ## Reads -/

/-- A read inside an instruction that finds a byte. -/
theorem readInside_some {k : Byte → State → Ticked} {s : State} {b : Byte} (h : s.src.read s.cur = some b) :
    readInside k s = k b { s with cur := s.cur + 1 } := by
  simp only [readInside, fetchByte_some h]

/-- A read inside an instruction that finds none (R232, R234). -/
theorem readInside_none {k : Byte → State → Ticked} {s : State} (h : s.src.read s.cur = none) :
    readInside k s = .ok (setDue (endHalt s.srcEnd 1) s) := by
  simp only [readInside, fetchByte, h]
  cases s.srcEnd <;> rfl

/-- The first read of a call that finds a byte. -/
theorem tickBoundary_some {s : State} {b : Byte} (h : s.src.read s.cur = some b) :
    tickBoundary s = latchOpcode b { beginCall s with cur := s.cur + 1 } := by
  have h' : (beginCall s).src.read (beginCall s).cur = some b := h
  simp only [tickBoundary, fetchByte_some h']; rfl

/-- The first read of a call that finds none (R234, R235). -/
theorem tickBoundary_none {s : State} (h : s.src.read s.cur = none) :
    tickBoundary s = setDue (endHalt s.srcEnd 0) (beginCall s) := by
  have h' : (beginCall s).src.read (beginCall s).cur = none := h
  simp only [tickBoundary, fetchByte, h']
  have : (beginCall s).srcEnd = s.srcEnd := rfl
  rw [this]
  cases s.srcEnd <;> rfl

/-! ## What a tick can do -/

theorem afterDisp_status (c : OpClass) : (afterDisp c).status = .running := by cases c <;> rfl

theorem afterAddr_status (c : OpClass) (w : DispWidth) : (afterAddr c w).status = .running := by
  cases w <;> simp [afterAddr, afterDisp_status] <;> rfl

/-- The classifier keeps the phase running and decides nothing but an error. -/
theorem latchOpcode_consumed (b1 : Byte) (s : State) (hs : s.phase.status = .running) :
    ∃ ctx phase due, latchOpcode b1 s = { s with ctx := ctx, phase := phase, due := due } ∧
      phase.status = .running ∧ (due = s.due ∨ ∃ k, due = some (.fail k)) := by
  unfold latchOpcode
  simp only
  split
  · exact ⟨_, _, _, rfl, hs, .inr ⟨_, rfl⟩⟩
  · exact ⟨_, _, _, rfl, rfl, .inl rfl⟩
  · exact ⟨_, _, _, rfl, rfl, .inl rfl⟩
  · unfold checkSubop; split
    · exact ⟨_, _, _, rfl, rfl, .inl rfl⟩
    · exact ⟨_, _, _, rfl, hs, .inr ⟨_, rfl⟩⟩
  · exact ⟨_, _, _, rfl, rfl, .inl rfl⟩
  · unfold checkSubop; split
    · exact ⟨_, _, _, rfl, rfl, .inl rfl⟩
    · exact ⟨_, _, _, rfl, hs, .inr ⟨_, rfl⟩⟩
  · split
    · exact ⟨_, _, _, rfl, rfl, .inl rfl⟩
    · exact ⟨_, _, _, rfl, rfl, .inl rfl⟩

/-- A component that goes on has gone through each of its parts. -/
theorem except_bind_ok {α β : Type} {x : Except Fault α} {f : α → Except Fault β} {b : β} (h : (x >>= f) = .ok b) :
    ∃ a, x = .ok a ∧ f a = .ok b := by
  cases x with
  | error e => cases h
  | ok a => exact ⟨a, rfl, h⟩

/-- Everything the work of a phase can do: the stream has no byte and the end of the run is decided, a byte is
consumed, or the record goes out. -/
theorem tickPhase_cases {s t : State} (h : tickPhase s = .ok t) :
    (s.src.read s.cur = none ∧ s.phase ≠ .format ∧
       ((s.phase = .boundary ∧ t = setDue (endHalt s.srcEnd 0) (beginCall s)) ∨
        (s.phase ≠ .boundary ∧ t = setDue (endHalt s.srcEnd 1) s))) ∨
    (∃ b, s.src.read s.cur = some b ∧ s.phase ≠ .format ∧ Consumed s t) ∨
    (s.phase = .format ∧ ∃ r, formatRecord s.ctx = .ok r ∧ t = emitRecord r s) := by
  have key : ∀ (k : Byte → State → Ticked), s.phase ≠ .boundary → s.phase ≠ .format →
      (∀ b u, k b { s with cur := s.cur + 1 } = .ok u →
        ∃ ctx phase due, u = { s with cur := s.cur + 1, ctx := ctx, phase := phase, due := due } ∧
          phase.status = .running ∧ (due = s.due ∨ ∃ k, due = some (.fail k))) →
      readInside k s = .ok t →
    (s.src.read s.cur = none ∧ s.phase ≠ .format ∧
       ((s.phase = .boundary ∧ t = setDue (endHalt s.srcEnd 0) (beginCall s)) ∨
        (s.phase ≠ .boundary ∧ t = setDue (endHalt s.srcEnd 1) s))) ∨
    (∃ b, s.src.read s.cur = some b ∧ s.phase ≠ .format ∧ Consumed s t) ∨
    (s.phase = .format ∧ ∃ r, formatRecord s.ctx = .ok r ∧ t = emitRecord r s) := by
    intro k hb hf hk h
    cases hr : s.src.read s.cur with
    | none => rw [readInside_none hr] at h; cases h; exact .inl ⟨rfl, hf, .inr ⟨hb, rfl⟩⟩
    | some b =>
      rw [readInside_some hr] at h
      obtain ⟨c, p, d, rfl, hp, hq⟩ := hk b t h
      exact .inr (.inl ⟨b, rfl, hf, s.start, c, p, d, rfl, hp, hq, fun h => absurd h hb, fun _ => rfl⟩)
  unfold tickPhase at h
  split at h <;> rename_i hp
  · cases h
    cases hr : s.src.read s.cur with
    | none => exact .inl ⟨rfl, by simp [hp], .inl ⟨hp, tickBoundary_none hr⟩⟩
    | some b =>
      have hrun : (({ beginCall s with cur := s.cur + 1 } : State)).phase.status = .running := by
        show s.phase.status = _; rw [hp]; rfl
      obtain ⟨c, p, d, h1, h2, h3⟩ := latchOpcode_consumed b _ hrun
      refine .inr (.inl ⟨b, rfl, by simp [hp], s.cur, c, p, d, ?_, h2, h3, fun _ => rfl, fun h => absurd hp h⟩)
      rw [tickBoundary_some hr, h1]; rfl
  · unfold tickAddr at h
    split at h
    · cases h
    · rename_i c hc
      refine key _ (by simp [hp]) (by simp [hp]) (fun b u hu => ?_) h
      simp only [Except.ok.injEq] at hu
      subst hu
      split
      · unfold latchAddrImmRm checkSubop
        simp only
        split
        · exact ⟨_, _, _, rfl, afterAddr_status _ _, .inl rfl⟩
        · exact ⟨_, s.phase, _, rfl, by rw [hp]; rfl, .inr ⟨_, rfl⟩⟩
      · exact ⟨_, _, _, rfl, afterAddr_status _ _, .inl rfl⟩
  · unfold tickDispFirst at h
    obtain ⟨c, hc, h⟩ := except_bind_ok h
    obtain ⟨w, hw, h⟩ := except_bind_ok h
    split at h
    · cases h
    · exact key _ (by simp [hp]) (by simp [hp]) (fun b u hu => by cases hu; exact ⟨_, _, _, rfl, afterDisp_status _, .inl rfl⟩) h
    · exact key _ (by simp [hp]) (by simp [hp]) (fun b u hu => by cases hu; exact ⟨_, _, _, rfl, rfl, .inl rfl⟩) h
  · unfold tickDispSecond at h
    obtain ⟨c, hc, h⟩ := except_bind_ok h
    obtain ⟨lo, hlo, h⟩ := except_bind_ok h
    exact key _ (by simp [hp]) (by simp [hp]) (fun b u hu => by cases hu; exact ⟨_, _, _, rfl, afterDisp_status _, .inl rfl⟩) h
  · unfold tickImmFirst at h
    obtain ⟨w, hw, h⟩ := except_bind_ok h
    obtain ⟨sx, hsx, h⟩ := except_bind_ok h
    refine key _ (by simp [hp]) (by simp [hp]) (fun b u hu => ?_) h
    simp only [Except.ok.injEq] at hu
    subst hu
    split
    · exact ⟨_, _, _, rfl, rfl, .inl rfl⟩
    · split
      · exact ⟨_, _, _, rfl, rfl, .inl rfl⟩
      · exact ⟨_, _, _, rfl, rfl, .inl rfl⟩
  · unfold tickImmSecond at h
    obtain ⟨lo, hlo, h⟩ := except_bind_ok h
    exact key _ (by simp [hp]) (by simp [hp]) (fun b u hu => by cases hu; exact ⟨_, _, _, rfl, rfl, .inl rfl⟩) h
  · exact key _ (by simp [hp]) (by simp [hp]) (fun b u hu => by cases hu; exact ⟨_, _, _, rfl, rfl, .inl rfl⟩) h
  · unfold tickFormat at h
    obtain ⟨r, hr, h⟩ := except_bind_ok h
    cases h
    exact .inr (.inr ⟨hp, r, hr, rfl⟩)
  · cases h

/-- Everything a tick can do: only a running decoder takes one, and it delivers the terminal event that is due
or does the work of its phase. -/
theorem tick_cases {s t : State} (h : tick s = .next t) :
    s.driver.aborted = false ∧ s.phase.status = .running ∧
    ((∃ x, s.due = some x ∧ t = terminate x s) ∨ (s.due = none ∧ tickPhase s = .ok t)) := by
  unfold tick at h
  split at h
  · cases h
  · rename_i ha
    refine ⟨by simpa using ha, ?_⟩
    split at h
    · cases h
    · rename_i x hx h1
      cases h
      refine ⟨?_, .inl ⟨_, hx, rfl⟩⟩
      cases hp : s.phase <;> first | rfl | exact absurd hp (h1 _)
    · rename_i h1 hx
      split at h
      · rename_i u hu; cases h; refine ⟨?_, .inr ⟨h1, hu⟩⟩
        cases hp : s.phase <;> first | rfl | (simp [tickPhase, hp] at hu)
      · cases h
/-- A running decoder with a terminal event due delivers it. -/
theorem tick_due {s : State} {h : Halt} (ha : s.driver.aborted = false) (hr : s.phase.status = .running)
    (hd : s.due = some h) : tick s = .next (terminate h s) := by
  unfold tick
  rw [ha]
  cases hp : s.phase <;> simp [hd]
  rw [hp] at hr
  cases hr

/-- A decoder with nothing due does the work of its phase. -/
theorem tick_of_phase {s t : State} (ha : s.driver.aborted = false) (hd : s.due = none)
    (h : tickPhase s = .ok t) : tick s = .next t := by
  unfold tick
  rw [ha]
  cases hp : s.phase <;> simp [hd, h]
  simp [tickPhase, hp] at h

end Sys2Proof.Machine
end

