-- ==== Sys2Proof/Laws/Ready.lean ====
section
/-! SUPPORT. A context that is as its phase requires (Safety: `phaseReady`) stays so from tick to
tick, and no component reads a field that the call has not written (10_state R26, R30, R47). -/

namespace Sys2Proof.Machine

/-! ## Small lemmas -/

@[simp] theorem keeps_none {α} [DecidableEq α] (y : Option α) : keeps none y = true := by simp [keeps]
@[simp] theorem keeps_self {α} [DecidableEq α] (y : Option α) : keeps y y = true := by simp [keeps]
@[simp] theorem need_some {α} (f) (v : α) : need f (some v) = .ok v := rfl
@[simp] theorem except_ok_bind {α β : Type} (a : α) (f : α → Except Fault β) :
    ((Except.ok a : Except Fault α) >>= f) = f a := rfl

theorem extendedBy_refl (c : Ctx) : c.extendedBy c = true := by simp [Ctx.extendedBy]
theorem extendedBy_unwritten (c : Ctx) : Ctx.unwritten.extendedBy c = true := by
  simp [Ctx.extendedBy, Ctx.unwritten]

/-! ## Components keep a ready context ready -/

/-- A component turned context `c` into the context of `t`: the parameters stand, no written field changed,
and with no terminal event due the new context is as the new phase requires. -/
def KeepsReady (p : Params) (c : Ctx) (t : State) : Prop :=
  t.params = p ∧ c.extendedBy t.ctx = true ∧ (t.due = none → phaseReady p t.ctx t.phase = true)

/-- The classifier (R82 to R90). -/
theorem keepsReady_latchOpcode (b1 : Byte) (s : State) (hc : s.ctx = Ctx.unwritten) :
    KeepsReady s.params s.ctx (latchOpcode b1 s) := by
  unfold latchOpcode
  cases hcl : classify s.params b1 with
  | arithRegMem =>
    simp only [checkSubop]
    cases h : arithOp (midField b1) <;>
    simp [KeepsReady, hc, Ctx.extendedBy, phaseReady, opcodeWritten, subopWritten, classHasAddr,
        addrUnwritten, immUnwritten, Ctx.unwritten, h]
  | arithImmAcc =>
    simp only [checkSubop]
    cases h : arithOp (midField b1) <;>
    simp [KeepsReady, hc, Ctx.extendedBy, phaseReady, opcodeWritten, subopWritten, classHasFullImm,
        immDue, immUnwritten, Ctx.unwritten, h]
  | arithImmRm =>
    cases h : s.params.swByte <;>
    simp [KeepsReady, hc, Ctx.extendedBy, phaseReady, opcodeWritten, classHasAddr, addrUnwritten,
        immUnwritten, Ctx.unwritten, h]
  | _ =>
    simp [KeepsReady, hc, Ctx.extendedBy, phaseReady, opcodeWritten, classHasAddr, addrUnwritten,
        immUnwritten, Ctx.unwritten, classHasFullImm, immDue, classIsJump]

/-- The Addressing Byte Decoder (R120 to R128). -/
theorem keepsReady_addr (c : OpClass) (b2 : Byte) (s : State) (hcl : s.ctx.opClass = some c)
    (hd : s.due = none)
   (hr : phaseReady s.params s.ctx .needAddr = true) :
    KeepsReady s.params s.ctx
      (if c = .arithImmRm then latchAddrImmRm b2 s else latchAddrRegMem c b2 s) := by
  obtain ⟨p, src, se, cur, st, ph, ⟨oc, d, w, sx, md, rg, rm, so, mm, dr, dw, dv, dl, iv, iw, is, il, jm, ob⟩,
    due, out, drv⟩ := s
  simp only at hcl hd
  subst hcl hd
  have hm : ∀ (m : BitVec 2) (r : BitVec 3), (addrMode m r).dispWidth = .w0 ∨
      (addrMode m r).dispWidth = .w8 ∨ (addrMode m r).dispWidth = .w16 := by
    intro m r; cases addrMode m r <;> simp [AddrMode.dispWidth]
  cases c with
  | arithImmRm =>
    simp only [if_true, latchAddrImmRm, checkSubop, latchMode]
    obtain ⟨sw, jt⟩ := p
    simp [phaseReady, opcodeWritten, classHasAddr, addrUnwritten, immUnwritten] at hr
    cases h : arithOp (midField b2) <;> cases sw <;>
    rcases hm (modField b2) (rmField b2) with e | e | e <;>
    simp_all [KeepsReady, Ctx.extendedBy, phaseReady, opcodeWritten, subopWritten, classHasAddr,
        addrUnwritten, immUnwritten,
      afterAddr, afterDisp, immDue, addrWritten, modeWritten, dispRead, classHasFullImm]
  | movRegMem =>
    simp [phaseReady, opcodeWritten, classHasAddr, addrUnwritten, immUnwritten] at hr
    rcases hm (modField b2) (rmField b2) with e | e | e <;>
    simp_all [KeepsReady, Ctx.extendedBy, phaseReady, opcodeWritten, classHasAddr, immUnwritten,
      afterAddr, afterDisp, addrWritten, modeWritten, dispRead, latchAddrRegMem, latchMode, classIsJump]
  | arithRegMem =>
    simp [phaseReady, opcodeWritten, subopWritten, classHasAddr, addrUnwritten, immUnwritten] at hr
    rcases hm (modField b2) (rmField b2) with e | e | e <;>
    simp_all [KeepsReady, Ctx.extendedBy, phaseReady, opcodeWritten, subopWritten, classHasAddr,
        immUnwritten,
      afterAddr, afterDisp, addrWritten, modeWritten, dispRead, latchAddrRegMem, latchMode, classIsJump]
  | _ => simp [phaseReady, classHasAddr] at hr

/-- The work of a phase succeeds, and unless a record goes out it keeps the context ready. -/
def TickKeepsReady (s : State) : Prop :=
  ∃ t, tickPhase s = .ok t ∧ (t.out = s.out → KeepsReady s.params s.ctx t)

theorem keepsReady_setDue (s : State) (h) : KeepsReady s.params s.ctx (setDue h s) := by
  simp [KeepsReady, extendedBy_refl]

theorem tickKeepsReady_read {s : State} {k : Byte → State → Ticked} (hp : tickPhase s = readInside k s)
   (hk : ∀ b, s.src.read s.cur = some b → ∃ t, k b { s with cur := s.cur + 1 } = .ok t ∧
       KeepsReady s.params s.ctx t) : TickKeepsReady s := by
  unfold TickKeepsReady
  rw [hp]
  cases h : s.src.read s.cur with
  | none => rw [readInside_none h]; exact ⟨_, rfl, fun _ => keepsReady_setDue _ _⟩
  | some b => rw [readInside_some h]; obtain ⟨t, h1, h2⟩ := hk b h; exact ⟨t, h1, fun _ => h2⟩

theorem tickReady_boundary {s : State} (hp : s.phase = .boundary)
    (hr : phaseReady s.params s.ctx s.phase = true) : TickKeepsReady s := by
  rw [hp] at hr
  have hc : s.ctx = Ctx.unwritten := by simpa [phaseReady] using hr
  refine ⟨_, by simp only [tickPhase, hp]; rfl, fun _ => ?_⟩
  cases h : s.src.read s.cur with
  | none => rw [tickBoundary_none h, hc]; refine ⟨rfl, extendedBy_unwritten _, ?_⟩; simp
  | some b => rw [tickBoundary_some h, hc]; exact keepsReady_latchOpcode b _ rfl

theorem tickReady_addr {s : State} (hd : s.due = none) (hp : s.phase = .needAddr)
    (hr : phaseReady s.params s.ctx s.phase = true) : TickKeepsReady s := by
  rw [hp] at hr
  obtain ⟨c, hc⟩ : ∃ c, s.ctx.opClass = some c := by
    cases h : s.ctx.opClass with
    | none => simp [phaseReady, h, classHasAddr] at hr
    | some c => exact ⟨c, rfl⟩
  refine tickKeepsReady_read (k := fun b2 t => .ok
      (if c = .arithImmRm then latchAddrImmRm b2 t else latchAddrRegMem c b2 t))
    (by simp only [tickPhase, hp, tickAddr, hc, need_some]) (fun b hb => ⟨_, rfl, ?_⟩)
  exact keepsReady_addr c b { s with cur := s.cur + 1 } hc hd hr

/-- The widths of a displacement, and none. -/
theorem dispWidth_cases (x : Option DispWidth) : x = none ∨ x = some .w0 ∨ x = some .w8 ∨ x = some .w16 := by
  rcases x with _ | (_ | _ | _) <;> simp

theorem tickReady_dispFirst {s : State} (hd : s.due = none) (hp : s.phase = .needDisp .first)
    (hr : phaseReady s.params s.ctx s.phase = true) : TickKeepsReady s := by
  obtain ⟨p, src, se, cur, st, ph, ⟨oc, d, w, sx, md, rg, rm, so, mm, dr, dw, dv, dl, iv, iw, is, il, jm, ob⟩,
    due, out, drv⟩ := s
  simp only at hd hp
  subst hd hp
  simp [phaseReady] at hr
  obtain ⟨⟨⟨⟨⟨h1, h2⟩, h3⟩, h4⟩, h5⟩, h6⟩ := hr
  subst h3 h4 h6
  have hocs : ∃ c, oc = some c := by
    cases oc with
    | none => simp [addrWritten, classHasAddr] at h1
    | some c => exact ⟨c, rfl⟩
  obtain ⟨c, rfl⟩ := hocs
  have ha := h1
  simp [addrWritten] at h1
  rcases dispWidth_cases dw with rfl | rfl | rfl | rfl
  · simp [modeWritten] at h1; split at h1 <;> simp at h1
  · simp at h2
  · refine tickKeepsReady_read (by simp only [tickPhase, tickDispFirst, need_some, except_ok_bind]; rfl) ?_
    intro b hb; refine ⟨_, rfl, ?_⟩
    cases c <;> simp [classHasAddr] at h1 <;>
    simp_all [KeepsReady, Ctx.extendedBy, phaseReady, afterDisp, immDue, dispRead, classHasFullImm,
        addrWritten, modeWritten, immUnwritten, opcodeWritten, subopWritten, classHasAddr, classIsJump]
  · refine tickKeepsReady_read (by simp only [tickPhase, tickDispFirst, need_some, except_ok_bind]; rfl) ?_
    intro b hb; refine ⟨_, rfl, ?_⟩
    cases c <;> simp [classHasAddr] at h1 <;>
    simp_all [KeepsReady, Ctx.extendedBy, phaseReady, addrWritten, modeWritten, immUnwritten,
        opcodeWritten, subopWritten, classHasAddr]

theorem tickReady_dispSecond {s : State} (hd : s.due = none) (hp : s.phase = .needDisp .second)
    (hr : phaseReady s.params s.ctx s.phase = true) : TickKeepsReady s := by
  obtain ⟨p, src, se, cur, st, ph, ⟨oc, d, w, sx, md, rg, rm, so, mm, dr, dw, dv, dl, iv, iw, is, il, jm, ob⟩,
    due, out, drv⟩ := s
  simp only at hd hp
  subst hd hp
  simp [phaseReady] at hr
  obtain ⟨⟨⟨⟨⟨h1, h2⟩, h3⟩, h4⟩, h5⟩, h6⟩ := hr
  obtain ⟨lo, rfl⟩ := Option.isSome_iff_exists.1 h3
  subst h2 h4 h6
  have hocs : ∃ c, oc = some c := by
    cases oc with
    | none => simp [addrWritten, classHasAddr] at h1
    | some c => exact ⟨c, rfl⟩
  obtain ⟨c, rfl⟩ := hocs
  simp [addrWritten] at h1
  refine tickKeepsReady_read (by simp only [tickPhase, tickDispSecond, need_some, except_ok_bind]; rfl) ?_
  intro b hb; refine ⟨_, rfl, ?_⟩
  cases c <;> simp [classHasAddr] at h1 <;>
    simp_all [KeepsReady, Ctx.extendedBy, phaseReady, afterDisp, immDue, dispRead, classHasFullImm,
        addrWritten, modeWritten, immUnwritten, opcodeWritten, subopWritten, classHasAddr, classIsJump]

theorem tickReady_off {s : State} (hd : s.due = none) (hp : s.phase = .needOff)
    (hr : phaseReady s.params s.ctx s.phase = true) : TickKeepsReady s := by
  obtain ⟨p, src, se, cur, st, ph, ⟨oc, d, w, sx, md, rg, rm, so, mm, dr, dw, dv, dl, iv, iw, is, il, jm, ob⟩,
    due, out, drv⟩ := s
  simp only at hd hp
  subst hd hp
  simp [phaseReady] at hr
  obtain ⟨⟨h1, h2⟩, h3⟩ := hr
  subst h3
  refine tickKeepsReady_read (by simp only [tickPhase, tickOff]; rfl) ?_
  intro b hb; refine ⟨_, rfl, ?_⟩
  simp_all [KeepsReady, Ctx.extendedBy, phaseReady, opcodeWritten, classIsJump]
  rcases oc with _ | c
  · simp at h2
  · cases c <;> simp_all

/-- Where an immediate is due its class and width are written, and `s` for arith-imm-rm. -/
theorem immDue_w {p : Params} {c : Ctx} (h : immDue p c = true) :
    ∃ cl w, c.opClass = some cl ∧ c.w = some w ∧ (cl = .arithImmRm → c.s.isSome) ∧
      (cl = .movImmReg ∨ cl = .arithImmAcc ∨ cl = .arithImmRm) := by
  cases ho : c.opClass with
  | none => simp [immDue, ho, classHasFullImm] at h
  | some cl =>
    cases hw : c.w with
    | none => cases cl <;> simp [immDue, ho, classHasFullImm, hw, opcodeWritten, addrWritten] at h
    | some w =>
      refine ⟨cl, w, rfl, rfl, ?_, ?_⟩
      · rintro rfl; simp [immDue, ho, classHasFullImm, addrWritten] at h; simp [h]
      · cases cl <;> simp [immDue, ho, classHasFullImm] at h ⊢

/-- The immediate's own fields do not matter to its being due. -/
theorem immDue_imm {p : Params} {c c' : Ctx} (h : immDue p c = true)
    (e : c' = { c with
      immWidth := c'.immWidth, immValue := c'.immValue, immSext := c'.immSext, immLo := c'.immLo }) :
    immDue p c' = true := by
  rw [e]
  simpa [immDue, opcodeWritten, addrWritten, dispRead, modeWritten, subopWritten] using h

theorem tickReady_immFirst {s : State} (hd : s.due = none) (hp : s.phase = .needImm .first)
    (hr : phaseReady s.params s.ctx s.phase = true) : TickKeepsReady s := by
  rw [hp] at hr
  simp [phaseReady, immUnwritten] at hr
  obtain ⟨⟨h1, ⟨h2, h3⟩, h4⟩, h5⟩ := hr
  obtain ⟨cl, w, hcl, hw, hs, hcls⟩ := immDue_w h1
  have hsx : ∃ sx, sextWanted s.ctx = .ok sx := by
    unfold sextWanted
    rw [hcl, hw]
    simp only [need_some, except_ok_bind]
    split
    · rename_i hh
      simp at hh
      obtain ⟨v, hv⟩ := Option.isSome_iff_exists.1 (hs hh.2)
      exact ⟨v, by rw [hv]; rfl⟩
    · exact ⟨_, rfl⟩
  obtain ⟨sx, hsx⟩ := hsx
  refine tickKeepsReady_read
    (by simp only [tickPhase, hp, tickImmFirst, hw, hsx, need_some, except_ok_bind]; rfl) ?_
  intro b hb; refine ⟨_, rfl, ?_⟩
  have hnj : classIsJump s.ctx.opClass = false := by rw [hcl]; rcases hcls with rfl | rfl | rfl <;> rfl
  have hnr : ¬ (s.ctx.opClass = some .movRegMem ∨ s.ctx.opClass = some .arithRegMem) := by
    rw [hcl]; rcases hcls with rfl | rfl | rfl <;> simp
  cases w <;> cases sx <;>
    simp [KeepsReady, Ctx.extendedBy, phaseReady, hnj, hnr, h2, h3, h4, h5, immUnwritten, hd, hw,
        immDue_imm h1]

theorem tickReady_immSecond {s : State} (hd : s.due = none) (hp : s.phase = .needImm .second)
    (hr : phaseReady s.params s.ctx s.phase = true) : TickKeepsReady s := by
  rw [hp] at hr
  simp [phaseReady, immUnwritten] at hr
  obtain ⟨⟨⟨h1, hw⟩, h5⟩, ⟨h2, h3⟩, h4⟩ := hr
  obtain ⟨cl, w, hcl, hw, hs, hcls⟩ := immDue_w h1
  obtain ⟨lo, hlo⟩ := Option.isSome_iff_exists.1 h5
  refine tickKeepsReady_read
    (by simp only [tickPhase, hp, tickImmSecond, hlo, need_some, except_ok_bind]; rfl) ?_
  intro b hb; refine ⟨_, rfl, ?_⟩
  have hnj : classIsJump s.ctx.opClass = false := by rw [hcl]; rcases hcls with rfl | rfl | rfl <;> rfl
  have hnr : ¬ (s.ctx.opClass = some .movRegMem ∨ s.ctx.opClass = some .arithRegMem) := by
    rw [hcl]; rcases hcls with rfl | rfl | rfl <;> simp
  simp [KeepsReady, Ctx.extendedBy, phaseReady, hnj, hnr, h2, h3, h4, hd, hw, immDue_imm h1]

/-! ## The formatter -/

/-- `rm_arg` reads written fields only (R140). -/
theorem rmArgOf_ok {c : Ctx} {w : Bool} (hw : c.w = some w) (hm : modeWritten c = true)
    (hd : dispRead c = true) :
    ∃ a, rmArgOf c = .ok a := by
  unfold modeWritten at hm
  split at hm
  · rename_i m r hmod hrm
    simp at hm
    obtain ⟨⟨h1, h2⟩, h3⟩ := hm
    unfold rmArgOf
    simp only [h1, h2, h3, hrm, hw, need_some, except_ok_bind]
    unfold dispRead at hd
    cases hmode : addrMode m r <;> simp [hmode, memModeFlag, directFlag, AddrMode.dispWidth] at * <;>
    (try simp [h3] at hd; obtain ⟨v, hv⟩ := Option.isSome_iff_exists.1 hd; simp [hv])
  · cases hm

/-- A written, valid sub-opcode has its mnemonic (R174). -/
theorem arithMnemonicOf_ok {c : Ctx} (h : subopWritten c = true) :
    ∃ op : ArithOp, arithMnemonicOf c = .ok op.name := by
  unfold subopWritten at h
  split at h
  · rename_i x hx
    obtain ⟨op, ho⟩ := Option.isSome_iff_exists.1 h
    exact ⟨op, by simp [arithMnemonicOf, hx, ho]⟩
  · cases h

/-- A ready context gives a record of the shape of R50. -/
theorem formatRecord_ok {p : Params} {c : Ctx} (hr : phaseReady p c .format = true) :
    ∃ r, formatRecord c = .ok r ∧ recordShape r = true := by
  simp only [phaseReady] at hr
  have shape : ∀ (op : ArithOp) (a b : String), recordShape ⟨op.name, [a, b]⟩ = true := by
    intro op a b; cases op <;> rfl
  have ord : ∀ (d : Bool) (op : ArithOp) (a b : String),
      recordShape ⟨op.name, orderOperands d a b⟩ = true := by
    intro d op a b; cases op <;> cases d <;> rfl
  cases ho : c.opClass with
  | none => simp [ho, classIsJump, immDue, classHasFullImm] at hr
  | some cl =>
    cases cl with
    | unsupported => simp [ho, classIsJump, immDue, classHasFullImm] at hr
    | jumpOrLoop j =>
      simp [ho, classIsJump, opcodeWritten] at hr
      obtain ⟨h1, h2⟩ := hr
      obtain ⟨b, hb⟩ := Option.isSome_iff_exists.1 h2
      refine ⟨_, by simp [formatRecord, ho, formatJump, h1, hb]; rfl, ?_⟩
      cases j <;> rfl
    | movRegMem =>
      simp [ho, classIsJump, addrWritten, opcodeWritten] at hr
      obtain ⟨⟨⟨⟨⟨h1, h2⟩, h3⟩, h4⟩, h5⟩, h6⟩ := hr
      obtain ⟨d, hd⟩ := Option.isSome_iff_exists.1 h1
      obtain ⟨w, hw⟩ := Option.isSome_iff_exists.1 h2
      obtain ⟨rg, hrg⟩ := Option.isSome_iff_exists.1 h5
      obtain ⟨a, ha⟩ := rmArgOf_ok hw h4 h6
      refine ⟨_, by simp [formatRecord, ho, formatRegMem, hd, hw, hrg, ha]; rfl, ?_⟩
      cases d <;> rfl
    | arithRegMem =>
      simp [ho, classIsJump, addrWritten, opcodeWritten] at hr
      obtain ⟨⟨⟨⟨⟨⟨h1, h2⟩, h7⟩, h3⟩, h4⟩, h5⟩, h6⟩ := hr
      obtain ⟨d, hd⟩ := Option.isSome_iff_exists.1 h1
      obtain ⟨w, hw⟩ := Option.isSome_iff_exists.1 h2
      obtain ⟨rg, hrg⟩ := Option.isSome_iff_exists.1 h5
      obtain ⟨a, ha⟩ := rmArgOf_ok hw h4 h6
      obtain ⟨op, hop⟩ := arithMnemonicOf_ok h7
      refine ⟨⟨op.name, orderOperands d a (regname w rg)⟩, by simp [formatRecord, ho, formatRegMem, hd,
          hw, hrg, ha, hop], ord _ _ _ _⟩
    | movImmReg =>
      simp [ho, classIsJump, immDue, opcodeWritten, classHasFullImm] at hr
      obtain ⟨⟨⟨h1, h2⟩, h3⟩, h4⟩ := hr
      obtain ⟨w, hw⟩ := Option.isSome_iff_exists.1 h1
      obtain ⟨rg, hrg⟩ := Option.isSome_iff_exists.1 h2
      obtain ⟨v, hv⟩ := Option.isSome_iff_exists.1 h3
      exact ⟨_, by simp [formatRecord, ho, formatRegImm, hw, hrg, hv]; rfl, rfl⟩
    | arithImmAcc =>
      simp [ho, classIsJump, immDue, opcodeWritten, classHasFullImm] at hr
      obtain ⟨⟨⟨⟨h1, h2⟩, h7⟩, h3⟩, h4⟩ := hr
      obtain ⟨w, hw⟩ := Option.isSome_iff_exists.1 h1
      obtain ⟨rg, hrg⟩ := Option.isSome_iff_exists.1 h2
      obtain ⟨v, hv⟩ := Option.isSome_iff_exists.1 h3
      obtain ⟨op, hop⟩ := arithMnemonicOf_ok h7
      exact ⟨⟨op.name, [regname w rg, immText v]⟩, by simp [formatRecord, ho, formatRegImm, hw, hrg, hv,
          hop], shape _ _ _⟩
    | arithImmRm =>
      simp [ho, classIsJump, immDue, classHasFullImm, addrWritten] at hr
      obtain ⟨⟨⟨⟨⟨⟨h1, h2⟩, h3⟩, ⟨h4, h5⟩, h6⟩, h7⟩, h8⟩, h9⟩ := hr
      obtain ⟨w, hw⟩ := Option.isSome_iff_exists.1 h6
      obtain ⟨v, hv⟩ := Option.isSome_iff_exists.1 h8
      obtain ⟨iw, hiw⟩ := Option.isSome_iff_exists.1 h9
      obtain ⟨op, hop⟩ := arithMnemonicOf_ok h4
      obtain ⟨a, ha⟩ := rmArgOf_ok hw h3 h7
      have hmm : ∃ mm, c.memMode = some mm := by
        unfold modeWritten at h3; split at h3
        · simp at h3; exact ⟨_, h3.1.1⟩
        · cases h3
      obtain ⟨mm, hmm⟩ := hmm
      exact ⟨⟨op.name, [sizedText mm iw a, immText v]⟩, by simp [formatRecord, ho, formatRmImm, hmm, hiw,
          hv, hop, ha], shape _ _ _⟩

/-- From a ready context the work of every phase of a running decoder succeeds (R47). -/
theorem tickPhase_ready {s : State} (hd : s.due = none) (hrun : s.phase.status = .running)
    (hr : phaseReady s.params s.ctx s.phase = true) : TickKeepsReady s := by
  cases hp : s.phase with
  | boundary => exact tickReady_boundary hp hr
  | needAddr => exact tickReady_addr hd hp hr
  | needDisp k => cases k; exact tickReady_dispFirst hd hp hr; exact tickReady_dispSecond hd hp hr
  | needImm k => cases k; exact tickReady_immFirst hd hp hr; exact tickReady_immSecond hd hp hr
  | needOff => exact tickReady_off hd hp hr
  | format =>
    rw [hp] at hr
    obtain ⟨r, hr, -⟩ := formatRecord_ok hr
    refine ⟨emitRecord r s, by simp [tickPhase, hp, tickFormat, hr], fun h => ?_⟩
    simp at h
  | halted h => rw [hp] at hrun; cases hrun

end Sys2Proof.Machine
end

