-- ==== Sys2Proof/Laws/Reads.lean ====
section
/-! SUPPORT. What each run of reads of a decode call does: the state it leaves where the stream has its bytes,
and that the call runs out of bytes where it has not (40_addressing R120 to R137). -/

namespace Sys2Proof.Machine

/-! ## Ticks without an event -/

/-- `k` ticks lead from one state to another, inside one decode call and with no event on `out`. -/
inductive Silent : Nat → State → State → Prop
  | zero (u) : Silent 0 u u
  | succ {u v w n} : tick u = .next v → v.out = u.out → callOver v = false → Silent n v w → Silent (n+1) u w

theorem Silent.trans {m u v} (h : Silent m u v) : ∀ {n w}, Silent n v w → Silent (m + n) u w := by
  induction h with
  | zero => intro n w h; simpa using h
  | succ a b c _ ih => intro n w h; rw [Nat.add_right_comm]; exact .succ a b c (ih h)

/-- The decoder can work: the driver has not ended the run and no terminal event is due. -/
def Live (s : State) : Prop := s.driver.aborted = false ∧ s.due = none

/-- The tick of a phase that reads, where the stream has a byte. -/
theorem tick_read {s t : State} {k : Byte → State → Ticked} {b : Byte} (hl : Live s)
    (hp : tickPhase s = readInside k s) (hb : s.src.read s.cur = some b)
    (hk : k b { s with cur := s.cur + 1 } = .ok t) : tick s = .next t :=
  tick_of_phase hl.1 hl.2 (by rw [hp, readInside_some hb, hk])

/-- The decode call runs out of bytes: after at most `n` reads that find a byte it stands inside the
instruction at a read that finds none. -/
def Starves (n : Nat) (u : State) : Prop :=
  ∃ k v, k ≤ n ∧ Silent k u v ∧ v.cur = u.cur + k ∧ Live v ∧ v.src.read v.cur = none ∧
    v.phase ≠ .boundary ∧ v.phase.status = .running ∧ (∃ kf, tickPhase v = readInside kf v) ∧
    ∀ h, terminate h v = terminate h { u with cur := u.cur + k }

theorem Starves.zero {u : State} {kf : Byte → State → Ticked} (n : Nat) (hl : Live u)
    (hr : u.src.read u.cur = none) (hp : u.phase ≠ .boundary) (hs : u.phase.status = .running)
    (h : tickPhase u = readInside kf u) : Starves n u :=
  ⟨0, u, Nat.zero_le _, .zero _, rfl, hl, hr, hp, hs, ⟨kf, h⟩, fun _ => rfl⟩

/-- `v` is `u` with `n` bytes consumed, as far as the end of a run can tell. -/
def Same (u v : State) (n : Nat) : Prop :=
  v.cur = u.cur + n ∧ ∀ h, terminate h v = terminate h { u with cur := u.cur + n }

theorem Starves.after {m n : Nat} {u v : State} (h : Silent m u v) (hs : Same u v m) (hv : Starves n v) :
    Starves (m + n) u := by
  obtain ⟨k, w, h1, h2, h3, h4, h5, h6, h7, h8, h9⟩ := hv
  refine ⟨m + k, w, by omega, h.trans h2, by rw [h3, hs.1]; omega, h4, h5, h6, h7, h8, fun x => ?_⟩
  rw [h9]
  have := hs.2 x
  simp only [terminate, State.mk.injEq] at this ⊢
  simp [this]; omega

theorem Starves.mono {n m : Nat} {u : State} (h : Starves n u) (hm : n ≤ m) : Starves m u := by
  obtain ⟨k, v, h1, h2⟩ := h
  exact ⟨k, v, by omega, h2⟩

/-- One tick without an event. -/
theorem silent_one {u v : State} (h : tick u = .next v) (ho : v.out = u.out) (hc : callOver v = false) :
    Silent 1 u v := .succ h ho hc (.zero _)

/-- Whether an immediate is sign-extended: `imm_sext` (R39). -/
def isSext : Imm → Bool
  | .imm8 _ => false
  | .imm16 _ => false
  | .sext8 _ => true

/-- The low byte after a 16-bit immediate, from its value before. -/
def immLoOf (imm : Imm) (before : Option Byte) : Option Byte :=
  match imm with
  | .imm8 _ => before
  | .imm16 v => some (loByte v)
  | .sext8 _ => before

/-- The state after the immediate reader (R132). -/
def immDone (u : State) (imm : Imm) : State := { u with
  cur := u.cur + imm.len
  ctx := { u.ctx with
    immWidth := some imm.width
    immValue := some imm.value
    immSext := some (isSext imm)
    immLo := immLoOf imm u.ctx.immLo }
  phase := .format }

/-- Everything the immediate reader can do (R132). -/
theorem imm_spec (n : Nat) {u : State} {w sx : Bool} (hl : Live u) (hp : u.phase = .needImm .first)
    (hw : u.ctx.w = some w) (hsx : sextWanted u.ctx = .ok sx) :
    (∀ imm rest, readImm sx w (u.src.bytesFrom (n+2) u.cur) = some (imm, rest) →
      Silent imm.len u (immDone u imm)) ∧
    (readImm sx w (u.src.bytesFrom (n+2) u.cur) = none → Starves 1 u) := by
  obtain ⟨kf, hk, hkf⟩ : ∃ kf, tickPhase u = readInside kf u ∧ kf = (fun lo t =>
    .ok (if !w then
      { t with
        ctx := { t.ctx with immWidth := some .w8, immValue := some (zext16 lo), immSext := some false }
        phase := .format }
    else if sx then
      { t with
        ctx := { t.ctx with immWidth := some .w16, immValue := some (sext16 lo), immSext := some true }
        phase := .format }
    else
      { t with ctx := { t.ctx with immLo := some lo }, phase := .needImm .second })) := by
    refine ⟨_, ?_, rfl⟩
    simp only [tickPhase, hp, tickImmFirst, hw, hsx, need_some, except_ok_bind]
  cases hr : u.src.read u.cur with
  | none =>
    rw [(Memory.bytesFrom_nil u.src (n+1) u.cur).2 hr]
    refine ⟨by intro imm rest h; cases w <;> cases sx <;> simp [readImm] at h,
        fun _ => Starves.zero _ hl hr (by simp [hp]) (by rw [hp]; rfl) hk⟩
  | some lo =>
    have e : u.src.bytesFrom (n+2) u.cur = lo :: u.src.bytesFrom (n+1) (u.cur + 1) :=
        (Memory.bytesFrom_cons ..).2 ⟨hr, rfl⟩
    rw [e]
    cases w with
    | false =>
      refine ⟨?_, by simp [readImm]⟩
      intro imm rest h
      simp [readImm] at h
      obtain ⟨rfl, -⟩ := h
      exact silent_one (tick_read hl hk hr (by rw [hkf]; rfl)) rfl rfl
    | true =>
      cases sx with
      | true =>
        refine ⟨?_, by simp [readImm]⟩
        intro imm rest h
        simp [readImm] at h
        obtain ⟨rfl, -⟩ := h
        exact silent_one (tick_read hl hk hr (by rw [hkf]; rfl)) rfl rfl
      | false =>
        let v : State :=
          { u with cur := u.cur + 1, ctx := { u.ctx with immLo := some lo }, phase := .needImm .second }
        have h1 : Silent 1 u v := silent_one (tick_read hl hk hr (by rw [hkf]; rfl)) rfl rfl
        have hvl : Live v := hl
        have hvk : tickPhase v = readInside (fun hi t =>
            .ok { t with
              ctx := { t.ctx with
                immWidth := some .w16, immValue := some (joinLE lo hi), immSext := some false }
              phase := .format }) v := rfl
        cases hr2 : u.src.read (u.cur + 1) with
        | none =>
          rw [(Memory.bytesFrom_nil u.src n (u.cur+1)).2 hr2]
          refine ⟨by simp [readImm], fun _ => ?_⟩
          exact Starves.after (n := 0) h1 ⟨rfl, fun _ => rfl⟩ (Starves.zero 0 hvl hr2 (by simp [v]) rfl hvk)
        | some hi =>
          rw [(Memory.bytesFrom_cons u.src n _ hi _).2 ⟨hr2, rfl⟩]
          refine ⟨?_, by simp [readImm]⟩
          intro imm rest h
          simp [readImm] at h
          obtain ⟨rfl, -⟩ := h
          have x := h1.trans (silent_one (tick_read hvl hvk hr2 rfl) rfl rfl)
          simpa [immDone, Imm.len, Imm.width, Imm.value, isSext, immLoOf, v] using x

/-- `disp_value` after the displacement of an operand, from its value before (R130). -/
def dispValueOf (rm : Rm) (before : Option Word) : Option Word :=
  match rm with
  | .reg _ => before
  | .direct v => some v
  | .mem _ => before
  | .mem8 _ b => some (zext16 b)
  | .mem16 _ v => some v

/-- The low byte after a 16-bit displacement, from its value before. -/
def dispLoOf (rm : Rm) (before : Option Byte) : Option Byte :=
  match rm with
  | .reg _ => before
  | .direct v => some (loByte v)
  | .mem _ => before
  | .mem8 _ _ => before
  | .mem16 _ v => some (loByte v)

/-- The state after the displacement reader (R130). -/
def dispDone (c : OpClass) (u : State) (rm : Rm) : State := { u with
  cur := u.cur + rm.dispLen
  ctx := { u.ctx with
    dispValue := dispValueOf rm u.ctx.dispValue
    dispLo := dispLoOf rm u.ctx.dispLo }
  phase := afterDisp c }

/-- The displacement reader on two bytes. -/
theorem disp16_spec {u : State} {c : OpClass} (hl : Live u) (hp : u.phase = .needDisp .first)
    (hc : u.ctx.opClass = some c) (hw : u.ctx.dispWidth = some .w16) :
   (∀ lo hi, u.src.read u.cur = some lo → u.src.read (u.cur + 1) = some hi →
      Silent 2 u
        { u with
          cur := u.cur + 2
          ctx := { u.ctx with dispValue := some (joinLE lo hi), dispLo := some lo }
          phase := afterDisp c }) ∧
   ((u.src.read u.cur = none ∨ u.src.read (u.cur + 1) = none) → Starves 1 u) := by
  obtain ⟨kf, hk, hkf⟩ : ∃ kf, tickPhase u = readInside kf u ∧ kf = (fun lo t =>
      .ok { t with ctx := { t.ctx with dispLo := some lo }, phase := .needDisp .second }) := by
    refine ⟨_, ?_, rfl⟩
    simp only [tickPhase, hp, tickDispFirst, hw, hc, need_some, except_ok_bind]
  cases hr : u.src.read u.cur with
  | none =>
    refine ⟨by intro lo hi h; simp at h, fun _ => Starves.zero _ hl hr (by simp [hp]) (by rw [hp]; rfl) hk⟩
  | some lo =>
    let v : State :=
      { u with cur := u.cur + 1, ctx := { u.ctx with dispLo := some lo }, phase := .needDisp .second }
    have h1 : Silent 1 u v := silent_one (tick_read hl hk hr (by rw [hkf])) rfl rfl
    have hvl : Live v := hl
    have hvk : tickPhase v = readInside (fun hi t =>
        .ok { t with ctx := { t.ctx with dispValue := some (joinLE lo hi) }, phase := afterDisp c }) v := by
      simp only [tickPhase, v, tickDispSecond, hc, need_some, except_ok_bind]
    refine ⟨fun lo' hi h h2 => ?_, fun h => ?_⟩
    · simp at h; subst h
      have x := h1.trans (silent_one (tick_read hvl hvk h2 rfl) rfl
          (by simp only [callOver]; cases c <;> rfl))
      simpa [v] using x
    · simp at h
      exact Starves.after (n := 0) h1 ⟨rfl, fun _ => rfl⟩ (Starves.zero 0 hvl h (by simp [v]) rfl hvk)

/-- The displacement reader on one byte. -/
theorem disp8_spec {u : State} {c : OpClass} (hl : Live u) (hp : u.phase = .needDisp .first)
    (hc : u.ctx.opClass = some c) (hw : u.ctx.dispWidth = some .w8) :
   (∀ lo, u.src.read u.cur = some lo →
      Silent 1 u
        { u with
          cur := u.cur + 1
          ctx := { u.ctx with dispValue := some (zext16 lo) }
          phase := afterDisp c }) ∧
   (u.src.read u.cur = none → Starves 0 u) := by
  obtain ⟨kf, hk, hkf⟩ : ∃ kf, tickPhase u = readInside kf u ∧ kf = (fun lo t =>
      .ok { t with ctx := { t.ctx with dispValue := some (zext16 lo) }, phase := afterDisp c }) := by
    refine ⟨_, ?_, rfl⟩
    simp only [tickPhase, hp, tickDispFirst, hw, hc, need_some, except_ok_bind]
  refine ⟨fun lo hr => silent_one (tick_read hl hk hr (by rw [hkf])) rfl
      (by simp only [callOver]; cases c <;> rfl), fun hr =>
    Starves.zero _ hl hr (by simp [hp]) (by rw [hp]; rfl) hk⟩

/-- Everything the displacement reader can do, from the phase after the addressing byte (R130). -/
theorem disp_spec (n : Nat) {u : State} {c : OpClass} {m : BitVec 2} {r : BitVec 3} (hl : Live u)
    (hp : u.phase = afterAddr c (addrMode m r).dispWidth) (hc : u.ctx.opClass = some c)
    (hw : u.ctx.dispWidth = some (addrMode m r).dispWidth) :
    (∀ rm rest, readRm m r (u.src.bytesFrom (n+2) u.cur) = some (rm, rest) →
      Silent rm.dispLen u (dispDone c u rm)) ∧
    (readRm m r (u.src.bytesFrom (n+2) u.cur) = none → Starves 1 u) := by
  have two : ∀ (n : Nat) (bs : List Byte), u.src.bytesFrom (n+2) u.cur = bs →
     (∃ lo hi tl, bs = lo :: hi :: tl ∧ u.src.read u.cur = some lo ∧ u.src.read (u.cur + 1) = some hi) ∨
     (bs.length < 2 ∧ (u.src.read u.cur = none ∨ u.src.read (u.cur + 1) = none)) := by
    intro n bs h
    match bs with
    | [] => exact .inr ⟨by simp, .inl ((Memory.bytesFrom_nil ..).1 h)⟩
    | [a] => exact .inr ⟨by simp, .inr ((Memory.bytesFrom_nil ..).1 ((Memory.bytesFrom_cons ..).1 h).2)⟩
    | a :: b :: tl =>
      obtain ⟨h1, h2⟩ := (Memory.bytesFrom_cons ..).1 h
      exact .inl ⟨a, b, tl, rfl, h1, ((Memory.bytesFrom_cons ..).1 h2).1⟩
  cases hm : addrMode m r with
  | register =>
    simp only [readRm, hm]
    simp [hm, afterAddr, AddrMode.dispWidth] at hp
    refine ⟨?_, by simp⟩
    intro rm rest h; cases h
    have : dispDone c u (.reg r) = u := by
      show { u with cur := u.cur, phase := afterDisp c } = u
      rw [← hp]
    rw [this]; exact .zero _
  | memory =>
    simp only [readRm, hm]
    simp [hm, afterAddr, AddrMode.dispWidth] at hp
    refine ⟨?_, by simp⟩
    intro rm rest h; cases h
    have : dispDone c u (.mem r) = u := by
      show { u with cur := u.cur, phase := afterDisp c } = u
      rw [← hp]
    rw [this]; exact .zero _
  | memoryDisp8 =>
    simp [hm, afterAddr, AddrMode.dispWidth] at hp hw
    obtain ⟨s1, s2⟩ := disp8_spec hl hp hc hw
    rcases hb : u.src.bytesFrom (n+2) u.cur with _ | ⟨lo, tl⟩
    · simp [readRm, hm]
      exact (s2 ((Memory.bytesFrom_nil ..).1 hb)).mono (by omega)
    · simp only [readRm, hm]
      refine ⟨?_, by simp⟩
      intro rm rest h; cases h
      exact s1 lo ((Memory.bytesFrom_cons ..).1 hb).1
  | direct =>
    simp [hm, afterAddr, AddrMode.dispWidth] at hp hw
    obtain ⟨s1, s2⟩ := disp16_spec hl hp hc hw
    rcases two n _ rfl with ⟨lo, hi, tl, hb, h1, h2⟩ | ⟨hb, h⟩
    · rw [hb]; simp only [readRm, hm]
      refine ⟨?_, by simp⟩
      intro rm rest h; cases h
      simpa [dispDone, Rm.dispLen, dispValueOf, dispLoOf] using s1 lo hi h1 h2
    · refine ⟨?_, fun _ => s2 h⟩
      intro rm rest hh
      have := readRm_eq_some hh
      rw [this.2.2.2] at hb
      simp only [readRm, hm] at hh
      split at hh <;> simp_all
      obtain ⟨rfl, -⟩ := hh
      simp [Rm.dispLen] at hb
      omega
  | memoryDisp16 =>
    simp [hm, afterAddr, AddrMode.dispWidth] at hp hw
    obtain ⟨s1, s2⟩ := disp16_spec hl hp hc hw
    rcases two n _ rfl with ⟨lo, hi, tl, hb, h1, h2⟩ | ⟨hb, h⟩
    · rw [hb]; simp only [readRm, hm]
      refine ⟨?_, by simp⟩
      intro rm rest h; cases h
      simpa [dispDone, Rm.dispLen, dispValueOf, dispLoOf] using s1 lo hi h1 h2
    · refine ⟨?_, fun _ => s2 h⟩
      intro rm rest hh
      have := readRm_eq_some hh
      rw [this.2.2.2] at hb
      simp only [readRm, hm] at hh
      split at hh <;> simp_all
      obtain ⟨rfl, -⟩ := hh
      simp [Rm.dispLen] at hb
      omega

/-! ## Runs of ticks -/

/-- Silent ticks are a run of ticks. -/
theorem tickRun_silent {k : Nat} {u v : State} (h : Silent k u v) : tickRun k u = .next v := by
  induction h with
  | zero => rfl
  | succ a _ _ _ ih => simp only [tickRun, a]; exact ih

/-- No event has gone out at any point of silent ticks. -/
theorem silent_prefix {k : Nat} {u v : State} (h : Silent k u v) :
    ∀ j, j ≤ k → ∃ m, tickRun j u = .next m ∧ m.out = u.out := by
  induction h with
  | zero => intro j hj; obtain rfl : j = 0 := Nat.le_zero.1 hj; exact ⟨_, rfl, rfl⟩
  | succ a b _ _ ih =>
    intro j hj
    cases j with
    | zero => exact ⟨_, rfl, rfl⟩
    | succ j =>
      obtain ⟨m, h1, h2⟩ := ih j (by omega)
      exact ⟨m, by simp only [tickRun, a]; exact h1, by rw [h2, b]⟩

/-- Silent ticks and the tick that ends the call are the rest of the call. -/
theorem finish_silent {k : Nat} {u v t : State} (h : Silent k u v) (ht : tick v = .next t)
    (hc : callOver t = true) : ∀ n, k < n → finishCall n u = .next t := by
  induction h with
  | zero =>
    intro n hn
    obtain ⟨n, rfl⟩ : ∃ n', n = n' + 1 := ⟨n - 1, by omega⟩
    simp [finishCall, ht, hc]
  | succ a _ c _ ih =>
    intro n hn
    obtain ⟨n, rfl⟩ : ∃ n', n = n' + 1 := ⟨n - 1, by omega⟩
    simp only [finishCall, a, c]
    exact ih ht n (by omega)

/-- Silent ticks and one more tick. -/
theorem tickRun_snoc {k : Nat} {u v t : State} (h : Silent k u v) (ht : tick v = .next t) :
    tickRun (k + 1) u = .next t := by
  induction h with
  | zero => simp [tickRun, ht]
  | succ a _ _ _ ih => rw [tickRun, a]; exact ih ht

end Sys2Proof.Machine
end

