-- ==== Sys2Proof/Laws/Step.lean ====
section
/-! SUPPORT. The bytes that a step looks at: from a boundary it decodes the window of the stream at the
cursor, and what stands at the cursor begins that window. -/

namespace Sys2Proof.Machine

/-- From a boundary a step is one decode call (R107). -/
theorem step_boundary {s : State} (h : s.atBoundary = true) : step s = decodeCall s := by simp [step, h]

/-- What stands at the cursor begins the window. -/
theorem window_holds (s : State) {bs : List Byte} (h : s.Holds bs) (hl : bs.length ≤ maxLength) :
    ∃ rest, s.window = bs ++ rest :=
  Memory.bytesFrom_prefix _ _ _ _ h hl

/-- The beginning of the window stands at the cursor. -/
theorem holds_of_window {s : State} {bs rest : List Byte} (h : s.window = bs ++ rest) : s.Holds bs := by
  have hl : bs.length ≤ maxLength := by
    have := Memory.bytesFrom_length_le s.src maxLength s.cur
    rw [State.window] at h
    rw [h] at this
    simp at this
    omega
  simp only [State.Holds]
  rw [Memory.bytesFrom_take _ _ _ _ hl, ← State.window, h]
  simp

/-- Where the remaining bytes are few, they are the window. -/
theorem window_of_holdsOnly {s : State} {bs : List Byte} (h : s.HoldsOnly bs) (hl : bs.length ≤ maxLength) :
    s.window = bs :=
  Memory.bytesFrom_of_ends _ _ _ _ h.1 h.2 hl

/-- A halted decoder is at no boundary. -/
theorem halted_not_boundary {s : State} {h : Halt} (hp : s.phase = .halted h) : s.atBoundary = false := by
  cases hq : s.atBoundary with
  | false => rfl
  | true =>
    have := ((atBoundary_iff _).1 hq).2.1
    rw [hp] at this
    cases this

end Sys2Proof.Machine
end

