-- ==== Sys2Proof/Tests/Slice0.lean ====
section
/-! SUPPORT. The model's own tests. The bytes and results come from the tables of spec/ (95_test_vectors, by
its vector names) or are written out from the format tables R91 to R95. At the end stands, for each
statement with hypotheses, a witness that meets them. -/

namespace Sys2Proof.Tests

open Sys2Proof Sys2Proof.Machine

/-! ## Small states and what a step gives -/

/-- The reset state with a byte stream supplied. -/
def on (bs : List Byte) : State := { State.reset with src := Memory.ofBytes bs }

/-- An endless stream: some bytes, and then as the tail says. -/
def onEndless (bs : List Byte) (tail : SrcTail) : State :=
  { State.reset with src := { cells := (Memory.ofBytes bs).cells, tail := tail } }

/-- The same under `SW_BYTE = FIRST`. -/
def onFirst (bs : List Byte) : State := { on bs with params := { Params.standard with swByte := .first } }

/-- The same with a source that answers `Err` after its bytes. -/
def onFailing (bs : List Byte) : State := { on bs with srcEnd := .error }

/-- The same in executing mode, with the simulator failing at a record, if at all. -/
def onExecuting (bs : List Byte) (failsAt : Option Nat) : State :=
  { on bs with driver := { executing := true, simFailsAt := failsAt, aborted := false } }

/-- The events and the cursor of a next state. -/
def gives (o : Outcome) : Option (List Event × Nat) :=
  match o with
  | .next t => some (t.out, t.cur)
  | .fault _ => none
  | .refused _ => none

/-- The fault of an outcome. -/
def faultOf (o : Outcome) : Option Fault :=
  match o with
  | .next _ => none
  | .fault f => some f
  | .refused _ => none

/-- A one-record result. -/
def emits (m : String) (ops : List String) (len : Nat) : Option (List Event × Nat) :=
  some ([.emit ⟨m, ops⟩], len)

/-- A one-error result. -/
def fails (k : ErrorKind) (n : Nat) : Option (List Event × Nat) := some ([.fail k], n)

/-! ## WellFormed refuses ill-formed terms -/

/-- R124: mod = 00 with r/m = 110 is no base form. -/
theorem test_wf_no_base_110 :
    Instr.wf Params.standard (.movRegMem true true 0 (.mem 0b110)) = false ∧
    Instr.wf Params.standard (.addRegMem true true 0 (.mem 0b110)) = false ∧
    Instr.wf Params.standard (.subRegMem true true 0 (.mem 0b110)) = false ∧
    Instr.wf Params.standard (.cmpRegMem true true 0 (.mem 0b110)) = false ∧
    Instr.wf Params.standard (.cmpImmRm 0 (.mem 0b110) (.imm8 5)) = false := by decide

/-- R136: only arith-imm-rm sign-extends. -/
theorem test_wf_no_sext_elsewhere :
    Instr.wf Params.standard (.movImmReg 0 (.sext8 5)) = false ∧
    Instr.wf Params.standard (.addImmAcc (.sext8 5)) = false ∧
    Instr.wf Params.standard (.subImmAcc (.sext8 5)) = false ∧
    Instr.wf Params.standard (.cmpImmAcc (.sext8 5)) = false := by decide

/-- R133 to R135: the immediate's form follows `s` and `w`, bits 1:0 of byte 2 under SECOND. -/
theorem test_wf_imm_form_second :
    Instr.wf Params.standard (.addImmRm 0 (.reg 0b000) (.imm16 5)) = false ∧
    Instr.wf Params.standard (.subImmRm 0 (.reg 0b001) (.imm8 5)) = false ∧
    Instr.wf Params.standard (.cmpImmRm 0 (.reg 0b011) (.imm16 5)) = false ∧
    Instr.wf Params.standard (.cmpImmRm 0 (.reg 0b001) (.sext8 5)) = false ∧
    Instr.wf Params.standard (.cmpImmRm 0 (.reg 0b001) (.imm16 5)) = true := by decide

/-- The same under FIRST, where bits 1:0 of byte 1 decide (R89). -/
theorem test_wf_imm_form_first :
    Instr.wf (onFirst []).params (.addImmRm 0b00 (.reg 0b011) (.sext8 5)) = false ∧
    Instr.wf (onFirst []).params (.addImmRm 0b11 (.reg 0b000) (.imm8 5)) = false ∧
    Instr.wf (onFirst []).params (.addImmRm 0b11 (.reg 0b000) (.sext8 5)) = true := by decide

/-- R8: a variant that the jump table lacks is no instruction, and its byte is unsupported. -/
theorem test_wf_jump_missing :
    Instr.wf { Params.standard with jumpTable := [.je] } (.jne 5) = false ∧
    Instr.wf { Params.standard with jumpTable := [.je] } (.je 5) = true ∧
    classify { Params.standard with jumpTable := [.je] } 0x75 = .unsupported := by decide

/-- R8, 92's OPEN table: the jump table is a subset written once in table order. -/
theorem test_params_wf :
    Params.wf Params.standard = true ∧ Params.wf ⟨.first, []⟩ = true ∧
    Params.wf ⟨.first, [.jno, .jo]⟩ = false ∧ Params.wf ⟨.first, [.jo, .jo]⟩ = false := by decide

/-! ## Decoding: words written out from R91 to R95 -/

/-- 100010dw with d = 0, w = 1, then mod 01, reg 110, r/m 011, disp8. -/
theorem test_decode_movRegMem :
    decode Params.standard [0b10001001, 0b01110011, 0b11111110] =
      .instr (.movRegMem false true 0b110 (.mem8 0b011 0xFE)) [] := by decide

/-- 00 000 0dw with d = 1, w = 0, then mod 00, reg 101, r/m 110, a direct address. -/
theorem test_decode_addRegMem :
    decode Params.standard [0b00000010, 0b00101110, 0b00000001, 0b10000000] =
      .instr (.addRegMem true false 0b101 (.direct 0x8001)) [] := by decide

/-- 00 101 0dw with d = 1, w = 1, then mod 10, reg 001, r/m 110, disp16. -/
theorem test_decode_subRegMem :
    decode Params.standard [0b00101011, 0b10001110, 0b11111111, 0b00000001] =
      .instr (.subRegMem true true 0b001 (.mem16 0b110 0x01FF)) [] := by decide

/-- 00 111 0dw with d = 0, w = 0, then mod 00, reg 100, r/m 111. -/
theorem test_decode_cmpRegMem :
    decode Params.standard [0b00111000, 0b00100111] =
      .instr (.cmpRegMem false false 0b100 (.mem 0b111)) [] := by decide

/-- 1011 w reg with w = 0, reg 110. -/
theorem test_decode_movImmReg :
    decode Params.standard [0b10110110, 0b10000001] =
      .instr (.movImmReg 0b110 (.imm8 0x81)) [] := by decide

/-- 100000xx, then mod 11, 000, r/m 110: s = 1, w = 0. -/
theorem test_decode_addImmRm :
    decode Params.standard [0b10000001, 0b11000110, 0b10000000] =
      .instr (.addImmRm 0b01 (.reg 0b110) (.imm8 0x80)) [] := by decide

/-- 100000xx, then mod 10, 101, r/m 101: s = 0, w = 1; six bytes. -/
theorem test_decode_subImmRm :
    decode Params.standard [0b10000010, 0b10101101, 0b00110100, 0b00010010, 0b01111000, 0b01010110] =
      .instr (.subImmRm 0b10 (.mem16 0b101 0x1234) (.imm16 0x5678)) [] := by decide

/-- 100000xx, then mod 01, 111, r/m 111: s = 1, w = 1. -/
theorem test_decode_cmpImmRm :
    decode Params.standard [0b10000011, 0b01111111, 0b00000100, 0b11111111] =
      .instr (.cmpImmRm 0b11 (.mem8 0b111 0x04) (.sext8 0xFF)) [] := by decide

/-- SW_BYTE = FIRST: s = 1, w = 1 in the opcode byte, r/m 000. -/
theorem test_decode_addImmRm_first :
    decode (onFirst []).params [0b10000011, 0b11000000, 0b11110000] =
      .instr (.addImmRm 0b11 (.reg 0b000) (.sext8 0xF0)) [] := by decide

/-- 00 000 10w with w = 1. -/
theorem test_decode_addImmAcc :
    decode Params.standard [0b00000101, 0b00000010, 0b00000011] =
      .instr (.addImmAcc (.imm16 0x0302)) [] := by decide

/-- 00 101 10w with w = 0. -/
theorem test_decode_subImmAcc :
    decode Params.standard [0b00101100, 0b11111111] =
      .instr (.subImmAcc (.imm8 0xFF)) [] := by decide

/-- 00 111 10w with w = 1. -/
theorem test_decode_cmpImmAcc :
    decode Params.standard [0b00111101, 0b00000000, 0b10000000] =
      .instr (.cmpImmAcc (.imm16 0x8000)) [] := by decide

/-- R190: 0x70 to 0x77. -/
theorem test_decode_jumps_low :
    decode Params.standard [0b01110000, 0b10000001] = .instr (.jo 0x81) [] ∧
    decode Params.standard [0b01110001, 0b10000001] = .instr (.jno 0x81) [] ∧
    decode Params.standard [0b01110010, 0b10000001] = .instr (.jb 0x81) [] ∧
    decode Params.standard [0b01110011, 0b10000001] = .instr (.jnb 0x81) [] ∧
    decode Params.standard [0b01110100, 0b10000001] = .instr (.je 0x81) [] ∧
    decode Params.standard [0b01110101, 0b10000001] = .instr (.jne 0x81) [] ∧
    decode Params.standard [0b01110110, 0b10000001] = .instr (.jbe 0x81) [] ∧
    decode Params.standard [0b01110111, 0b10000001] = .instr (.jnbe 0x81) [] := by decide

/-- R190: 0x78 to 0x7F. -/
theorem test_decode_jumps_high :
    decode Params.standard [0b01111000, 0b10000001] = .instr (.js 0x81) [] ∧
    decode Params.standard [0b01111001, 0b10000001] = .instr (.jns 0x81) [] ∧
    decode Params.standard [0b01111010, 0b10000001] = .instr (.jp 0x81) [] ∧
    decode Params.standard [0b01111011, 0b10000001] = .instr (.jnp 0x81) [] ∧
    decode Params.standard [0b01111100, 0b10000001] = .instr (.jl 0x81) [] ∧
    decode Params.standard [0b01111101, 0b10000001] = .instr (.jnl 0x81) [] ∧
    decode Params.standard [0b01111110, 0b10000001] = .instr (.jle 0x81) [] ∧
    decode Params.standard [0b01111111, 0b10000001] = .instr (.jnle 0x81) [] := by decide

/-- R190: 0xE0 to 0xE3. -/
theorem test_decode_loops :
    decode Params.standard [0b11100000, 0b10000001] = .instr (.loopnz 0x81) [] ∧
    decode Params.standard [0b11100001, 0b10000001] = .instr (.loopz 0x81) [] ∧
    decode Params.standard [0b11100010, 0b10000001] = .instr (.loop 0x81) [] ∧
    decode Params.standard [0b11100011, 0b10000001] = .instr (.jcxz 0x81) [] := by decide

/-- Section 2.1's boundary bytes. -/
theorem test_classify_boundaries :
    ([0x00, 0x03, 0x08, 0x28, 0x38, 0x3B].all fun b => classify Params.standard b == .arithRegMem) = true ∧
    ([0x04, 0x05, 0x0C, 0x2D, 0x3C, 0x3D].all fun b => classify Params.standard b == .arithImmAcc) = true ∧
    ([0x80, 0x83].all fun b => classify Params.standard b == .arithImmRm) = true ∧
    ([0x88, 0x8B].all fun b => classify Params.standard b == .movRegMem) = true ∧
    ([0xB0, 0xBF].all fun b => classify Params.standard b == .movImmReg) = true ∧
    ([0x06, 0x07, 0x0F, 0x26, 0x3E, 0x3F, 0x40, 0x6F, 0x84, 0x87, 0x8C, 0x8F, 0xAF, 0xC0, 0xC6, 0xDF,
      0xE4, 0xF3, 0xFF].all fun b => classify Params.standard b == .unsupported) = true ∧
    classify Params.standard 0x70 = .jumpOrLoop .jo ∧ classify Params.standard 0x7F = .jumpOrLoop .jnle ∧
    classify Params.standard 0xE0 = .jumpOrLoop .loopnz ∧
    classify Params.standard 0xE3 = .jumpOrLoop .jcxz := by decide

/-- Every match value of spec/opcode_table.json with operand bits of zero is its row's instruction. -/
theorem test_table_words :
    decodeTableWord 8 0x88 = some (.movRegMem false false 0 (.mem 0)) ∧
    decodeTableWord 8 0x00 = some (.addRegMem false false 0 (.mem 0)) ∧
    decodeTableWord 8 0x28 = some (.subRegMem false false 0 (.mem 0)) ∧
    decodeTableWord 8 0x38 = some (.cmpRegMem false false 0 (.mem 0)) ∧
    decodeTableWord 8 0xB0 = some (.movImmReg 0 (.imm8 0)) ∧
    decodeTableWord 16 0x8000 = some (.addImmRm 0 (.mem 0) (.imm8 0)) ∧
    decodeTableWord 16 0x8028 = some (.subImmRm 0 (.mem 0) (.imm8 0)) ∧
    decodeTableWord 16 0x8038 = some (.cmpImmRm 0 (.mem 0) (.imm8 0)) ∧
    decodeTableWord 8 0x04 = some (.addImmAcc (.imm8 0)) ∧
    decodeTableWord 8 0x2C = some (.subImmAcc (.imm8 0)) ∧
    decodeTableWord 8 0x3C = some (.cmpImmAcc (.imm8 0)) ∧
    (JumpOp.all.all fun j => decodeTableWord 8 j.opcode.toNat == some (.jump j 0)) = true := by decide

/-- The first step after reset runs a word put by `withFetchWord`. -/
theorem test_withFetchWord :
    gives (step (State.reset.withFetchWord 8 0x88)) = emits "mov" ["[bx+si]", "al"] 2 ∧
    gives (step (State.reset.withFetchWord 16 0x8028)) = emits "sub" ["byte [bx+si]", "0"] 3 ∧
    gives (step (State.reset.withFetchWord 8 0xE2)) = emits "loop" ["$+2+0"] 2 := by decide

/-! ## Results of one step: the vectors of 95_test_vectors -/

/-- M1, M2, W5, M11. -/
theorem test_mov_regs :
    gives (step (on [0x89, 0xD9])) = emits "mov" ["cx", "bx"] 2 ∧
    gives (step (on [0x88, 0xE5])) = emits "mov" ["ch", "ah"] 2 ∧
    gives (step (on [0x8A, 0x06, 0x34, 0x12])) = emits "mov" ["al", "[4660]"] 4 ∧
    gives (step (on [0x88, 0x06, 0x34, 0x12])) = emits "mov" ["[4660]", "al"] 4 := by decide

/-- M12, M14, M16, M18: a zero displacement shows; displacements are unsigned. -/
theorem test_mov_disp :
    gives (step (on [0x8B, 0x46, 0x00])) = emits "mov" ["ax", "[bp + 0]"] 3 ∧
    gives (step (on [0x8B, 0x56, 0xFD])) = emits "mov" ["dx", "[bp + 253]"] 3 ∧
    gives (step (on [0x8B, 0x86, 0x34, 0x12])) = emits "mov" ["ax", "[bp + 4660]"] 4 ∧
    gives (step (on [0x89, 0x87, 0xFF, 0xFF])) = emits "mov" ["[bx + 65535]", "ax"] 4 := by decide

/-- M22, M23, M25, M26. -/
theorem test_mov_imm :
    gives (step (on [0xB4, 0x12])) = emits "mov" ["ah", "18"] 2 ∧
    gives (step (on [0xBF, 0xFF, 0xFF])) = emits "mov" ["di", "65535"] 3 ∧
    gives (step (on [0xBC, 0x00, 0x80])) = emits "mov" ["sp", "32768"] 3 ∧
    gives (step (on [0xB8, 0x05, 0x00, 0x90])) = emits "mov" ["ax", "5"] 3 := by decide

/-- W4, W4a, A2, A3. -/
theorem test_add_reg_mem :
    gives (step (on [0x00, 0xC1])) = emits "add" ["cl", "al"] 2 ∧
    gives (step (on [0x01, 0xD8])) = emits "add" ["ax", "bx"] 2 ∧
    gives (step (on [0x03, 0x18])) = emits "add" ["bx", "[bx+si]"] 2 ∧
    gives (step (on [0x02, 0x47, 0x05])) = emits "add" ["al", "[bx + 5]"] 3 := by decide

/-- A4, A5. -/
theorem test_sub_reg_mem :
    gives (step (on [0x28, 0xC1])) = emits "sub" ["cl", "al"] 2 ∧
    gives (step (on [0x2B, 0x06, 0x10, 0x00])) = emits "sub" ["ax", "[16]"] 4 := by decide

/-- A7, A8. -/
theorem test_cmp_reg_mem :
    gives (step (on [0x39, 0xD8])) = emits "cmp" ["ax", "bx"] 2 ∧
    gives (step (on [0x3B, 0x46, 0x02])) = emits "cmp" ["ax", "[bp + 2]"] 3 := by decide

/-- A12, A14, A15: the opcode's low bits are ignored under SECOND; sign extension. -/
theorem test_add_imm_reg :
    gives (step (on [0x83, 0xC1, 0x05, 0x00])) = emits "add" ["cx", "5"] 4 ∧
    gives (step (on [0x80, 0xC3, 0x80])) = emits "add" ["bx", "65408"] 3 ∧
    gives (step (on [0x80, 0xC2, 0x80])) = emits "add" ["dl", "128"] 3 := by decide

/-- A16, A17, A18, A19: the size qualifier. -/
theorem test_add_imm_mem :
    gives (step (on [0x80, 0x07, 0x22])) = emits "add" ["word [bx]", "34"] 3 ∧
    gives (step (on [0x80, 0x04, 0x22])) = emits "add" ["byte [si]", "34"] 3 ∧
    gives (step (on [0x80, 0x05, 0x01, 0x02])) = emits "add" ["word [di]", "513"] 4 ∧
    gives (step (on [0x80, 0x06, 0x34, 0x12, 0x07])) = emits "add" ["byte [4660]", "7"] 5 := by decide

/-- A20, A21. -/
theorem test_sub_imm_rm :
    gives (step (on [0x80, 0x2B, 0x05])) = emits "sub" ["word [bp+di]", "5"] 3 ∧
    gives (step (on [0x81, 0x6F, 0x02, 0x05])) = emits "sub" ["word [bx + 2]", "5"] 4 := by decide

/-- A23, A24, A25. -/
theorem test_cmp_imm_rm :
    gives (step (on [0x80, 0xBE, 0xE8, 0x03, 0x09])) = emits "cmp" ["byte [bp + 1000]", "9"] 5 ∧
    gives (step (on [0x80, 0x3B, 0x80])) = emits "cmp" ["word [bp+di]", "65408"] 3 ∧
    gives (step (on [0x80, 0xF9, 0x07, 0x00])) = emits "cmp" ["cx", "7"] 4 := by decide

/-- A26, A27, A29, A30, A31, A32: the byte form is not sign-extended. -/
theorem test_imm_acc :
    gives (step (on [0x04, 0x07])) = emits "add" ["al", "7"] 2 ∧
    gives (step (on [0x05, 0xE8, 0x03])) = emits "add" ["ax", "1000"] 3 ∧
    gives (step (on [0x2C, 0x02])) = emits "sub" ["al", "2"] 2 ∧
    gives (step (on [0x2D, 0xFF, 0xFF])) = emits "sub" ["ax", "65535"] 3 ∧
    gives (step (on [0x3C, 0x80])) = emits "cmp" ["al", "128"] 2 ∧
    gives (step (on [0x3D, 0x00, 0x01])) = emits "cmp" ["ax", "256"] 3 := by decide

/-- F2, F3, F4, F6, F7, F8: SW_BYTE = FIRST. -/
theorem test_first :
    gives (step (onFirst [0x80, 0xC1, 0x05])) = emits "add" ["cl", "5"] 3 ∧
    gives (step (onFirst [0x81, 0xC1, 0x34, 0x12])) = emits "add" ["cx", "4660"] 4 ∧
    gives (step (onFirst [0x83, 0x06, 0x34, 0x12, 0xFF])) = emits "add" ["word [4660]", "65535"] 5 ∧
    gives (step (onFirst [0x80, 0x07, 0x22])) = emits "add" ["byte [bx]", "34"] 3 ∧
    gives (step (onFirst [0x83, 0x3E, 0x10, 0x00, 0x80])) = emits "cmp" ["word [16]", "65408"] 5 ∧
    gives (step (onFirst [0x80, 0xC3, 0xFF])) = emits "add" ["bl", "255"] 3 := by decide

/-- J1 to J7. -/
theorem test_jump_offsets :
    gives (step (on [0x74, 0x00])) = emits "je" ["$+2+0"] 2 ∧
    gives (step (on [0x74, 0xFE])) = emits "je" ["$+0"] 2 ∧
    gives (step (on [0x74, 0xFF])) = emits "je" ["$+1+0"] 2 ∧
    gives (step (on [0x74, 0xFD])) = emits "je" ["$-1+0"] 2 ∧
    gives (step (on [0x74, 0x7F])) = emits "je" ["$+129+0"] 2 ∧
    gives (step (on [0x74, 0x80])) = emits "je" ["$-126+0"] 2 := by decide

/-- J8 to J15. -/
theorem test_jumps_low :
    gives (step (on [0x70, 0x05])) = emits "jo" ["$+7+0"] 2 ∧
    gives (step (on [0x71, 0x05])) = emits "jno" ["$+7+0"] 2 ∧
    gives (step (on [0x72, 0x05])) = emits "jb" ["$+7+0"] 2 ∧
    gives (step (on [0x73, 0x05])) = emits "jnb" ["$+7+0"] 2 ∧
    gives (step (on [0x74, 0x05])) = emits "je" ["$+7+0"] 2 ∧
    gives (step (on [0x75, 0x05])) = emits "jne" ["$+7+0"] 2 ∧
    gives (step (on [0x76, 0x05])) = emits "jbe" ["$+7+0"] 2 ∧
    gives (step (on [0x77, 0x05])) = emits "jnbe" ["$+7+0"] 2 := by decide

/-- J16 to J23. -/
theorem test_jumps_high :
    gives (step (on [0x78, 0x05])) = emits "js" ["$+7+0"] 2 ∧
    gives (step (on [0x79, 0x05])) = emits "jns" ["$+7+0"] 2 ∧
    gives (step (on [0x7A, 0x05])) = emits "jp" ["$+7+0"] 2 ∧
    gives (step (on [0x7B, 0x05])) = emits "jnp" ["$+7+0"] 2 ∧
    gives (step (on [0x7C, 0x05])) = emits "jl" ["$+7+0"] 2 ∧
    gives (step (on [0x7D, 0x05])) = emits "jnl" ["$+7+0"] 2 ∧
    gives (step (on [0x7E, 0x05])) = emits "jle" ["$+7+0"] 2 ∧
    gives (step (on [0x7F, 0x05])) = emits "jnle" ["$+7+0"] 2 := by decide

/-- J24 to J27. -/
theorem test_loops :
    gives (step (on [0xE0, 0x05])) = emits "loopnz" ["$+7+0"] 2 ∧
    gives (step (on [0xE1, 0x05])) = emits "loopz" ["$+7+0"] 2 ∧
    gives (step (on [0xE2, 0x05])) = emits "loop" ["$+7+0"] 2 ∧
    gives (step (on [0xE3, 0x05])) = emits "jcxz" ["$+7+0"] 2 := by decide

/-- E1, E4, E5. -/
theorem test_unsupported :
    gives (step (on [0x8C, 0xC0])) = fails .unsupportedOpcode 1 ∧
    gives (step (on [0xC6, 0x06])) = fails .unsupportedOpcode 1 ∧
    gives (step (on [0xFF])) = fails .unsupportedOpcode 1 := by decide

/-- E6, E7, E9, E10, E11, E26: before any truncation. -/
theorem test_bad_subop :
    gives (step (on [0x08, 0xC0])) = fails .unsupportedArithmeticOp 1 ∧
    gives (step (on [0x08])) = fails .unsupportedArithmeticOp 1 ∧
    gives (step (on [0x34])) = fails .unsupportedArithmeticOp 1 ∧
    gives (step (on [0x80, 0xC8, 0x05])) = fails .unsupportedArithmeticOp 2 ∧
    gives (step (on [0x80, 0xF0])) = fails .unsupportedArithmeticOp 2 ∧
    gives (step (onFailing [0x08])) = fails .unsupportedArithmeticOp 1 := by decide

/-- E12 to E22 in part, W8, F1 under SECOND. -/
theorem test_truncated :
    gives (step (on [0x80])) = fails .truncatedStream 1 ∧
    gives (step (on [0x8B, 0x46])) = fails .truncatedStream 2 ∧
    gives (step (on [0x8B, 0x06, 0x34])) = fails .truncatedStream 3 ∧
    gives (step (on [0xB8, 0x05])) = fails .truncatedStream 2 ∧
    gives (step (on [0x75])) = fails .truncatedStream 1 ∧
    gives (step (on [0x80, 0x06, 0x34, 0x12])) = fails .truncatedStream 4 ∧
    gives (step (on [0x83, 0xC1, 0x05])) = fails .truncatedStream 3 := by decide

/-- E24, E25. -/
theorem test_source_error :
    gives (step (onFailing [])) = fails .sourceError 0 ∧
    gives (step (onFailing [0x8B])) = fails .sourceError 1 := by decide

/-- E23: a clean end. -/
theorem test_done : gives (step (on [])) = some ([.done], 0) := by decide

/-- P2's sixth instruction as ticks: 4 reads and the record; nothing goes out before the last. -/
theorem test_ticks :
    gives (tickRun 4 (on [0x89, 0x97, 0x00, 0x01])) = some ([], 4) ∧
    gives (tickRun 5 (on [0x89, 0x97, 0x00, 0x01])) = emits "mov" ["[bx + 256]", "dx"] 4 ∧
    gives (tickRun 2 (on [0x26])) = fails .unsupportedOpcode 1 := by decide

/-- R60, R265: an endless stream of `00`, and one whose bytes after the listed three are not known. -/
theorem test_endless :
    gives (step (onEndless [] (.constant 0x00))) = emits "add" ["[bx+si]", "al"] 2 ∧
    gives (step (onEndless [0xB8, 0x05, 0x00] (.unbounded 0))) = emits "mov" ["ax", "5"] 3 ∧
    gives (Sys2Proof.core.run 2 (onEndless [0x74, 0xFE] (.constant 0x75))) =
      some ([.emit ⟨"je", ["$+0"]⟩, .emit ⟨"jne", ["$+119+0"]⟩], 4) := by decide

/-- The canonical form of streams: no gap in a finite one; no byte listed that the tail reads as. -/
theorem test_memory_wf :
    (Memory.ofBytes [1, 2]).wf = true ∧ Memory.wf ⟨[(1, 1)], .ends⟩ = false ∧
    Memory.wf ⟨[(1, 1)], .constant 0⟩ = true ∧ Memory.wf ⟨[(1, 0)], .constant 0⟩ = false ∧
    Memory.wf ⟨[(2, 1), (1, 1)], .constant 0⟩ = false ∧
    Memory.write ⟨[(1, 1)], .constant 0⟩ 1 0 = ⟨[], .constant 0⟩ := by decide

/-- R47, R52, R70: where the machine stops. -/
theorem test_faults :
    faultOf (tick { on [5] with phase := .needOff, ctx := {} }) = none ∧
    faultOf (tick { on [5] with phase := .format }) = some (.unwrittenField .opClass) ∧
    faultOf (step { on [5] with phase := .halted .done }) = some .halted ∧
    faultOf (exec (.jo 5) { on [0x70, 5] with phase := .needOff }) = some .callInProgress := by decide

/-- The output of a run of decode calls. -/
def textAfter (k : Nat) (s : State) : Option (String × Phase × Nat) :=
  match Sys2Proof.core.run k s with
  | .next t => some (printedText t, t.phase, t.cur)
  | .fault _ => none
  | .refused _ => none

/-- Section 2.7: the printed text. -/
theorem test_text :
    textAfter 1 (on []) = some ("bits 16\n", .halted .done, 0) ∧
    textAfter 3 (on [0xB8, 0x05, 0x00, 0x75, 0xFD]) =
      some ("bits 16\nmov ax, 5\njne $-1+0\n", .halted .done, 5) ∧
    textAfter 2 (on [0xB8, 0x05, 0x00, 0x26]) =
      some ("bits 16\nmov ax, 5\n", .halted (.fail .unsupportedOpcode), 4) := by decide
/-! ## Witnesses: states and operands that meet a statement's hypotheses, one for each clause -/

/-- A decode call from `s` answers a next state of which `q` holds. -/
def nextHas (o : Outcome) (q : State → Bool) : Bool :=
  match o with
  | .next t => q t
  | .fault _ => false
  | .refused _ => false

theorem witness_ResetState : (Memory.ofBytes [0xB8]).read 0 = some 0xB8 := by decide

theorem witness_DecodeOfEncodeIsTheInstruction :
    WellFormed Params.standard (.movRegMem true false 0b111 (.direct 0xFFFF)) ∧
    WellFormed Params.standard (.cmpImmRm 0b11 (.mem16 0b001 0x8000) (.imm16 0xFF00)) ∧
    WellFormed (onFirst []).params (.addImmRm 0b11 (.mem8 0b110 0xFF) (.sext8 0x80)) ∧
    WellFormed Params.standard (.movImmReg 7 (.imm16 0)) ∧ WellFormed Params.standard (.subImmAcc (.imm8 0)) ∧
    WellFormed Params.standard (.jcxz 0x80) := by decide

theorem witness_DecodedBytesAreTheEncoding :
    decode Params.standard [0x80, 0xC3, 0xFF, 0x00] = .instr (.addImmRm 0 (.reg 3) (.sext8 0xFF)) [0x00] := by
  decide

theorem witness_ClassifierRowsAreDisjoint :
    (jumpLookup Params.standard 0x70).isSome = true ∧ jumpLookup Params.standard 0xE3 = some .jcxz ∧
    (maskRows.zip [0x8B, 0xBF, 0x80, 0x3B, 0x3D]).all (fun x => x.1.hits x.2) = true ∧
    jumpLookup Params.standard 0xFF = none ∧ (∀ r ∈ maskRows, r.hits 0xFF = false) := by decide

theorem witness_FirstByteMap : Params.standard.jumpTable = JumpOp.all := rfl

/-- Every class of byte that the statement admits, with the premise that it adds for that class. -/
theorem witness_NoOtherEncodingIsIllegal :
    4 ≤ [(0 : Byte), 0, 0, 0].length ∧
    classify Params.standard 0x88 = .movRegMem ∧ classify Params.standard 0xBF = .movImmReg ∧
    classify Params.standard 0x70 = .jumpOrLoop .jo ∧
    classify Params.standard 0x3B = .arithRegMem ∧ (arithOp (midField 0x3B)).isSome = true ∧
    classify Params.standard 0x2D = .arithImmAcc ∧ (arithOp (midField 0x2D)).isSome = true ∧
    classify Params.standard 0x83 = .arithImmRm ∧ (arithOp (midField 0xF8)).isSome = true := by decide

/-- The shortest and the longest instruction. -/
theorem witness_LengthByClass :
    decode Params.standard [0x74, 0x05] = .instr (.je 0x05) [] ∧
    decode Params.standard [0x80, 0x81, 0x34, 0x12, 0x78, 0x56, 0x90] =
      .instr (.addImmRm 0 (.mem16 1 0x1234) (.imm16 0x5678)) [0x90] := by decide

theorem witness_DecodeIgnoresLaterBytes :
    decode Params.standard [0x75, 0xFD, 0x26] = .instr (.jne 0xFD) [0x26] ∧
    decode Params.standard [0x26, 0x00] = .reject .unsupportedOpcode [0x00] ∧
    decode Params.standard [0x80, 0xC8, 0x05] = .reject .unsupportedArithmeticOp [0x05] := by decide

theorem witness_StepRunsTheDecodedInstruction :
    (on [0x81, 0x6F, 0x02, 0x05]).atBoundary = true ∧
    WellFormed (on [0x81, 0x6F, 0x02, 0x05]).params (.subImmRm 1 (.mem8 7 2) (.sext8 5)) ∧
    (on [0x81, 0x6F, 0x02, 0x05]).Holds (encode (.subImmRm 1 (.mem8 7 2) (.sext8 5))) := by decide

theorem witness_TableWordRunsNext :
    State.reset.atBoundary = true ∧ State.reset.params = Params.standard ∧
    decodeTableWord 8 0x3F = none ∧ decodeTableWord 8 0x3B = some (.cmpRegMem true true 0 (.mem 0)) ∧
    decodeTableWord 16 0x833E = some (.cmpImmRm 3 (.direct 0) (.imm8 0)) := by decide

/-- Each displacement length. -/
theorem witness_RegMemFormsEmitTheirRecord :
    (on [0, 0]).atBoundary = true ∧ (on [0, 0]).HasBytes (2 + (Rm.mem 7).dispLen) ∧
    (on [0, 0, 0]).HasBytes (2 + (Rm.mem8 6 0xFF).dispLen) ∧
    (on [0, 0, 0, 0]).HasBytes (2 + (Rm.direct 0xFFFF).dispLen) := by decide

theorem witness_MovImmRegEmitsItsRecord :
    (on [0xB0, 0xFF]).atBoundary = true ∧ (on [0xB0, 0xFF]).HasBytes 2 ∧
    (on [0xBF, 0xFF, 0xFF]).HasBytes 3 := by decide

theorem witness_ImmRmFormsEmitTheirRecord :
    (on [0, 0, 0]).atBoundary = true ∧ (on [0, 0, 0]).HasBytes (2 + (Rm.reg 0).dispLen + (Imm.sext8 0x80).len) ∧
    (on [0, 0, 0, 0, 0, 0]).HasBytes (2 + (Rm.mem16 1 0).dispLen + (Imm.imm16 0xFFFF).len) := by decide

theorem witness_ImmAccFormsEmitTheirRecord :
    (on [0x3C, 0x80]).atBoundary = true ∧ (on [0x3C, 0x80]).HasBytes 2 ∧
    (on [0x05, 0xFF, 0xFF]).HasBytes 3 := by decide

theorem witness_ConditionalJumpsEmitTheirRecord :
    (on [0x74, 0xFE]).atBoundary = true ∧ (on [0x74, 0xFE]).HasBytes 2 := by decide

theorem witness_LoopFormsEmitTheirRecord :
    (on [0xE3, 0x80]).atBoundary = true ∧ (on [0xE3, 0x80]).HasBytes 2 := by decide

/-- The addressing bytes at the ends of each clause's range. -/
theorem witness_RegMemBytesToRecord :
    (on [0x8B, 0xC0]).atBoundary = true ∧ (0x8B : Byte) &&& 0xFC = 0x88 ∧
    ((0x00 : Byte) &&& 0xC4 = 0x00 ∧ (0x00 : Byte).extractLsb' 3 3 = 0b000#3) ∧
    ((0x2B : Byte) &&& 0xC4 = 0x00 ∧ (0x2B : Byte).extractLsb' 3 3 = 0b101#3) ∧
    ((0x39 : Byte) &&& 0xC4 = 0x00 ∧ (0x39 : Byte).extractLsb' 3 3 = 0b111#3 ∧
      (on [0x39, 0xD8]).Holds [0x39, 0xD8]) ∧
    (0xC0 ≤ (0xC0 : Byte).toNat ∧ (on [0x8B, 0xC0]).Holds [0x8B, 0xC0]) ∧
    ((0x3E : Byte).toNat < 0x40 ∧ (0x3E : Byte).extractLsb' 0 3 = (6 : BitVec 3) ∧
      (on [0x8B, 0x3E, 0xFF, 0xFF]).Holds [0x8B, 0x3E, 0xFF, 0xFF]) ∧
    ((0x3F : Byte).toNat < 0x40 ∧ (0x3F : Byte).extractLsb' 0 3 ≠ (6 : BitVec 3) ∧
      (on [0x8B, 0x3F]).Holds [0x8B, 0x3F]) ∧
    (0x40 ≤ (0x40 : Byte).toNat ∧ (0x40 : Byte).toNat < 0x80 ∧ (0x7F : Byte).toNat < 0x80 ∧
      (on [0x8B, 0x7F, 0xFF]).Holds [0x8B, 0x7F, 0xFF]) ∧
    (0x80 ≤ (0x80 : Byte).toNat ∧ (0xBF : Byte).toNat < 0xC0 ∧
      (on [0x88, 0x80, 0x00, 0x80]).Holds [0x88, 0x80, 0x00, 0x80]) := by decide

theorem witness_ImmediateBytesToRecord :
    ((on [0xB7, 0xFF]).atBoundary = true ∧ (0xB7 : Byte) &&& 0xF0 = 0xB0 ∧ (0xB7 : Byte).getLsbD 3 = false ∧
      (on [0xB7, 0xFF]).Holds [0xB7, 0xFF]) ∧
    ((0xB8 : Byte) &&& 0xF0 = 0xB0 ∧ (0xB8 : Byte).getLsbD 3 = true ∧
      (on [0xB8, 0xFF, 0xFF]).Holds [0xB8, 0xFF, 0xFF]) ∧
    ((0x04 : Byte) &&& 0xC6 = 0x04 ∧ (0x04 : Byte).extractLsb' 3 3 = 0b000#3 ∧ (0x04 : Byte).getLsbD 0 = false ∧
      (on [0x04, 0x80]).Holds [0x04, 0x80]) ∧
    ((0x2C : Byte) &&& 0xC6 = 0x04 ∧ (0x2C : Byte).extractLsb' 3 3 = 0b101#3) ∧
    ((0x3D : Byte) &&& 0xC6 = 0x04 ∧ (0x3D : Byte).extractLsb' 3 3 = 0b111#3 ∧ (0x3D : Byte).getLsbD 0 = true ∧
      (on [0x3D, 0x00, 0x01]).Holds [0x3D, 0x00, 0x01]) := by decide

/-- The first and the last byte of the table, held; and one that a smaller table lacks. -/
theorem witness_JumpBytesToRecord :
    (on [0x70, 0x80]).atBoundary = true ∧
    (JumpOp.jo ∈ (on [0x70, 0x80]).params.jumpTable ∧ (on [0x70, 0x80]).Holds [0x70, 0x80]) ∧
    (JumpOp.jcxz ∈ (on [0xE3, 0x7F]).params.jumpTable ∧ (on [0xE3, 0x7F]).Holds [0xE3, 0x7F]) ∧
    (JumpOp.jne ∉ { on [0x75] with params := { Params.standard with jumpTable := [.je] } }.params.jumpTable ∧
      (on [0x75]).Holds [0x75]) := by decide

theorem witness_SecondIgnoresOpcodeLowBits :
    (on [0x80, 0xC1, 0x05, 0x00]).params.swByte = .second ∧
    (on [0x80, 0xC1, 0x05, 0x00]).atBoundary = true ∧
    (0x80 : Byte) &&& 0xFC = 0x80 ∧ (0x83 : Byte) &&& 0xFC = 0x80 ∧ [(0xC1 : Byte), 0x05, 0x00].length ≤ 5 ∧
    (on [0x80, 0xC1, 0x05, 0x00]).HoldsOnly (0x80 :: [0xC1, 0x05, 0x00]) ∧
    on [0x83, 0xC1, 0x05, 0x00] =
      { on [0x80, 0xC1, 0x05, 0x00] with src := (on [0x83, 0xC1, 0x05, 0x00]).src } ∧
    (on [0x83, 0xC1, 0x05, 0x00]).HoldsOnly (0x83 :: [0xC1, 0x05, 0x00]) := by decide

/-- Each clause under each parameter: 0x7F and 0x80 are the ends of the two sign cases. -/
theorem witness_ImmediateWidthAndSignExtension :
    (on [0x80, 0xC0, 0x80, 0]).atBoundary = true ∧ (0x80 : Byte) &&& 0xFC = 0x80 ∧ (0xC3 : Byte) &&& 0xC0 = 0xC0 ∧
    (0xC3 : Byte).extractLsb' 3 3 = 0b000#3 ∧ (0xEB : Byte).extractLsb' 3 3 = 0b101#3 ∧
    (0xFB : Byte).extractLsb' 3 3 = 0b111#3 ∧ (0xFB : Byte) &&& 0xC0 = 0xC0 ∧
    ((on [0x80, 0xC0, 0x80, 0]).Holds [0x80, 0xC0, 0x80, 0] ∧ (0xC0 : Byte).getLsbD 0 = false) ∧
    ((on [0x80, 0xC3, 0x7F, 0]).Holds [0x80, 0xC3, 0x7F, 0] ∧ (0xC3 : Byte).getLsbD 0 = true ∧
      (0xC3 : Byte).getLsbD 1 = true ∧ (0x7F : Byte).toNat < 128) ∧
    ((on [0x80, 0xC3, 0x80, 0]).Holds [0x80, 0xC3, 0x80, 0] ∧ 128 ≤ (0x80 : Byte).toNat) ∧
    ((on [0x80, 0xC1, 0xFF, 0xFF]).Holds [0x80, 0xC1, 0xFF, 0xFF] ∧ (0xC1 : Byte).getLsbD 0 = true ∧
      (0xC1 : Byte).getLsbD 1 = false) ∧
    ((onFirst [0x83, 0xC0, 0x80, 0]).atBoundary = true ∧
      (onFirst [0x83, 0xC0, 0x80, 0]).Holds [0x83, 0xC0, 0x80, 0] ∧
      (0x83 : Byte).getLsbD 0 = true ∧ (0x83 : Byte).getLsbD 1 = true ∧ (0x81 : Byte).getLsbD 1 = false ∧
      (0x80 : Byte).getLsbD 0 = false) := by decide

theorem witness_UnsupportedOpcodeEndsTheRun :
    (on [0x26, 0x00]).atBoundary = true ∧ (on [0x26, 0x00]).Holds [0x26] ∧
    classify (on [0x26, 0x00]).params 0x26 = .unsupported := by decide

theorem witness_InvalidSubopEndsTheRunAtOnce :
    (on [0x08]).atBoundary = true ∧
    ((0x08 : Byte) &&& 0xC4 = 0x00 ∧ (0x08 : Byte).extractLsb' 3 3 ∉ [0b000#3, 0b101#3, 0b111#3] ∧
      (on [0x08]).Holds [0x08]) ∧
    ((0x35 : Byte) &&& 0xC6 = 0x04 ∧ (0x35 : Byte).extractLsb' 3 3 ∉ [0b000#3, 0b101#3, 0b111#3] ∧
      (on [0x35]).Holds [0x35]) ∧
    ((0x83 : Byte) &&& 0xFC = 0x80 ∧ (0xF0 : Byte).extractLsb' 3 3 ∉ [0b000#3, 0b101#3, 0b111#3] ∧
      (on [0x83, 0xF0]).Holds [0x83, 0xF0]) := by decide

/-- The first and the last place where a stream can stop inside a six-byte instruction, for both ends. -/
theorem witness_StreamEndInsideInstruction :
    (on [0x80]).atBoundary = true ∧ (onFailing [0x80]).atBoundary = true ∧
    WellFormed (on [0x80]).params (.addImmRm 0 (.mem16 1 0x1234) (.imm16 0x5678)) ∧
    5 < instrLength (.addImmRm 0 (.mem16 1 0x1234) (.imm16 0x5678)) ∧
    (on [0x80]).HoldsOnly ((encode (.addImmRm 0 (.mem16 1 0x1234) (.imm16 0x5678))).take 1) ∧
    (onFailing [0x80, 0x81, 0x34, 0x12, 0x78]).HoldsOnly
      ((encode (.addImmRm 0 (.mem16 1 0x1234) (.imm16 0x5678))).take 5) := by decide

theorem witness_StreamEndAtBoundary :
    (on []).atBoundary = true ∧ (on []).src.read (on []).cur = none ∧ (on []).srcEnd = .clean ∧
    (onFailing []).atBoundary = true ∧ (onFailing []).src.read (onFailing []).cur = none ∧
    (onFailing []).srcEnd = .error ∧
    nextHas (step (on [])) (fun t => t.phase == .halted .done) = true := by decide

/-- A halted state, and a tick that changes the status. -/
theorem witness_HaltedTakesNoStep :
    { on [] with phase := .halted .done }.phase = .halted .done ∧
    { on [] with phase := .halted .done }.driver.aborted = false ∧
    nextHas (tick { on [] with due := some .done })
      (fun t => t.phase.status != { on [] with due := some Halt.done }.phase.status) = true := by decide

/-- The record that the simulator fails, the one before it, and non-executing mode. -/
theorem witness_SimulatorErrorEndsTheRun :
    nextHas (exec (.je 5) (onExecuting [0x74, 5] (some 0))) (fun t => t.phase == .boundary) = true ∧
    (onExecuting [0x74, 5] (some 0)).driver.simFailsAt = some (recordsOf []).length ∧
    nextHas (exec (.je 5) (onExecuting [0x74, 5] (some 1))) (fun t => t.phase == .boundary) = true ∧
    (onExecuting [0x74, 5] (some 1)).driver.simFailsAt ≠ some (recordsOf []).length ∧
    nextHas (exec (.je 5) (on [0x74, 5])) (fun t => t.phase == .boundary) = true ∧
    (on [0x74, 5]).driver.executing = false := by decide

/-- A record and an error. -/
theorem witness_ExecFrame :
    nextHas (exec (.je 5) (on [0x74, 5])) (fun t => t.cur == 2) = true ∧
    nextHas (exec (.je 5) (on [0x74])) (fun t => t.phase == .halted (.fail .truncatedStream)) = true := by decide

theorem witness_TickFrame :
    nextHas (tick (on [0x74, 5])) (fun t => t.cur == 1) = true ∧
    nextHas (tick { on [] with due := some .done }) (fun t => t.out == [.done]) = true := by decide

/-- A record, each error that reads nothing more, and an end that depends on the next read. -/
theorem witness_StepDependsOnItsBytesOnly :
    (on [0x74, 5, 0]).atBoundary = true ∧
    nextHas (step (on [0x74, 5, 0])) (fun t => t.phase == .boundary && t.cur == 2) = true ∧
    nextHas (step (on [0x26])) (fun t => t.phase == .halted (.fail .unsupportedOpcode)) = true ∧
    nextHas (step (on [0x08])) (fun t => t.phase == .halted (.fail .unsupportedArithmeticOp)) = true ∧
    nextHas (step (on [0x74])) (fun t => t.cur == 1 && (on [0x74]).src.read t.cur == none) = true := by decide

/-- Two ticks and seven. -/
theorem witness_TicksOfADecodeCall :
    (on []).atBoundary = true ∧ nextHas (step (on [])) (fun t => t.out == [.done]) = true ∧
    (on [0x80, 0x81, 0x34, 0x12, 0x78, 0x56]).atBoundary = true ∧
    nextHas (step (on [0x80, 0x81, 0x34, 0x12, 0x78, 0x56])) (fun t => t.phase == .boundary && t.cur == 6) =
      true := by decide

/-- One instruction of each format and class. -/
theorem witness_ContextWhenFormatting :
    (on [0x88, 0x06, 0x34, 0x12]).atBoundary = true ∧
    (WellFormed Params.standard (.movRegMem false false 0 (.direct 0x1234)) ∧
      (on [0x88, 0x06, 0x34, 0x12]).Holds (encode (.movRegMem false false 0 (.direct 0x1234)))) ∧
    (WellFormed Params.standard (.subRegMem true true 7 (.mem8 6 0x80)) ∧
      (on [0x2B, 0x7E, 0x80]).Holds (encode (.subRegMem true true 7 (.mem8 6 0x80)))) ∧
    (WellFormed Params.standard (.movImmReg 7 (.imm8 0xFF)) ∧
      (on [0xB7, 0xFF]).Holds (encode (.movImmReg 7 (.imm8 0xFF)))) ∧
    (WellFormed Params.standard (.cmpImmRm 0 (.mem8 3 0xFF) (.sext8 0x80)) ∧
      (on [0x80, 0x7B, 0xFF, 0x80]).Holds (encode (.cmpImmRm 0 (.mem8 3 0xFF) (.sext8 0x80)))) ∧
    (WellFormed Params.standard (.subImmAcc (.imm16 0xFFFF)) ∧
      (on [0x2D, 0xFF, 0xFF]).Holds (encode (.subImmAcc (.imm16 0xFFFF)))) ∧
    (WellFormed Params.standard (.jcxz 0x80) ∧ (on [0xE3, 0x80]).Holds (encode (.jcxz 0x80))) := by decide

/-- The invariant of a state with a byte stream, before its first call. -/
theorem inv_on : Inv (on [0x80, 0xC1, 0x05]) :=
  ⟨by decide, by decide, by decide, by decide, by decide, by decide, by decide, by decide, by decide, by decide,
    by decide⟩

/-- The state inside `80 C1 05` after its second byte: the immediate is due. -/
def midCall : State :=
  { on [0x80, 0xC1, 0x05] with
    cur := 2
    phase := .needImm .first
    ctx := { opClass := some .arithImmRm, s := some false, w := some true, mod := some 3, rm := some 1,
             subop := some 0, memMode := some false, direct := some false, dispWidth := some .w0 } }

theorem inv_midCall : Inv midCall :=
  ⟨by decide, by decide, by decide, by decide, by decide, by decide, by decide, by decide, by decide, by decide,
    by decide⟩

theorem witness_ContextFieldsAreWrittenOnce :
    Inv midCall ∧ nextHas (tick midCall) (fun t => t.out == midCall.out && t.ctx != midCall.ctx) = true :=
  ⟨inv_midCall, by decide⟩

theorem witness_NoUnwrittenFieldIsRead :
    Inv midCall ∧ midCall.driver.aborted = false ∧ midCall.phase.status = .running :=
  ⟨inv_midCall, by decide⟩

/-- A step from a boundary and one from inside a call. -/
theorem witness_StepKeepsTheInvariant :
    Inv (on [0x80, 0xC1, 0x05]) ∧ nextHas (step (on [0x80, 0xC1, 0x05])) (fun t => t.cur == 3) = true ∧
    Inv midCall ∧ nextHas (step midCall) (fun t => t.cur == 3) = true :=
  ⟨inv_on, by decide, inv_midCall, by decide⟩

theorem witness_TickKeepsTheInvariant :
    Inv midCall ∧ nextHas (tick midCall) (fun t => t.cur == 3) = true := ⟨inv_midCall, by decide⟩

theorem witness_RunningDecoderSteps :
    Inv (on [0x80, 0xC1, 0x05]) ∧ (on [0x80, 0xC1, 0x05]).driver.aborted = false ∧
    (on [0x80, 0xC1, 0x05]).phase.status = .running := ⟨inv_on, by decide⟩

theorem witness_RunEndsWithinBytesPlusOneCalls :
    Inv (on [0x80, 0xC1, 0x05]) ∧ (on [0x80, 0xC1, 0x05]).atBoundary = true ∧
    (on [0x80, 0xC1, 0x05]).src.tail = .ends := ⟨inv_on, by decide⟩

/-- Two instructions, and a state with bytes for the inner clause. -/
theorem witness_RunEmitsTheRecordsInOrder :
    (on [0xB8, 0x05, 0x00, 0x75, 0xFD]).atBoundary = true ∧
    (on [0xB8, 0x05, 0x00, 0x75, 0xFD]).srcEnd = .clean ∧
    (on [0xB8, 0x05, 0x00, 0x75, 0xFD]).driver.executing = false ∧
    (∀ i ∈ [Instr.movImmReg 0 (.imm16 5), .jne 0xFD],
      WellFormed (on [0xB8, 0x05, 0x00, 0x75, 0xFD]).params i) ∧
    (on [0xB8, 0x05, 0x00, 0x75, 0xFD]).HoldsOnly
      ([Instr.movImmReg 0 (.imm16 5), .jne 0xFD].flatMap encode) ∧
    (on [0, 0, 0]).HasBytes (instrLength (.movImmReg 0 (.imm16 5))) := by decide

/-- A stream with free bytes, and one of zeros. -/
theorem witness_EndlessStreamNeverRunsOut :
    (Inv (onEndless [] (.unbounded 0)) ∧ (onEndless [] (.unbounded 0)).atBoundary = true ∧
      (onEndless [] (.unbounded 0)).src.tail ≠ .ends) ∧
    Inv (onEndless [] (.constant 0)) ∧ (onEndless [] (.constant 0)).src.tail ≠ .ends :=
  ⟨⟨⟨by decide, by decide, by decide, by decide, by decide, by decide, by decide, by decide, by decide, by decide,
    by decide⟩, by decide⟩, ⟨by decide, by decide, by decide, by decide, by decide, by decide, by decide, by decide,
    by decide, by decide, by decide⟩, by decide⟩

/-- Any run of a stream of zeros is zeros. -/
theorem bytesFrom_zeros (n a : Nat) :
    (onEndless [] (.constant 0)).src.bytesFrom n a = List.replicate n 0 := by
  induction n generalizing a with
  | zero => rfl
  | succ n ih => exact (Memory.bytesFrom_cons ..).2 ⟨rfl, ih (a + 1)⟩

/-- `add [bx+si], al` for ever. -/
theorem witness_EndlessCodeRunsForEver :
    (onEndless [] (.constant 0)).atBoundary = true ∧ (onEndless [] (.constant 0)).driver.executing = false ∧
    ∀ n : Nat, ∃ is : List Instr, is.length = n ∧
      (∀ i ∈ is, WellFormed (onEndless [] (.constant 0)).params i) ∧
      (onEndless [] (.constant 0)).Holds (is.flatMap encode) := by
  refine ⟨by decide, by decide, fun n => ⟨List.replicate n (.addRegMem false false 0 (.mem 0)), by simp, ?_, ?_⟩⟩
  · intro i hi
    obtain rfl := (List.mem_replicate.1 hi).2
    decide
  · have h : ∀ n : Nat, (List.replicate n (Instr.addRegMem false false 0 (.mem 0))).flatMap encode =
        List.replicate (2 * n) 0 := by
      intro n
      induction n with
      | zero => rfl
      | succ n ih =>
        rw [List.replicate_succ, List.flatMap_cons, ih, show 2 * (n + 1) = 2 * n + 1 + 1 by omega,
          List.replicate_succ, List.replicate_succ]
        rfl
    rw [State.Holds, h, bytesFrom_zeros]
    simp

/-- A line of two operands, a line of one, and an end. -/
theorem witness_PrintedTextGrowsByLines :
    (on [0x89, 0xC0]).driver.executing = false ∧ (on [0x89, 0xC0]).atBoundary = true ∧
    nextHas (step (on [0x89, 0xC0])) (fun t => printedText t == "bits 16\nmov ax, ax\n") = true ∧
    nextHas (step (on [0x74, 0xFE])) (fun t => printedText t == "bits 16\nje $+0\n") = true ∧
    nextHas (step (on [])) (fun t => printedText t == "bits 16\n") = true := by decide

/-- A record, a clean end and an error in executing mode. -/
theorem witness_ExecutingModeHandsRecordsOver :
    (onExecuting [0x89, 0xC0] none).driver.executing = true ∧ (onExecuting [0x89, 0xC0] none).atBoundary = true ∧
    nextHas (step (onExecuting [0x89, 0xC0] none))
      (fun t => simCalls t == [.execute ⟨"mov", ["ax", "ax"]⟩]) = true ∧
    nextHas (step (onExecuting [] none)) (fun t => simCalls t == [.renderFinalState]) = true ∧
    nextHas (step (onExecuting [0x26] none)) (fun t => simCalls t == []) = true := by decide

end Sys2Proof.Tests
end

/-! ## The invariant from tick to tick (10_state R24 to R30, R47, R52, R53) -/

namespace Sys2Proof.Machine

/-! ### What the invariant says of a running decoder -/

/-- Only a halted phase goes with a terminal event (R22). -/
theorem terminalOf_running {p : Phase} (h : p.status = .running) : terminalOf p = [] := by
  cases p with
  | halted x => cases h
  | _ => rfl

/-- A running phase is not a halted one (R52). -/
theorem status_of_halted {p : Phase} {h : Halt} (hp : p = .halted h) : p.status ≠ .running := by
  rw [hp]; exact nofun

/-- While the driver has not ended the run, its shape is a bound on the records (R247). -/
theorem driverShape_live {s : State} (ha : s.driver.aborted = false) :
    driverShape s = true ↔
      (s.driver.executing = true → ∀ n, s.driver.simFailsAt = some n → (recordsOf s.out).length ≤ n) := by
  unfold driverShape
  cases s.driver.executing <;> cases s.driver.simFailsAt <;> simp [ha]

/-- The shape of the driver does not turn on the phase, the context or the cursor of a run that goes on. -/
theorem driverShape_congr {s t : State} (ha : s.driver.aborted = false) (hd : t.driver = s.driver)
    (hr : recordsOf t.out = recordsOf s.out) (h : driverShape s = true) : driverShape t = true := by
  rw [driverShape_live (by rw [hd]; exact ha), hd, hr]
  exact (driverShape_live ha).1 h

/-- A driver that has ended the run stands at a boundary with nothing due, so no call is under way (R247). -/
theorem Inv.not_aborted {s : State} (hI : Inv s) (hc : callOver s = false) : s.driver.aborted = false := by
  by_contra ha
  have ha : s.driver.aborted = true := by simpa using ha
  have hsh := hI.driver_shape
  unfold driverShape at hsh
  split at hsh
  · simp only [ha, if_true, Bool.and_eq_true, beq_iff_eq] at hsh
    obtain ⟨⟨-, hp⟩, hd⟩ := hsh
    simp [callOver, hp, hd] at hc
  · simp [ha] at hsh

/-- A call under way is one of a running decoder (R52). -/
theorem running_of_callOver {s : State} (hc : callOver s = false) : s.phase.status = .running := by
  cases hp : s.phase with
  | halted h => simp [callOver, hp] at hc
  | _ => rfl

/-- From a running state of the invariant with nothing due the work of the phase succeeds (R47). -/
theorem Inv.tickKeepsReady {s : State} (hI : Inv s) (hr : s.phase.status = .running) (hd : s.due = none) :
    TickKeepsReady s :=
  tickPhase_ready hd hr (hI.ctx_ready hd)

/-! ### Each kind of tick keeps the invariant -/

/-- The delivery of the terminal event that is due (R22, R237). -/
theorem inv_terminate {s : State} {x : Halt} (hI : Inv s) (ha : s.driver.aborted = false)
    (hr : s.phase.status = .running) (hd : s.due = some x) : Inv (terminate x s) where
  params_wf := hI.params_wf
  src_wf := hI.src_wf
  cur_le := hI.cur_le
  endless_clean := hI.endless_clean
  start_le := hI.start_le
  out_shape := by
    have ho := hI.out_shape
    rw [terminalOf_running hr, List.append_nil] at ho
    simp [terminalOf, ← ho]
  records_shape := by simpa using hI.records_shape
  ctx_ready := fun _ => by simp [phaseReady]
  due_running := by simp
  done_clean := by
    rintro (h | h)
    · simp at h
    · obtain rfl : x = .done := by simpa using h
      exact hI.done_clean (.inl hd)
  driver_shape := driverShape_congr ha rfl (by simp) hI.driver_shape

/-- A first read that finds no byte (R234, R235). -/
theorem inv_boundary_end {s : State} {x : Halt} (hI : Inv s) (ha : s.driver.aborted = false)
    (hp : s.phase = .boundary) : Inv (setDue x (beginCall s)) where
  params_wf := hI.params_wf
  src_wf := hI.src_wf
  cur_le := hI.cur_le
  endless_clean := hI.endless_clean
  start_le := Nat.le_refl _
  out_shape := hI.out_shape
  records_shape := hI.records_shape
  ctx_ready := by simp
  due_running := fun _ => by simp [hp, Phase.status]
  done_clean := fun _ => rfl
  driver_shape := driverShape_congr ha rfl rfl hI.driver_shape

/-- A read inside an instruction that finds no byte is never a clean end (R232, R234). -/
theorem inv_inside_end {s : State} (hI : Inv s) (ha : s.driver.aborted = false)
    (hr : s.phase.status = .running) : Inv (setDue (endHalt s.srcEnd 1) s) where
  params_wf := hI.params_wf
  src_wf := hI.src_wf
  cur_le := hI.cur_le
  endless_clean := hI.endless_clean
  start_le := hI.start_le
  out_shape := hI.out_shape
  records_shape := hI.records_shape
  ctx_ready := by simp
  due_running := fun _ => hr
  done_clean := by
    rintro (h | h)
    · cases he : s.srcEnd <;> simp [endHalt, he] at h
    · exact absurd hr (status_of_halted h)
  driver_shape := driverShape_congr ha rfl rfl hI.driver_shape

/-- A tick that consumes a byte, where it leaves a ready context (R27, R30). -/
theorem inv_consumed {s t : State} {b : Byte} (hI : Inv s) (ha : s.driver.aborted = false)
    (hr : s.phase.status = .running) (hd : s.due = none) (hb : s.src.read s.cur = some b)
    (hc : Consumed s t) (hk : KeepsReady s.params s.ctx t) : Inv t := by
  obtain ⟨start, ctx, phase, due, rfl, hrun, hdue, hst, hst'⟩ := hc
  obtain ⟨-, -, hready⟩ := hk
  exact {
    params_wf := hI.params_wf
    src_wf := hI.src_wf
    cur_le := fun he => (Memory.read_isSome_iff s.src s.cur he hI.src_wf).1 (by rw [hb]; rfl)
    endless_clean := hI.endless_clean
    start_le := by
      have hle := hI.start_le
      by_cases hp : s.phase = .boundary
      · rw [hst hp]; exact Nat.le_succ _
      · rw [hst' hp]; exact Nat.le_succ_of_le hle
    out_shape := by
      have ho := hI.out_shape
      rwa [terminalOf_running hr, ← terminalOf_running hrun] at ho
    records_shape := hI.records_shape
    ctx_ready := hready
    due_running := fun _ => hrun
    done_clean := by
      rintro (h | h)
      · rcases hdue with h' | ⟨k, h'⟩
        · simp [h', hd] at h
        · simp [h'] at h
      · exact absurd hrun (status_of_halted h)
    driver_shape := driverShape_congr ha rfl rfl hI.driver_shape }

/-- The hand-off of a record keeps the driver's shape (R247). -/
theorem driverShape_emitRecord {s : State} (r : Record) (ha : s.driver.aborted = false) (hd : s.due = none)
    (h : driverShape s = true) : driverShape (emitRecord r s) = true := by
  have hle := (driverShape_live ha).1 h
  unfold driverShape
  simp only [emitRecord_driver, handOff_executing, handOff_simFailsAt, handOff_aborted, ha, Bool.false_or]
  cases he : s.driver.executing with
  | false => simp
  | true =>
    cases hf : s.driver.simFailsAt with
    | none => simp
    | some n =>
      have := hle he n hf
      by_cases hn : n = (recordsOf s.out).length
      · simp [hn, hd]
      · simp [hn]; omega

/-- A record that goes out (R51). -/
theorem inv_emitRecord {s : State} {r : Record} (hI : Inv s) (ha : s.driver.aborted = false)
    (hp : s.phase = .format) (hd : s.due = none) (hs : recordShape r = true) : Inv (emitRecord r s) where
  params_wf := hI.params_wf
  src_wf := hI.src_wf
  cur_le := hI.cur_le
  endless_clean := hI.endless_clean
  start_le := hI.start_le
  out_shape := by
    have ho := hI.out_shape
    rw [hp, terminalOf_running rfl, List.append_nil] at ho
    simp [terminalOf, ← ho]
  records_shape := by
    have hall := hI.records_shape
    rw [emitRecord_out, recordsOf_append, recordsOf_emit, List.all_append, hall]
    simp [hs]
  ctx_ready := fun _ => by simp [phaseReady]
  due_running := fun h => absurd hd h
  done_clean := by simp [hd]
  driver_shape := driverShape_emitRecord r ha hd hI.driver_shape

/-- The work of a phase that answers a next state has kept the context ready, unless a record went out. -/
theorem Inv.keepsReady {s t : State} (hI : Inv s) (hr : s.phase.status = .running) (hd : s.due = none)
    (h : tickPhase s = .ok t) (ho : t.out = s.out) : KeepsReady s.params s.ctx t := by
  obtain ⟨u, hu, hk⟩ := hI.tickKeepsReady hr hd
  obtain rfl : t = u := Except.ok.inj (h.symm.trans hu)
  exact hk ho

/-- Settles O38: each kind of tick that `tick_cases` and `tickPhase_cases` list keeps the invariant. -/
theorem tickKeepsTheInvariant : Obligations.TickKeepsTheInvariant := by
  unfold Obligations.TickKeepsTheInvariant
  intro s t hI h
  obtain ⟨ha, hr, ⟨x, hd, rfl⟩ | ⟨hd, hw⟩⟩ := tick_cases h
  · exact inv_terminate hI ha hr hd
  · obtain ⟨-, -, ⟨hp, rfl⟩ | ⟨-, rfl⟩⟩ | ⟨b, hb, -, hc⟩ | ⟨hp, r, hf, rfl⟩ := tickPhase_cases hw
    · exact inv_boundary_end hI ha hp
    · exact inv_inside_end hI ha hr
    · have ho : t.out = s.out := by obtain ⟨_, _, _, _, rfl, -⟩ := hc; rfl
      exact inv_consumed hI ha hr hd hb hc (hI.keepsReady hr hd hw ho)
    · have hready := hI.ctx_ready hd
      rw [hp] at hready
      obtain ⟨r', hf', hs⟩ := formatRecord_ok hready
      obtain rfl : r = r' := Except.ok.inj (hf.symm.trans hf')
      exact inv_emitRecord hI ha hp hd hs

/-- Settles O36: what is due is delivered, and the work of a phase succeeds on a ready context. -/
theorem noUnwrittenFieldIsRead : Obligations.NoUnwrittenFieldIsRead := by
  unfold Obligations.NoUnwrittenFieldIsRead
  intro s hI ha hr
  cases hd : s.due with
  | some x => exact ⟨_, tick_due ha hr hd⟩
  | none =>
    obtain ⟨t, ht, -⟩ := hI.tickKeepsReady hr hd
    exact ⟨t, tick_of_phase ha hd ht⟩

/-- Settles O35: a tick without an event does the work of a phase, which extends the context. -/
theorem contextFieldsAreWrittenOnce : Obligations.ContextFieldsAreWrittenOnce := by
  unfold Obligations.ContextFieldsAreWrittenOnce
  intro s t hI h ho
  obtain ⟨-, hr, ⟨x, -, rfl⟩ | ⟨hd, hw⟩⟩ := tick_cases h
  · simp at ho
  · obtain ⟨-, hext, -⟩ := hI.keepsReady hr hd hw ho
    exact hext

/-! ## The name tables and the halted decoder (10_state R40, R41, R52) -/

/-- Settles O3: each of the eight codes in turn. -/
theorem nameTables : Obligations.NameTables := by
  unfold Obligations.NameTables
  refine ⟨?_, ?_, ?_⟩ <;> decide

/-- A halted decoder takes no tick (R22, R52). -/
theorem tick_halted {s : State} {h : Halt} (hp : s.phase = .halted h) :
    tick s = .fault (if s.driver.aborted then .driverAborted else .halted) := by
  unfold tick
  cases s.driver.aborted <;> simp [hp]

/-- A halted decoder takes no step (R22, R52). -/
theorem step_halted {s : State} {h : Halt} (hp : s.phase = .halted h) :
    step s = .fault (if s.driver.aborted then .driverAborted else .halted) := by
  simp [step, halted_not_boundary hp, maxTicks, finishCall, tick_halted hp]

/-- No meaning begins a call in a halted decoder (R22, R52). -/
theorem exec_halted {s : State} {h : Halt} (hp : s.phase = .halted h) (i : Instr) :
    exec i s = .fault (if s.driver.aborted then .driverAborted else .halted) := by
  obtain ⟨r, -, hi⟩ := exec_is_runCall i
  rw [hi]
  cases ha : s.driver.aborted <;> simp [runCall, callBlocked, ha, hp]

/-- A tick that delivers no terminal event leaves a running phase (R25). -/
theorem tickPhase_running {s t : State} (hr : s.phase.status = .running) (h : tickPhase s = .ok t) :
    t.phase.status = .running := by
  obtain ⟨-, -, ⟨-, rfl⟩ | ⟨-, rfl⟩⟩ | ⟨b, -, -, hc⟩ | ⟨-, r, -, rfl⟩ := tickPhase_cases h
  · exact hr
  · exact hr
  · obtain ⟨_, _, _, _, rfl, hrun, -⟩ := hc
    exact hrun
  · rfl

/-- Settles O27: a halted decoder faults, and of all ticks only the delivery of a terminal event changes the
status. -/
theorem haltedTakesNoStep : Obligations.HaltedTakesNoStep := by
  unfold Obligations.HaltedTakesNoStep
  refine ⟨rfl, fun s h hp t => ?_, fun s h ha hp => ?_, fun s t ht hne => ?_⟩
  · rw [step_halted hp, tick_halted hp]
    exact ⟨nofun, nofun, fun i => by rw [exec_halted hp]; exact nofun⟩
  · rw [step_halted hp, tick_halted hp, ha]
    exact ⟨rfl, rfl, fun i => by rw [exec_halted hp, ha]; rfl⟩
  · obtain ⟨-, hr, ⟨x, -, rfl⟩ | ⟨-, hw⟩⟩ := tick_cases ht
    · exact ⟨x, rfl, rfl⟩
    · exact absurd ((tickPhase_running hr hw).trans hr.symm) hne

end Sys2Proof.Machine

/-! ## The instructions by class: what the model's functions give for each (10_state R50, 30_encoding R104) -/

namespace Sys2Proof

/-- Every instruction is one of its class: the three arithmetic members and the twenty jump/loop variants are
parameters of four of the six formats (R91 to R95). -/
theorem Instr.byClass {motive : Instr → Prop}
    (movRegMem : ∀ d w reg rm, motive (.movRegMem d w reg rm))
    (arithRegMem : ∀ op d w reg rm, motive (.arithRegMem op d w reg rm))
    (movImmReg : ∀ reg imm, motive (.movImmReg reg imm))
    (arithImmRm : ∀ op low rm imm, motive (.arithImmRm op low rm imm))
    (arithImmAcc : ∀ op imm, motive (.arithImmAcc op imm))
    (jump : ∀ j off, motive (.jump j off)) (i : Instr) : motive i := by
  cases i with
  | movRegMem d w reg rm => exact movRegMem d w reg rm
  | addRegMem d w reg rm => exact arithRegMem .add d w reg rm
  | subRegMem d w reg rm => exact arithRegMem .sub d w reg rm
  | cmpRegMem d w reg rm => exact arithRegMem .cmp d w reg rm
  | movImmReg reg imm => exact movImmReg reg imm
  | addImmRm low rm imm => exact arithImmRm .add low rm imm
  | subImmRm low rm imm => exact arithImmRm .sub low rm imm
  | cmpImmRm low rm imm => exact arithImmRm .cmp low rm imm
  | addImmAcc imm => exact arithImmAcc .add imm
  | subImmAcc imm => exact arithImmAcc .sub imm
  | cmpImmAcc imm => exact arithImmAcc .cmp imm
  | jo off => exact jump .jo off
  | jno off => exact jump .jno off
  | jb off => exact jump .jb off
  | jnb off => exact jump .jnb off
  | je off => exact jump .je off
  | jne off => exact jump .jne off
  | jbe off => exact jump .jbe off
  | jnbe off => exact jump .jnbe off
  | js off => exact jump .js off
  | jns off => exact jump .jns off
  | jp off => exact jump .jp off
  | jnp off => exact jump .jnp off
  | jl off => exact jump .jl off
  | jnl off => exact jump .jnl off
  | jle off => exact jump .jle off
  | jnle off => exact jump .jnle off
  | loopnz off => exact jump .loopnz off
  | loopz off => exact jump .loopz off
  | loop off => exact jump .loop off
  | jcxz off => exact jump .jcxz off

section
variable (op : ArithOp) (d w : Bool) (reg : BitVec 3) (low : BitVec 2) (rm : Rm) (imm : Imm) (j : JumpOp)
  (off : Byte)

@[simp] theorem encode_arithRegMem :
    encode (.arithRegMem op d w reg rm) = arithRegMemOpcode op d w :: encodeRm reg rm := by cases op <;> rfl

@[simp] theorem encode_arithImmRm :
    encode (.arithImmRm op low rm imm) = arithImmRmOpcode low :: (encodeRm op.code rm ++ imm.bytes) := by
  cases op <;> rfl

@[simp] theorem encode_arithImmAcc :
    encode (.arithImmAcc op imm) = arithImmAccOpcode op imm.w :: imm.bytes := by cases op <;> rfl

@[simp] theorem encode_jump : encode (.jump j off) = [j.opcode, off] := by cases j <;> rfl

theorem wellFormed_arithRegMem {p : Params} : WellFormed p (.arithRegMem op d w reg rm) ↔ rm.wf = true := by
  cases op <;> exact Iff.rfl

theorem wellFormed_arithImmRm {p : Params} :
    WellFormed p (.arithImmRm op low rm imm) ↔ immRmWf p low rm imm = true := by
  cases op <;> exact Iff.rfl

theorem wellFormed_arithImmAcc {p : Params} : WellFormed p (.arithImmAcc op imm) ↔ imm.full = true := by
  cases op <;> exact Iff.rfl

theorem wellFormed_jump {p : Params} : WellFormed p (.jump j off) ↔ p.hasJump j = true := by
  cases j <;> exact Iff.rfl

@[simp] theorem instrLength_arithRegMem : instrLength (.arithRegMem op d w reg rm) = 2 + rm.dispLen := by
  cases op <;> rfl

@[simp] theorem instrLength_arithImmRm :
    instrLength (.arithImmRm op low rm imm) = 2 + rm.dispLen + imm.len := by cases op <;> rfl

@[simp] theorem instrLength_arithImmAcc : instrLength (.arithImmAcc op imm) = 1 + imm.len := by
  cases op <;> rfl

@[simp] theorem instrLength_jump : instrLength (.jump j off) = 2 := by cases j <;> rfl

end

/-- An encoding has the length of R104. -/
theorem length_encode (i : Instr) : (encode i).length = instrLength i := by
  cases i using Instr.byClass with
  | movRegMem d w reg rm => simp [encode, instrLength, encodeRm]; omega
  | arithRegMem op d w reg rm => rw [encode_arithRegMem, instrLength_arithRegMem]; simp [encodeRm]; omega
  | movImmReg reg imm => simp [encode, instrLength]; omega
  | arithImmRm op low rm imm => rw [encode_arithImmRm, instrLength_arithImmRm]; simp [encodeRm]; omega
  | arithImmAcc op imm => rw [encode_arithImmAcc, instrLength_arithImmAcc]; simp; omega
  | jump j off => rw [encode_jump, instrLength_jump]; rfl

/-- No instruction is shorter than two bytes or longer than six (R104). -/
theorem instrLength_bounds (i : Instr) : 2 ≤ instrLength i ∧ instrLength i ≤ maxLength := by
  cases i using Instr.byClass with
  | movRegMem d w reg rm => exact Laws.EncodedLength.ofRm rm
  | arithRegMem op d w reg rm => rw [instrLength_arithRegMem]; exact Laws.EncodedLength.ofRm rm
  | movImmReg reg imm => exact Laws.EncodedLength.ofImm imm
  | arithImmRm op low rm imm => rw [instrLength_arithImmRm]; exact Laws.EncodedLength.ofRmImm rm imm
  | arithImmAcc op imm => rw [instrLength_arithImmAcc]; exact Laws.EncodedLength.ofImm imm
  | jump j off => rw [instrLength_jump]; exact Laws.EncodedLength.ofJump

/-- Decoding an encoding gives the instruction back (R91 to R95). -/
theorem decode_encode {p : Params} {i : Instr} (rest : List Byte) (h : WellFormed p i) :
    decode p (encode i ++ rest) = .instr i rest := by
  cases i using Instr.byClass with
  | movRegMem d w reg rm =>
    simp only [decode, encode, List.cons_append, classify_movRegMem]
    rw [decodeRegMem_encodeRm _ _ _ _ _ h, dBit_movRegMem, wBit_movRegMem]
  | arithRegMem op d w reg rm =>
    rw [wellFormed_arithRegMem] at h
    simp only [decode, encode_arithRegMem, List.cons_append, classify_arithRegMem, midField_arithRegMem,
      arithOp_code]
    rw [decodeRegMem_encodeRm _ _ _ _ _ h, dBit_arithRegMem, wBit_arithRegMem]
  | movImmReg reg imm =>
    simp only [decode, encode, List.cons_append, classify_movImmReg, rmField_movImmReg, wBitImmReg_movImmReg]
    exact decodeFullImm_bytes _ _ _ h
  | arithImmRm op low rm imm =>
    rw [encode_arithImmRm]
    exact decode_arithImmRm p low rm imm op rest ((wellFormed_arithImmRm ..).1 h)
  | arithImmAcc op imm =>
    rw [wellFormed_arithImmAcc] at h
    simp only [decode, encode_arithImmAcc, List.cons_append, classify_arithImmAcc, midField_arithImmAcc,
      arithOp_code, wBit_arithImmAcc]
    exact decodeFullImm_bytes _ _ _ h
  | jump j off =>
    rw [wellFormed_jump] at h
    simp only [decode, encode_jump, List.cons_append, classify_jump h]
    rfl

/-- What decodes is well-formed, and the bytes consumed are its encoding (R91 to R95). -/
theorem decode_inv {p : Params} {bs rest : List Byte} {i : Instr} (h : decode p bs = .instr i rest) :
    WellFormed p i ∧ bs = encode i ++ rest := by
  cases bs with
  | nil => cases h
  | cons b1 tl =>
    obtain ⟨kMov, kMovImm, kImmRm, kArith, kAcc⟩ := opcode_of_class b1
    simp only [decode] at h
    cases hc : classify p b1 with
    | unsupported => simp [hc] at h
    | jumpOrLoop j =>
      obtain ⟨hj, rfl⟩ := classify_eq_jump.1 hc
      cases tl with
      | nil => simp [hc, decodeJump] at h
      | cons off tl =>
        simp only [hc, decodeJump, Decoded.instr.injEq] at h
        obtain ⟨rfl, rfl⟩ := h
        exact ⟨(wellFormed_jump ..).2 hj, by rw [encode_jump]; rfl⟩
    | movRegMem =>
      simp only [hc] at h
      obtain ⟨reg, rm, hw, rfl, rfl⟩ := decodeRegMem_inv h
      exact ⟨hw, congrArg (· :: _) (kMov (classifyMasked_of_classify hc nofun))⟩
    | arithRegMem =>
      cases ho : arithOp (midField b1) with
      | none => simp [hc, ho] at h
      | some op =>
        simp only [hc, ho] at h
        obtain ⟨reg, rm, hw, rfl, rfl⟩ := decodeRegMem_inv h
        have hb := kArith (classifyMasked_of_classify hc nofun) op ho
        exact ⟨(wellFormed_arithRegMem ..).2 hw, by rw [encode_arithRegMem, ← hb]; rfl⟩
    | movImmReg =>
      simp only [hc] at h
      obtain ⟨imm, hf, hw, rfl, rfl⟩ := decodeFullImm_inv h
      have hb := kMovImm (classifyMasked_of_classify hc nofun)
      exact ⟨hf, by rw [encode, hw, ← hb]; rfl⟩
    | arithImmAcc =>
      cases ho : arithOp (midField b1) with
      | none => simp [hc, ho] at h
      | some op =>
        simp only [hc, ho] at h
        obtain ⟨imm, hf, hw, rfl, rfl⟩ := decodeFullImm_inv h
        have hb := kAcc (classifyMasked_of_classify hc nofun) op ho
        exact ⟨(wellFormed_arithImmAcc ..).2 hf, by rw [encode_arithImmAcc, hw, ← hb]; rfl⟩
    | arithImmRm =>
      simp only [hc] at h
      have hb := kImmRm (classifyMasked_of_classify hc nofun)
      obtain ⟨op, rm, imm, hw, rfl, rfl⟩ := decodeImmRm_inv hb h
      exact ⟨(wellFormed_arithImmRm ..).2 hw, by rw [encode_arithImmRm, ← hb]; simp⟩

/-- `s` of a decoded arith-imm-rm instruction, from its two bytes and from its operands (R89). -/
theorem sOf_fields (sw : SwByte) (b1 b2 : Byte) {rm : Rm} (h : rm.code = rmField b2) :
    sOf sw b1 b2 = sOfImmRm sw (lowField b1) rm := by
  cases sw <;> simp [sOf, swSource, sOfImmRm, h, rmField, lowField]

/-- `w` of a decoded arith-imm-rm instruction, from its two bytes and from its operands (R89). -/
theorem wOf_fields (sw : SwByte) (b1 b2 : Byte) {rm : Rm} (h : rm.code = rmField b2) :
    wOf sw b1 b2 = wOfImmRm sw (lowField b1) rm := by
  cases sw <;> simp [wOf, swSource, wOfImmRm, h, rmField, lowField]

end Sys2Proof

/-! ## The record that the formatter makes of an instruction's context (40_addressing R140 to R144) -/

namespace Sys2Proof.Machine

section
variable (p : Params) (op : ArithOp) (d w : Bool) (reg : BitVec 3) (low : BitVec 2) (rm : Rm) (imm : Imm)
  (j : JumpOp) (off : Byte)

theorem contextOf_arithRegMem : contextOf p (.arithRegMem op d w reg rm) = rmFields rm
    { opClass := some .arithRegMem, subop := some op.code, d := some d, w := some w, reg := some reg } := by
  cases op <;> rfl

theorem contextOf_arithImmRm : contextOf p (.arithImmRm op low rm imm) = immRmContext p op.code low rm imm := by
  cases op <;> rfl

theorem contextOf_arithImmAcc : contextOf p (.arithImmAcc op imm) = immFields imm
    { opClass := some .arithImmAcc, subop := some op.code, w := some imm.w, reg := some 0 } := by
  cases op <;> rfl

theorem contextOf_jump : contextOf p (.jump j off) = jumpContext j j.name off := by cases j <;> rfl

end

/-- `rm_arg` after the fields of an operand is the operand's text (R140). -/
theorem rmArgOf_rmFields {c : Ctx} {w : Bool} (hw : c.w = some w) (rm : Rm) :
    rmArgOf (rmFields rm c) = .ok (rmText w rm) := by
  cases rm <;> simp [rmArgOf, rmFields, hw, rmText]

/-- The immediate's fields are none that `rm_arg` reads. -/
theorem rmArgOf_immFields (imm : Imm) (c : Ctx) : rmArgOf (immFields imm c) = rmArgOf c := by
  cases imm <;> rfl

/-! The fields of an operand and of an immediate leave the other fields as they were. -/

@[simp] theorem rmFields_opClass (rm : Rm) (c : Ctx) : (rmFields rm c).opClass = c.opClass := by
  cases rm <;> rfl

@[simp] theorem rmFields_subop (rm : Rm) (c : Ctx) : (rmFields rm c).subop = c.subop := by cases rm <;> rfl

@[simp] theorem rmFields_d (rm : Rm) (c : Ctx) : (rmFields rm c).d = c.d := by cases rm <;> rfl

@[simp] theorem rmFields_w (rm : Rm) (c : Ctx) : (rmFields rm c).w = c.w := by cases rm <;> rfl

@[simp] theorem rmFields_s (rm : Rm) (c : Ctx) : (rmFields rm c).s = c.s := by cases rm <;> rfl

@[simp] theorem rmFields_reg (rm : Rm) (c : Ctx) : (rmFields rm c).reg = c.reg := by cases rm <;> rfl

@[simp] theorem rmFields_memMode (rm : Rm) (c : Ctx) : (rmFields rm c).memMode = some (rmIsMem rm) := by
  cases rm <;> rfl

@[simp] theorem immFields_opClass (imm : Imm) (c : Ctx) : (immFields imm c).opClass = c.opClass := by
  cases imm <;> rfl

@[simp] theorem immFields_subop (imm : Imm) (c : Ctx) : (immFields imm c).subop = c.subop := by
  cases imm <;> rfl

@[simp] theorem immFields_w (imm : Imm) (c : Ctx) : (immFields imm c).w = c.w := by cases imm <;> rfl

@[simp] theorem immFields_reg (imm : Imm) (c : Ctx) : (immFields imm c).reg = c.reg := by cases imm <;> rfl

@[simp] theorem immFields_memMode (imm : Imm) (c : Ctx) : (immFields imm c).memMode = c.memMode := by
  cases imm <;> rfl

@[simp] theorem immFields_immWidth (imm : Imm) (c : Ctx) : (immFields imm c).immWidth = some imm.width := by
  cases imm <;> rfl

@[simp] theorem immFields_immValue (imm : Imm) (c : Ctx) : (immFields imm c).immValue = some imm.value := by
  cases imm <;> rfl

/-! The record of each format. -/

theorem formatRegMem_rmFields (m : String) (rm : Rm) {c : Ctx} {d w : Bool} {reg : BitVec 3}
    (hd : c.d = some d) (hw : c.w = some w) (hreg : c.reg = some reg) :
    formatRegMem m (rmFields rm c) = .ok ⟨m, regMemOperands d w reg rm⟩ := by
  simp [formatRegMem, hd, hw, hreg, rmArgOf_rmFields hw, regMemOperands]

theorem formatRegImm_immFields (m : String) (imm : Imm) {c : Ctx} {reg : BitVec 3}
    (hw : c.w = some imm.w) (hreg : c.reg = some reg) :
    formatRegImm m (immFields imm c) = .ok ⟨m, regImmOperands reg imm⟩ := by
  simp [formatRegImm, hw, hreg, regImmOperands]

theorem formatRmImm_fields (m : String) (rm : Rm) (imm : Imm) {c : Ctx} (hw : c.w = some imm.w) :
    formatRmImm m (immFields imm (rmFields rm c)) = .ok ⟨m, rmImmOperands rm imm⟩ := by
  simp [formatRmImm, rmArgOf_immFields, rmArgOf_rmFields hw, rmImmOperands]

/-- A written sub-opcode of a member gives its mnemonic (R174). -/
theorem arithMnemonicOf_code {c : Ctx} {op : ArithOp} (h : c.subop = some op.code) :
    arithMnemonicOf c = .ok op.name := by
  simp [arithMnemonicOf, h]

/-- The formatter makes of an instruction's context the record that its meaning emits (R107, R140 to R144). -/
theorem formatRecord_contextOf {p : Params} {i : Instr} (h : WellFormed p i) :
    ∃ r, formatRecord (contextOf p i) = .ok r ∧ ∀ s, exec i s = runCall (instrLength i) r s := by
  cases i using Instr.byClass with
  | movRegMem d w reg rm =>
    refine ⟨⟨"mov", regMemOperands d w reg rm⟩, ?_, fun _ => rfl⟩
    simp only [contextOf, formatRecord, rmFields_opClass, need_some, except_ok_bind]
    exact formatRegMem_rmFields _ _ rfl rfl rfl
  | arithRegMem op d w reg rm =>
    refine ⟨⟨op.name, regMemOperands d w reg rm⟩, ?_, fun _ => by cases op <;> rfl⟩
    rw [contextOf_arithRegMem, formatRecord, arithMnemonicOf_code (by rw [rmFields_subop])]
    simp only [rmFields_opClass, need_some, except_ok_bind]
    exact formatRegMem_rmFields _ _ rfl rfl rfl
  | movImmReg reg imm =>
    refine ⟨⟨"mov", regImmOperands reg imm⟩, ?_, fun _ => rfl⟩
    simp only [contextOf, formatRecord, immFields_opClass, need_some, except_ok_bind]
    exact formatRegImm_immFields _ _ rfl rfl
  | arithImmRm op low rm imm =>
    refine ⟨⟨op.name, rmImmOperands rm imm⟩, ?_, fun _ => by cases op <;> rfl⟩
    rw [wellFormed_arithImmRm, immRmWf, Bool.and_eq_true] at h
    obtain ⟨-, hfits⟩ := h
    rw [contextOf_arithImmRm, immRmContext, formatRecord,
      arithMnemonicOf_code (by rw [immFields_subop, rmFields_subop])]
    simp only [immFields_opClass, rmFields_opClass, need_some, except_ok_bind]
    exact formatRmImm_fields _ _ _ (by rw [Imm.w_of_fits hfits])
  | arithImmAcc op imm =>
    refine ⟨⟨op.name, regImmOperands 0 imm⟩, ?_, fun _ => by cases op <;> rfl⟩
    rw [contextOf_arithImmAcc, formatRecord, arithMnemonicOf_code (by rw [immFields_subop])]
    simp only [immFields_opClass, need_some, except_ok_bind]
    exact formatRegImm_immFields _ _ rfl rfl
  | jump j off =>
    exact ⟨⟨j.name, jumpOperands off⟩, by rw [contextOf_jump]; rfl, fun _ => by cases j <;> rfl⟩

end Sys2Proof.Machine

/-! ## The decode call tick by tick (10_state R24 to R26, 30_encoding R107)

A decode call from a boundary is followed class by class along the decoder's own recursion: each part of
`decode` that reads bytes goes with a run of silent ticks (`serves_…`), and at the end of the instruction's
bytes the context is `contextOf`. -/

namespace Sys2Proof.Machine

/-! ### States inside a call -/

/-- `s` with a decode call under way that began there: `n` bytes are read, and the context and phase are as
given. -/
def inCall (s : State) (n : Nat) (c : Ctx) (ph : Phase) : State :=
  { s with cur := s.cur + n, start := s.cur, ctx := c, phase := ph }

section
variable (s : State) (n : Nat) (c : Ctx) (ph : Phase)

@[simp] theorem inCall_params : (inCall s n c ph).params = s.params := rfl

@[simp] theorem inCall_src : (inCall s n c ph).src = s.src := rfl

@[simp] theorem inCall_srcEnd : (inCall s n c ph).srcEnd = s.srcEnd := rfl

@[simp] theorem inCall_cur : (inCall s n c ph).cur = s.cur + n := rfl

@[simp] theorem inCall_start : (inCall s n c ph).start = s.cur := rfl

@[simp] theorem inCall_phase : (inCall s n c ph).phase = ph := rfl

@[simp] theorem inCall_ctx : (inCall s n c ph).ctx = c := rfl

@[simp] theorem inCall_due : (inCall s n c ph).due = s.due := rfl

@[simp] theorem inCall_out : (inCall s n c ph).out = s.out := rfl

@[simp] theorem inCall_driver : (inCall s n c ph).driver = s.driver := rfl

end

/-- A call that began at a boundary can go on. -/
theorem live_inCall {s : State} (hb : s.atBoundary = true) (n : Nat) (c : Ctx) (ph : Phase) :
    Live (inCall s n c ph) := by
  obtain ⟨ha, -, hd⟩ := (atBoundary_iff s).1 hb
  exact ⟨ha, hd⟩

/-- The record of a call goes out (R51). -/
theorem emitRecord_inCall (s : State) (n : Nat) (c : Ctx) (ph : Phase) (r : Record) :
    emitRecord r (inCall s n c ph) = s.emitted n r := rfl

/-! ### What silent ticks leave -/

/-- A tick without an event leaves the stream, and moves the cursor by one only past a byte (R27, R63). -/
theorem tick_silent_frame {u v : State} (h : tick u = .next v) (ho : v.out = u.out) :
    v.src = u.src ∧ v.srcEnd = u.srcEnd ∧ u.phase ≠ .format ∧
    (v.cur = u.cur ∨ v.cur = u.cur + 1 ∧ (u.src.read u.cur).isSome = true) := by
  obtain ⟨-, -, ⟨x, -, rfl⟩ | ⟨-, hw⟩⟩ := tick_cases h
  · simp at ho
  · obtain ⟨-, hf, ⟨-, rfl⟩ | ⟨-, rfl⟩⟩ | ⟨b, hb, hf, hc⟩ | ⟨-, r, -, rfl⟩ := tickPhase_cases hw
    · exact ⟨rfl, rfl, hf, .inl rfl⟩
    · exact ⟨rfl, rfl, hf, .inl rfl⟩
    · obtain ⟨_, _, _, _, rfl, -⟩ := hc
      exact ⟨rfl, rfl, hf, .inr ⟨rfl, by rw [hb]; rfl⟩⟩
    · simp at ho

/-- Silent ticks leave the stream; where each of them moved the cursor, the stream held the bytes. -/
theorem Silent.frame {k : Nat} {u v : State} (h : Silent k u v) :
    v.src = u.src ∧ v.srcEnd = u.srcEnd ∧ v.cur ≤ u.cur + k ∧ (v.cur = u.cur + k → u.HasBytes k) := by
  induction h with
  | zero => exact ⟨rfl, rfl, Nat.le_refl _, fun _ => rfl⟩
  | @succ u v w n ht ho _ _ ih =>
    obtain ⟨hsrc, hend, hle, hbytes⟩ := ih
    obtain ⟨hsrc', hend', -, hcur⟩ := tick_silent_frame ht ho
    refine ⟨hsrc.trans hsrc', hend.trans hend', by omega, fun hw => ?_⟩
    obtain ⟨hcur, hread⟩ : v.cur = u.cur + 1 ∧ (u.src.read u.cur).isSome = true := by
      rcases hcur with hcur | hcur
      · omega
      · exact hcur
    obtain ⟨b, hb⟩ := Option.isSome_iff_exists.1 hread
    have hrest := hbytes (by omega)
    rw [State.HasBytes, hsrc', hcur] at hrest
    simp [State.HasBytes, Memory.bytesFrom, hb, hrest]

/-- Before the last of a run of silent ticks the phase is not Format: a tick in Format has an event (R26). -/
theorem Silent.not_format {k : Nat} {u v : State} (h : Silent k u v) :
    ∀ j, j < k → ∃ m, tickRun j u = .next m ∧ m.phase ≠ .format ∧ m.out = u.out := by
  induction h with
  | zero => exact fun _ hj => absurd hj (Nat.not_lt_zero _)
  | succ ht ho _ _ ih =>
    rintro (_ | j) hj
    · obtain ⟨-, -, hf, -⟩ := tick_silent_frame ht ho
      exact ⟨_, rfl, hf, rfl⟩
    · obtain ⟨m, hm, hf, hout⟩ := ih j (by omega)
      exact ⟨m, by simp only [tickRun, ht]; exact hm, hf, hout.trans ho⟩

/-! ### How a call without a record ends -/

/-- At most five silent ticks and one that delivers an event lead from `s` to `t`. -/
def Ends (s t : State) : Prop := ∃ k v, 1 ≤ k ∧ k ≤ 6 ∧ Silent k s v ∧ tick v = .next t

/-- The call ends where a terminal event was decided (R237). -/
theorem ends_of_due {s v : State} {k : Nat} {h : Halt} (h1 : 1 ≤ k) (h6 : k ≤ 6) (hs : Silent k s v)
    (ha : v.driver.aborted = false) (hr : v.phase.status = .running) (hd : v.due = some h) :
    Ends s (terminate h v) := ⟨k, v, h1, h6, hs, tick_due ha hr hd⟩

/-- A call is not over while a terminal event is due in a running phase. -/
theorem callOver_of_due {v : State} {h : Halt} (hr : v.phase.status = .running) (hd : v.due = some h) :
    callOver v = false := by
  unfold callOver
  split
  · simp [hd]
  · rename_i hp; exact absurd hr (status_of_halted hp)
  · rfl

/-- The window is as long as the stream's rest where that is short. -/
theorem window_length_of_end {s : State} {j : Nat} (hj : j ≤ maxLength) (h : s.HasBytes j)
    (he : s.src.read (s.cur + j) = none) : s.window.length = j := by
  have hbytes : (s.src.bytesFrom j s.cur).length = j := h
  have hwin : s.window = s.src.bytesFrom j s.cur :=
    Memory.bytesFrom_of_ends s.src _ _ _ (by rw [hbytes]) (by rw [hbytes]; exact he) (by rw [hbytes]; exact hj)
  rw [hwin, hbytes]

/-- A call that starves ends as one that is out of bytes (R232, R234). -/
theorem ends_of_starves {s : State} {k m : Nat} {c : Ctx} {ph : Phase} (hk : 1 ≤ k) (hkm : k + m ≤ 5)
    (hs : Silent k s (inCall s k c ph)) (hst : Starves m (inCall s k c ph)) :
    Ends s (rejectCall .outOfBytes s.window.length s) := by
  obtain ⟨j, v, hj, hsil, hcur, ⟨ha, hd⟩, hread, -, hrun, ⟨kf, hkf⟩, hterm⟩ := hst
  have hsil' := hs.trans hsil
  have hcur' : v.cur = s.cur + (k + j) := by rw [hcur, inCall_cur, Nat.add_assoc]
  obtain ⟨hsrc, hend, -, hbytes⟩ := hsil'.frame
  have hlen : s.window.length = k + j :=
    window_length_of_end (by simp only [maxLength]; omega) (hbytes hcur') (by rw [← hsrc, ← hcur']; exact hread)
  have hhalt : endHalt v.srcEnd 1 = endHalt s.srcEnd (k + j) := by
    rw [hend]
    unfold endHalt
    split
    · rfl
    · rw [if_neg (by omega), if_neg (by omega)]
  have htick : tick v = .next (setDue (endHalt v.srcEnd 1) v) :=
    tick_of_phase ha hd (by rw [hkf, readInside_none hread])
  have hfin := ends_of_due (h := endHalt v.srcEnd 1) (by omega) (by omega)
    (hsil'.trans (silent_one htick rfl (callOver_of_due hrun rfl))) ha hrun rfl
  have hstate : terminate (endHalt v.srcEnd 1) (setDue (endHalt v.srcEnd 1) v) =
      rejectCall .outOfBytes s.window.length s := by
    rw [hlen, rejectCall_outOfBytes, ← hhalt]
    have hbefore := hterm (endHalt v.srcEnd 1)
    rw [show terminate (endHalt v.srcEnd 1) (setDue (endHalt v.srcEnd 1) v) =
      terminate (endHalt v.srcEnd 1) v from rfl, hbefore, State.ended, ← Nat.add_assoc]
    rfl
  rwa [hstate] at hfin

/-! ### What a call does with the bytes at the cursor -/

/-- The ticks from `s` do what the decoder says of the bytes at the cursor: they read an instruction and stand
in Format with its context, or end the run as the rejection does. -/
def Serves (s : State) (d : Decoded) : Prop :=
  match d with
  | .instr i _ => Silent (instrLength i) s (inCall s (instrLength i) (contextOf s.params i) .format)
  | .reject why rest => Ends s (rejectCall why (s.window.length - rest.length) s)

/-- The bytes run out inside the instruction. -/
theorem serves_of_starves {s : State} {k m : Nat} {c : Ctx} {ph : Phase} (hk : 1 ≤ k) (hkm : k + m ≤ 5)
    (hs : Silent k s (inCall s k c ph)) (hst : Starves m (inCall s k c ph)) :
    Serves s (.reject .outOfBytes []) :=
  ends_of_starves hk hkm hs hst

/-! ### The first byte -/

/-- The tick that reads the first byte (R82). -/
theorem tick_opcode {s : State} {b1 : Byte} (hb : s.atBoundary = true) (hr : s.src.read s.cur = some b1) :
    tick s = .next (latchOpcode b1 (inCall s 1 Ctx.unwritten .boundary)) := by
  obtain ⟨ha, hp, hd⟩ := (atBoundary_iff s).1 hb
  have hstart : ({ beginCall s with cur := s.cur + 1 } : State) = inCall s 1 Ctx.unwritten .boundary := by
    rw [← hp]; rfl
  exact tick_of_phase ha hd (by simp only [tickPhase, hp, tickBoundary_some hr, hstart])

/-- The first byte is read and the call goes on. -/
theorem silent_opcode {s : State} {b1 : Byte} {c : Ctx} {ph : Phase} (hb : s.atBoundary = true)
    (hr : s.src.read s.cur = some b1)
    (hl : latchOpcode b1 (inCall s 1 Ctx.unwritten .boundary) = inCall s 1 c ph)
    (hph : callOver (inCall s 1 c ph) = false) : Silent 1 s (inCall s 1 c ph) :=
  silent_one (by rw [tick_opcode hb hr, hl]) rfl hph

/-- The first byte decides an error (R172, R231). -/
theorem ends_opcode {s : State} {b1 : Byte} {c : Ctx} {k : ErrorKind} (hb : s.atBoundary = true)
    (hr : s.src.read s.cur = some b1)
    (hl : latchOpcode b1 (inCall s 1 Ctx.unwritten .boundary) = setDue (.fail k) (inCall s 1 c .boundary)) :
    Ends s (s.ended 1 (.fail k)) := by
  obtain ⟨ha, -, -⟩ := (atBoundary_iff s).1 hb
  have hs : Silent 1 s (setDue (.fail k) (inCall s 1 c .boundary)) :=
    silent_one (by rw [tick_opcode hb hr, hl]) rfl rfl
  exact ends_of_due (Nat.le_refl 1) (by decide) hs ha rfl rfl

/-! ### The immediate and the displacement inside a call -/

/-- The immediate reader inside a call (R132). -/
theorem imm_reads {s : State} {k : Nat} {c : Ctx} {w sx : Bool} (n : Nat) (hb : s.atBoundary = true)
    (hw : c.w = some w) (hsx : sextWanted c = .ok sx) :
    (∀ imm rest, readImm sx w (s.src.bytesFrom (n + 2) (s.cur + k)) = some (imm, rest) →
      Silent imm.len (inCall s k c (.needImm .first)) (inCall s (k + imm.len) (immFields imm c) .format)) ∧
    (readImm sx w (s.src.bytesFrom (n + 2) (s.cur + k)) = none →
      Starves 1 (inCall s k c (.needImm .first))) := by
  obtain ⟨hall, hnone⟩ := imm_spec n (live_inCall hb k c (.needImm .first)) rfl hw hsx
  refine ⟨fun imm rest h => ?_, hnone⟩
  have hdone : immDone (inCall s k c (.needImm .first)) imm =
      inCall s (k + imm.len) (immFields imm c) .format := by
    cases imm <;> simp [immDone, inCall, immFields, Imm.width, Imm.value, isSext, immLoOf, Nat.add_assoc]
  rw [← hdone]
  exact hall imm rest h

/-- The mode of the addressing byte and the displacement make up the operand's fields (R123 to R131). -/
theorem latchMode_disp {rm : Rm} (h : rm.wf = true) (c : Ctx) :
    { latchMode rm.mod rm.code c with
      dispValue := dispValueOf rm c.dispValue, dispLo := dispLoOf rm c.dispLo } = rmFields rm c := by
  have hm := addrMode_of_rm rm h
  cases rm <;> simp only at hm <;> simp only [latchMode, hm] <;> rfl

/-- The displacement reader inside a call, after the addressing byte (R130). -/
theorem disp_reads {s : State} {k : Nat} {c : Ctx} {cl : OpClass} {m : BitVec 2} {r : BitVec 3} (n : Nat)
    (hb : s.atBoundary = true) (hc : c.opClass = some cl) :
    (∀ rm rest, readRm m r (s.src.bytesFrom (n + 2) (s.cur + k)) = some (rm, rest) →
      Silent rm.dispLen (inCall s k (latchMode m r c) (afterAddr cl (addrMode m r).dispWidth))
        (inCall s (k + rm.dispLen) (rmFields rm c) (afterDisp cl))) ∧
    (readRm m r (s.src.bytesFrom (n + 2) (s.cur + k)) = none →
      Starves 1 (inCall s k (latchMode m r c) (afterAddr cl (addrMode m r).dispWidth))) := by
  obtain ⟨hall, hnone⟩ := disp_spec (m := m) (r := r) n
    (live_inCall hb k (latchMode m r c) (afterAddr cl (addrMode m r).dispWidth)) rfl hc rfl
  refine ⟨fun rm rest h => ?_, hnone⟩
  obtain ⟨hwf, rfl, rfl, -⟩ := readRm_eq_some h
  have hdone : dispDone cl (inCall s k (latchMode rm.mod rm.code c)
      (afterAddr cl (addrMode rm.mod rm.code).dispWidth)) rm =
      inCall s (k + rm.dispLen) (rmFields rm c) (afterDisp cl) := by
    rw [← latchMode_disp hwf c]
    simp only [dispDone, inCall, latchMode, Nat.add_assoc]
  rw [← hdone]
  exact hall rm rest h

/-! ### One lemma for each format -/

/-- A byte that is read inside an instruction leads on in the call. -/
theorem silent_byte {s : State} {k : Nat} {c c' : Ctx} {ph ph' : Phase} {b : Byte}
    {kf : Byte → State → Ticked} (hb : s.atBoundary = true) (hr : s.src.read (s.cur + k) = some b)
    (hkf : tickPhase (inCall s k c ph) = readInside kf (inCall s k c ph))
    (hk : kf b (inCall s (k + 1) c ph) = .ok (inCall s (k + 1) c' ph'))
    (hph : callOver (inCall s (k + 1) c' ph') = false) :
    Silent 1 (inCall s k c ph) (inCall s (k + 1) c' ph') :=
  silent_one (tick_read (live_inCall hb k c ph) hkf hr hk) rfl hph

/-- The addressing byte is due and the stream has ended. -/
theorem starves_addr {s : State} {k : Nat} {c : Ctx} {cl : OpClass} (hb : s.atBoundary = true)
    (hc : c.opClass = some cl) (hr : s.src.read (s.cur + k) = none) : Starves 0 (inCall s k c .needAddr) :=
  Starves.zero 0 (live_inCall hb k c .needAddr) hr nofun rfl
    (by simp only [tickPhase, inCall_phase, tickAddr, inCall_ctx, hc, need_some]; rfl)

/-- A call is not over after the addressing byte. -/
theorem callOver_afterAddr (s : State) (n : Nat) (c : Ctx) (cl : OpClass) (w : DispWidth) :
    callOver (inCall s n c (afterAddr cl w)) = false := by
  cases w <;> cases cl <;> rfl

/-- Format RM after its opcode byte (R91, R144). -/
theorem serves_regMem {s : State} {b1 : Byte} {c : Ctx} {cl : OpClass}
    {mk : Bool → Bool → BitVec 3 → Rm → Instr} (hb : s.atBoundary = true) (hc : c.opClass = some cl) (hcl : cl ≠ .arithImmRm)
    (h1 : Silent 1 s (inCall s 1 c .needAddr))
    (hlen : ∀ d w reg rm, instrLength (mk d w reg rm) = 2 + rm.dispLen)
    (hctx : ∀ reg rm, contextOf s.params (mk (dBit b1) (wBit b1) reg rm) =
      rmFields rm { c with reg := some reg }) :
    Serves s (decodeRegMem mk b1 (s.src.bytesFrom 5 (s.cur + 1))) := by
  rcases hbs : s.src.bytesFrom 5 (s.cur + 1) with _ | ⟨b2, tl⟩
  · have hr := (Memory.bytesFrom_nil ..).1 hbs
    exact serves_of_starves (Nat.le_refl 1) (by decide) h1 (starves_addr hb hc hr)
  · obtain ⟨hr, rfl⟩ := (Memory.bytesFrom_cons ..).1 hbs
    have h2 := h1.trans (silent_byte
      (c' := latchMode (modField b2) (rmField b2) { c with reg := some (midField b2) })
      (ph' := afterAddr cl (addrMode (modField b2) (rmField b2)).dispWidth) hb hr
      (by simp only [tickPhase, inCall_phase, tickAddr, inCall_ctx, hc, need_some]; rfl)
      (by simp only [hcl, if_false]; rfl) (callOver_afterAddr ..))
    obtain ⟨hall, hnone⟩ := disp_reads (k := 2) (m := modField b2) (r := rmField b2) 2 hb
      (c := { c with reg := some (midField b2) }) hc
    simp only [decodeRegMem]
    cases hrm : readRm (modField b2) (rmField b2) (s.src.bytesFrom 4 (s.cur + 1 + 1)) with
    | none => exact serves_of_starves (by decide) (by decide) h2 (hnone hrm)
    | some x =>
      obtain ⟨rm, rest⟩ := x
      have h3 := h2.trans (hall rm rest hrm)
      have hafter : afterDisp cl = .format := by simp [afterDisp, hcl]
      simp only [Serves, hlen, hctx]
      rwa [hafter] at h3

/-- No other class than arith-imm-rm sign-extends (R136). -/
theorem sextWanted_full {c : Ctx} {cl : OpClass} {w : Bool} (hc : c.opClass = some cl) (hcl : cl ≠ .arithImmRm)
    (hw : c.w = some w) : sextWanted c = .ok false := by
  simp [sextWanted, hc, hw, hcl]

/-- Formats IR and AI after their opcode byte (R92, R93). -/
theorem serves_fullImm {s : State} {c : Ctx} {cl : OpClass} {w : Bool} {mk : Imm → Instr}
    (hb : s.atBoundary = true) (hc : c.opClass = some cl) (hcl : cl ≠ .arithImmRm) (hw : c.w = some w)
    (h1 : Silent 1 s (inCall s 1 c (.needImm .first)))
    (hlen : ∀ imm, instrLength (mk imm) = 1 + imm.len)
    (hctx : ∀ imm, imm.w = w → contextOf s.params (mk imm) = immFields imm c) :
    Serves s (decodeFullImm mk w (s.src.bytesFrom 5 (s.cur + 1))) := by
  obtain ⟨hall, hnone⟩ := imm_reads (k := 1) 3 hb hw (sextWanted_full hc hcl hw)
  simp only [decodeFullImm]
  cases hi : readImm false w (s.src.bytesFrom 5 (s.cur + 1)) with
  | none => exact serves_of_starves (Nat.le_refl 1) (by decide) h1 (hnone hi)
  | some x =>
    obtain ⟨imm, rest⟩ := x
    have h2 := h1.trans (hall imm rest hi)
    obtain ⟨hfits, -⟩ := readImm_eq_some hi
    simpa only [Serves, hlen, hctx imm (Imm.w_of_fits hfits)] using h2

/-- Format J after its opcode byte (R95, R193). -/
theorem serves_jump {s : State} {j : JumpOp} (hb : s.atBoundary = true)
    (h1 : Silent 1 s (inCall s 1 { opClass := some (.jumpOrLoop j), jmpMnemonic := some j.name } .needOff)) :
    Serves s (decodeJump j (s.src.bytesFrom 5 (s.cur + 1))) := by
  rcases hbs : s.src.bytesFrom 5 (s.cur + 1) with _ | ⟨off, tl⟩
  · have hr := (Memory.bytesFrom_nil ..).1 hbs
    exact serves_of_starves (Nat.le_refl 1) (by decide) h1
      (Starves.zero 0 (live_inCall hb _ _ .needOff) hr nofun rfl rfl)
  · obtain ⟨hr, rfl⟩ := (Memory.bytesFrom_cons ..).1 hbs
    simp only [decodeJump, Serves, instrLength_jump, contextOf_jump]
    exact h1.trans (silent_byte hb hr rfl rfl rfl)

/-- The fields that the opcode byte of class arith-imm-rm writes (R33, R34, R89). -/
def immRmOpcodeCtx (sw : SwByte) (b1 : Byte) : Ctx :=
  match sw with
  | .second => { opClass := some .arithImmRm }
  | .first =>
    { opClass := some .arithImmRm, s := some (sOf .first b1 b1), w := some (wOf .first b1 b1) }

/-- The fields that class arith-imm-rm has after its addressing byte, but for those of the mode (R89). -/
def immRmAddrCtx (sw : SwByte) (b1 b2 : Byte) : Ctx :=
  { opClass := some .arithImmRm
    subop := some (midField b2)
    s := some (sOf sw b1 b2)
    w := some (wOf sw b1 b2) }

/-- The addressing byte of class arith-imm-rm gives the mode's fields, the sub-opcode and, by then, `s` and
`w` (R89, R122); then the sub-opcode is checked (R147). -/
theorem latchAddrImmRm_inCall (s : State) (b1 b2 : Byte) :
    latchAddrImmRm b2 (inCall s 2 (immRmOpcodeCtx s.params.swByte b1) .needAddr) =
      checkSubop (midField b2) (afterAddr .arithImmRm (addrMode (modField b2) (rmField b2)).dispWidth)
        (inCall s 2 (latchMode (modField b2) (rmField b2) (immRmAddrCtx s.params.swByte b1 b2)) .needAddr) := by
  simp only [latchAddrImmRm, inCall_params]
  cases s.params.swByte <;> rfl

/-- The context of an arith-imm-rm instruction, from the bytes that were read (R89). -/
theorem immRmContext_bytes {p : Params} {b1 b2 : Byte} {op : ArithOp} {rm : Rm} (imm : Imm)
    (hop : arithOp (midField b2) = some op) (hcode : rm.code = rmField b2) :
    immRmContext p op.code (lowField b1) rm imm = immFields imm (rmFields rm (immRmAddrCtx p.swByte b1 b2)) := by
  rw [immRmContext, immRmAddrCtx, arithOp_eq_some hop, sOf_fields _ _ _ hcode, wOf_fields _ _ _ hcode]

/-- For class arith-imm-rm an immediate is sign-extended where `w` and `s` are both set (R132). -/
theorem sextWanted_arithImmRm {c : Ctx} {w sx : Bool} (hc : c.opClass = some .arithImmRm) (hw : c.w = some w)
    (hs : c.s = some sx) : sextWanted c = .ok (w && sx) := by
  cases w <;> simp [sextWanted, hc, hw, hs]

/-- The immediate reader consults `s` only where `w` is set (R132). -/
theorem readImm_and (sx w : Bool) (bs : List Byte) : readImm (w && sx) w bs = readImm sx w bs := by
  cases w <;> cases sx <;> cases bs <;> rfl

/-- Format MI after its addressing byte, with a valid sub-opcode: the displacement, then the immediate. -/
theorem serves_immRm_operands {s : State} {b1 b2 : Byte} {op : ArithOp} (hb : s.atBoundary = true)
    (hop : arithOp (midField b2) = some op)
    (h2 : Silent 2 s (inCall s 2 (latchMode (modField b2) (rmField b2) (immRmAddrCtx s.params.swByte b1 b2))
      (afterAddr .arithImmRm (addrMode (modField b2) (rmField b2)).dispWidth))) :
    Serves s (decodeImmRm s.params b1 (b2 :: s.src.bytesFrom 4 (s.cur + 2))) := by
  obtain ⟨hdisp, hdisp'⟩ := disp_reads (k := 2) (m := modField b2) (r := rmField b2) 2 hb
    (c := immRmAddrCtx s.params.swByte b1 b2) rfl
  simp only [decodeImmRm, hop]
  cases hrm : readRm (modField b2) (rmField b2) (s.src.bytesFrom 4 (s.cur + 2)) with
  | none => exact serves_of_starves (by decide) (by decide) h2 (hdisp' hrm)
  | some x =>
    obtain ⟨rm, rest⟩ := x
    have h3 := h2.trans (hdisp rm rest hrm)
    obtain ⟨-, -, hcode, hcut⟩ := readRm_eq_some hrm
    have hle := rm.dispLen_le
    have hrest : rest = s.src.bytesFrom (2 - rm.dispLen + 2) (s.cur + (2 + rm.dispLen)) := by
      rw [Memory.bytesFrom_drop _ _ _ _ _ hcut, Rm.length_dispBytes]
      congr 1 <;> omega
    obtain ⟨himm, himm'⟩ := imm_reads (k := 2 + rm.dispLen)
      (c := rmFields rm (immRmAddrCtx s.params.swByte b1 b2)) (2 - rm.dispLen) hb (rmFields_w ..)
      (sextWanted_arithImmRm (rmFields_opClass ..) (rmFields_w ..) (rmFields_s ..))
    simp only [readImm_and, ← hrest] at himm himm'
    dsimp only
    cases hi : readImm (sOf s.params.swByte b1 b2) (wOf s.params.swByte b1 b2) rest with
    | none => exact serves_of_starves (by omega) (by omega) h3 (himm' hi)
    | some y =>
      obtain ⟨imm, rest'⟩ := y
      have h4 := h3.trans (himm imm rest' hi)
      simpa only [Serves, instrLength_arithImmRm, contextOf_arithImmRm,
        immRmContext_bytes imm hop hcode] using h4

/-- Format MI after its opcode byte (R94, R147). -/
theorem serves_immRm {s : State} {b1 : Byte} (hb : s.atBoundary = true) (h0 : s.src.read s.cur = some b1)
    (h1 : Silent 1 s (inCall s 1 (immRmOpcodeCtx s.params.swByte b1) .needAddr)) :
    Serves s (decodeImmRm s.params b1 (s.src.bytesFrom 5 (s.cur + 1))) := by
  have hc : (immRmOpcodeCtx s.params.swByte b1).opClass = some .arithImmRm := by cases s.params.swByte <;> rfl
  rcases hbs : s.src.bytesFrom 5 (s.cur + 1) with _ | ⟨b2, tl⟩
  · have hr := (Memory.bytesFrom_nil ..).1 hbs
    exact serves_of_starves (Nat.le_refl 1) (by decide) h1 (starves_addr hb hc hr)
  · obtain ⟨hr, rfl⟩ := (Memory.bytesFrom_cons ..).1 hbs
    have htick : tick (inCall s 1 (immRmOpcodeCtx s.params.swByte b1) .needAddr) = .next
        (checkSubop (midField b2) (afterAddr .arithImmRm (addrMode (modField b2) (rmField b2)).dispWidth)
          (inCall s 2 (latchMode (modField b2) (rmField b2) (immRmAddrCtx s.params.swByte b1 b2)) .needAddr)) := by
      rw [← latchAddrImmRm_inCall]
      exact tick_read (live_inCall hb _ _ _)
        (by simp only [tickPhase, inCall_phase, tickAddr, inCall_ctx, hc, need_some]; rfl) hr rfl
    cases hop : arithOp (midField b2) with
    | none =>
      simp only [checkSubop, hop] at htick
      obtain ⟨ha, -, -⟩ := (atBoundary_iff s).1 hb
      have hwin : s.window = b1 :: b2 :: s.src.bytesFrom 4 (s.cur + 1 + 1) :=
        (Memory.bytesFrom_cons ..).2 ⟨h0, hbs⟩
      have hread : s.window.length - (s.src.bytesFrom 4 (s.cur + 1 + 1)).length = 2 := by
        rw [hwin, List.length_cons, List.length_cons]; omega
      simp only [decodeImmRm, hop, Serves, hread]
      have hends := ends_of_due (by decide) (by decide) (h1.trans (silent_one htick rfl rfl)) ha rfl rfl
      exact hends
    | some op =>
      simp only [checkSubop, hop] at htick
      exact serves_immRm_operands hb hop
        (h1.trans (silent_one htick rfl (callOver_afterAddr s 2 (latchMode _ _ _) .arithImmRm _)))

/-! ### The whole call -/

/-- A first byte that decides an error is a rejection after one byte (R172, R231). -/
theorem serves_opcode_error {s : State} {b1 : Byte} {c : Ctx} {k : ErrorKind} {why : Reject}
    (hb : s.atBoundary = true) (hr : s.src.read s.cur = some b1)
    (hl : latchOpcode b1 (inCall s 1 Ctx.unwritten .boundary) = setDue (.fail k) (inCall s 1 c .boundary))
    (hwhy : rejectCall why 1 s = s.ended 1 (.fail k)) :
    Serves s (.reject why (s.src.bytesFrom 5 (s.cur + 1))) := by
  have hwin : s.window = b1 :: s.src.bytesFrom 5 (s.cur + 1) := (Memory.bytesFrom_cons ..).2 ⟨hr, rfl⟩
  have hread : s.window.length - (s.src.bytesFrom 5 (s.cur + 1)).length = 1 := by
    rw [hwin, List.length_cons]; omega
  simp only [Serves, hread, hwhy]
  exact ends_opcode hb hr hl

/-- No byte at a boundary: the end of the stream is decided and delivered (R234, R235). -/
theorem serves_no_byte {s : State} (hb : s.atBoundary = true) (hr : s.src.read s.cur = none) :
    Serves s (.reject .outOfBytes []) := by
  obtain ⟨ha, hp, hd⟩ := (atBoundary_iff s).1 hb
  have htick : tick s = .next (setDue (endHalt s.srcEnd 0) (beginCall s)) :=
    tick_of_phase ha hd (by simp only [tickPhase, hp, tickBoundary_none hr])
  have hrun : (setDue (endHalt s.srcEnd 0) (beginCall s)).phase.status = .running := by
    rw [setDue_phase, beginCall_phase, hp]; rfl
  have hwin : s.window.length = 0 := window_length_of_end (Nat.zero_le _) rfl hr
  simp only [Serves, hwin, rejectCall_outOfBytes]
  exact ends_of_due (Nat.le_refl 1) (by decide) (silent_one htick rfl (callOver_of_due hrun rfl)) ha hrun rfl

/-- From a boundary the ticks do what the decoder says of the bytes at the cursor (R107). -/
theorem serves_window {s : State} (hb : s.atBoundary = true) : Serves s (decode s.params s.window) := by
  cases hr : s.src.read s.cur with
  | none =>
    rw [show s.window = [] from (Memory.bytesFrom_nil ..).2 hr]
    exact serves_no_byte hb hr
  | some b1 =>
    rw [show s.window = b1 :: s.src.bytesFrom 5 (s.cur + 1) from (Memory.bytesFrom_cons ..).2 ⟨hr, rfl⟩]
    simp only [decode]
    cases hc : classify s.params b1 with
    | unsupported =>
      exact serves_opcode_error hb hr (by simp only [latchOpcode, inCall_params, hc]; rfl) rfl
    | jumpOrLoop j =>
      exact serves_jump hb (silent_opcode hb hr (by simp only [latchOpcode, inCall_params, hc]; rfl) rfl)
    | movRegMem =>
      exact serves_regMem (cl := .movRegMem) hb rfl nofun
        (silent_opcode hb hr (by simp only [latchOpcode, inCall_params, hc]; rfl) rfl)
        (fun _ _ _ _ => rfl) (fun _ _ => rfl)
    | arithRegMem =>
      cases hop : arithOp (midField b1) with
      | none =>
        exact serves_opcode_error hb hr (by simp only [latchOpcode, checkSubop, inCall_params, hc, hop]; rfl) rfl
      | some op =>
        exact serves_regMem (cl := .arithRegMem) hb rfl nofun
          (silent_opcode hb hr (by simp only [latchOpcode, checkSubop, inCall_params, hc, hop]; rfl) rfl)
          (fun _ _ _ _ => instrLength_arithRegMem ..)
          (fun reg rm => by rw [contextOf_arithRegMem, arithOp_eq_some hop]; rfl)
    | movImmReg =>
      exact serves_fullImm (cl := .movImmReg) hb rfl nofun rfl
        (silent_opcode hb hr (by simp only [latchOpcode, inCall_params, hc]; rfl) rfl)
        (fun _ => rfl) (fun imm hw => by rw [contextOf, hw]; rfl)
    | arithImmAcc =>
      cases hop : arithOp (midField b1) with
      | none =>
        exact serves_opcode_error hb hr (by simp only [latchOpcode, checkSubop, inCall_params, hc, hop]; rfl) rfl
      | some op =>
        exact serves_fullImm (cl := .arithImmAcc) hb rfl nofun rfl
          (silent_opcode hb hr (by simp only [latchOpcode, checkSubop, inCall_params, hc, hop]; rfl) rfl)
          (fun _ => instrLength_arithImmAcc ..)
          (fun imm hw => by rw [contextOf_arithImmAcc, arithOp_eq_some hop, hw]; rfl)
    | arithImmRm =>
      exact serves_immRm hb hr (silent_opcode hb hr
        (by simp only [latchOpcode, inCall_params, hc]; cases s.params.swByte <;> rfl) rfl)

/-- A decode call from a boundary that answers `t` is `k` silent ticks and one with the call's one event; where
the event is a record, `k` bytes were read (R24, R107). -/
structure CallTicks (s : State) (k : Nat) (t : State) : Prop where
  /-- At least one read, and at most as many as the longest instruction has bytes. -/
  reads : 1 ≤ k ∧ k ≤ maxLength
  /-- The reads are silent and the next tick ends the call. -/
  ticks : ∃ v, Silent k s v ∧ tick v = .next t
  ends : callOver t = true
  event : ∃ e, t.out = s.out ++ [e]
  record : t.phase = .boundary → k = t.cur - s.cur

/-- A call without a record ends the run with one event (R22, R237). -/
theorem rejectCall_eq_ended (why : Reject) (n : Nat) (s : State) : ∃ h, rejectCall why n s = s.ended n h := by
  cases why with
  | outOfBytes => exact ⟨_, rejectCall_outOfBytes n s⟩
  | _ => exact ⟨_, rfl⟩

/-- From a boundary the decode call as a whole is its ticks (R24, R107). -/
theorem decodeCall_ticks {s : State} (hb : s.atBoundary = true) :
    ∃ k t, decodeCall s = .next t ∧ CallTicks s k t := by
  obtain ⟨ha, -, hd⟩ := (atBoundary_iff s).1 hb
  have hserves := serves_window hb
  cases hdec : decode s.params s.window with
  | instr i rest =>
    rw [hdec] at hserves
    obtain ⟨hwf, -⟩ := decode_inv hdec
    obtain ⟨r, hrec, hexec⟩ := formatRecord_contextOf hwf
    obtain ⟨-, -, -, hbytes⟩ := hserves.frame
    have hcall : decodeCall s = .next (s.emitted (instrLength i) r) := by
      rw [decodeCall, hdec]
      exact (hexec s).trans (runCall_emits r hb (hbytes rfl))
    have htick : tick (inCall s (instrLength i) (contextOf s.params i) .format) =
        .next (s.emitted (instrLength i) r) := by
      rw [← emitRecord_inCall s (instrLength i) (contextOf s.params i) .format]
      exact tick_of_phase ha hd (by simp only [tickPhase, inCall_phase, tickFormat, inCall_ctx, hrec]; rfl)
    have hlen := instrLength_bounds i
    exact ⟨instrLength i, _, hcall, {
      reads := ⟨by omega, hlen.2⟩
      ticks := ⟨_, hserves, htick⟩
      ends := by simp [callOver, hd]
      event := ⟨_, rfl⟩
      record := fun _ => by simp }⟩
  | reject why rest =>
    rw [hdec] at hserves
    obtain ⟨k, v, h1, h6, hsil, htick⟩ := hserves
    obtain ⟨h, heq⟩ := rejectCall_eq_ended why (s.window.length - rest.length) s
    rw [heq] at htick
    have hcall : decodeCall s = .next (s.ended (s.window.length - rest.length) h) := by
      rw [decodeCall, hdec, ← heq]
    exact ⟨k, _, hcall, {
      reads := ⟨h1, h6⟩
      ticks := ⟨v, hsil, htick⟩
      ends := rfl
      event := ⟨_, rfl⟩
      record := nofun }⟩

/-! ## The claims on the two machines -/

/-- Settles O32: at a boundary a step is the call's ticks; elsewhere it is defined as them. -/
theorem stepIsTheTicksToTheNextEvent : Obligations.StepIsTheTicksToTheNextEvent := by
  unfold Obligations.StepIsTheTicksToTheNextEvent
  intro s
  cases hb : s.atBoundary with
  | false => simp [step, hb]
  | true =>
    obtain ⟨k, t, hcall, hticks⟩ := decodeCall_ticks hb
    obtain ⟨v, hsil, htick⟩ := hticks.ticks
    rw [step_boundary hb, hcall,
      finish_silent hsil htick hticks.ends maxTicks (Nat.lt_succ_of_le hticks.reads.2)]

/-- Settles O33: the ticks of a call are its reads and the one that delivers its event. -/
theorem ticksOfADecodeCall : Obligations.TicksOfADecodeCall := by
  unfold Obligations.TicksOfADecodeCall
  intro s s' hb hstep
  obtain ⟨k, t, hcall, hticks⟩ := decodeCall_ticks hb
  obtain rfl : t = s' := by
    rw [step_boundary hb, hcall] at hstep
    exact Host.Outcome.next.inj hstep
  obtain ⟨hlow, hhigh⟩ := hticks.reads
  obtain ⟨v, hsil, htick⟩ := hticks.ticks
  refine ⟨hticks.event, k + 1, by omega, by simp only [maxLength] at hhigh; omega, tickRun_snoc hsil htick,
    fun hp => by rw [← hticks.record hp], fun j hj => silent_prefix hsil j (by omega)⟩

/-- Settles O34: the bytes at the cursor decode to the instruction, and the ticks that read it stand in Format
with its context. -/
theorem contextWhenFormatting : Obligations.ContextWhenFormatting := by
  unfold Obligations.ContextWhenFormatting
  intro s i hb hwf hholds
  obtain ⟨-, -, hd⟩ := (atBoundary_iff s).1 hb
  obtain ⟨rest, hwin⟩ := window_holds s hholds (by rw [length_encode]; exact (instrLength_bounds i).2)
  have hserves := serves_window hb
  rw [hwin, decode_encode rest hwf] at hserves
  exact ⟨⟨_, tickRun_silent hserves, rfl, hd, rfl, rfl, rfl, rfl⟩, hserves.not_format⟩

/-! ## The invariant from step to step (10_state R47, R52, R53) -/

/-- The rest of a call keeps the invariant, as each of its ticks does. -/
theorem inv_finishCall : ∀ (n : Nat) {s t : State}, Inv s → finishCall n s = .next t → Inv t := by
  intro n
  induction n with
  | zero => intro s t hI h; cases h; exact hI
  | succ n ih =>
    intro s t hI h
    simp only [finishCall] at h
    split at h
    · rename_i u hu
      have hIu := tickKeepsTheInvariant s u hI hu
      split at h
      · cases h; exact hIu
      · exact ih hIu h
    · cases h
    · cases h

/-- Settles O37: a step is the ticks to the next event, and each of them keeps the invariant. -/
theorem stepKeepsTheInvariant : Obligations.StepKeepsTheInvariant := by
  unfold Obligations.StepKeepsTheInvariant
  intro s t hI h
  rw [stepIsTheTicksToTheNextEvent s] at h
  exact inv_finishCall maxTicks hI h

/-- The rest of a running decoder's call answers a next state: while the call is not over the decoder is
running and its driver has not ended the run. -/
theorem finishCall_next : ∀ (n : Nat) {s : State}, Inv s → s.driver.aborted = false →
    s.phase.status = .running → ∃ t, finishCall n s = .next t := by
  intro n
  induction n with
  | zero => exact fun _ _ _ => ⟨_, rfl⟩
  | succ n ih =>
    intro s hI ha hr
    obtain ⟨u, hu⟩ := noUnwrittenFieldIsRead s hI ha hr
    have hIu := tickKeepsTheInvariant s u hI hu
    simp only [finishCall, hu]
    cases hc : callOver u with
    | true => exact ⟨u, rfl⟩
    | false => exact ih hIu (hIu.not_aborted hc) (running_of_callOver hc)

/-- Settles O39: a step is the ticks to the next event, and each of them answers. -/
theorem runningDecoderSteps : Obligations.RunningDecoderSteps := by
  unfold Obligations.RunningDecoderSteps
  intro s hI ha hr
  rw [stepIsTheTicksToTheNextEvent s]
  exact finishCall_next maxTicks hI ha hr

end Sys2Proof.Machine

/-! ## What the decoder reads, and what an instruction and a tick leave alone (20_memory R60 to R63, R70) -/

namespace Sys2Proof

/-! ### Rejected bytes -/

/-- An unsupported first byte is rejected whatever follows (R231). -/
theorem decode_of_unsupported {p : Params} {b1 : Byte} (hc : classify p b1 = .unsupported) (rest : List Byte) :
    decode p (b1 :: rest) = .reject .unsupportedOpcode rest := by
  simp only [decode, hc]

/-- An invalid sub-opcode in the first byte is rejected whatever follows (R172). -/
theorem decode_of_invalid_subop_first {p : Params} {b1 : Byte}
    (hc : classify p b1 = .arithRegMem ∨ classify p b1 = .arithImmAcc) (ho : arithOp (midField b1) = none)
    (rest : List Byte) : decode p (b1 :: rest) = .reject .unsupportedArithmeticOp rest := by
  rcases hc with hc | hc <;> simp only [decode, hc, ho]

/-- An invalid sub-opcode in the second byte is rejected whatever follows (R147, R172). -/
theorem decode_of_invalid_subop_second {p : Params} {b1 b2 : Byte} (hc : classify p b1 = .arithImmRm)
    (ho : arithOp (midField b2) = none) (rest : List Byte) :
    decode p (b1 :: b2 :: rest) = .reject .unsupportedArithmeticOp rest := by
  simp only [decode, hc, decodeImmRm, ho]

/-- A rejection other than for want of bytes is decided by the bytes consumed alone (R105, R231, R233). -/
theorem decode_reject_inv {p : Params} {bs rest : List Byte} {why : Reject} (h : decode p bs = .reject why rest)
    (hwhy : why ≠ .outOfBytes) :
    ∃ read, bs = read ++ rest ∧ ∀ rest', decode p (read ++ rest') = .reject why rest' := by
  obtain ⟨rfl, b1, rfl, hc⟩ | ⟨rfl, b1, rfl, hc, ho⟩ | ⟨rfl, b1, b2, rfl, hc, ho⟩ | ⟨rfl, -, -⟩ :=
    decode_reject_cases h
  · exact ⟨[b1], rfl, decode_of_unsupported hc⟩
  · exact ⟨[b1], rfl, decode_of_invalid_subop_first hc ho⟩
  · exact ⟨[b1, b2], rfl, decode_of_invalid_subop_second hc ho⟩
  · exact absurd rfl hwhy

/-- Settles O11: an instruction is decided by its encoding, a rejection by the bytes that give it. -/
theorem decodeIgnoresLaterBytes : Obligations.DecodeIgnoresLaterBytes := by
  unfold Obligations.DecodeIgnoresLaterBytes
  refine fun p bs extra => ⟨fun i rest h => ?_, fun why rest h hwhy => ?_⟩
  · obtain ⟨hwf, rfl⟩ := decode_inv h
    rw [List.append_assoc, decode_encode _ hwf]
  · obtain ⟨read, rfl, hread⟩ := decode_reject_inv h hwhy
    rw [List.append_assoc, hread]

end Sys2Proof

namespace Sys2Proof.Machine

/-! ### Frames -/

/-- Settles O29: a meaning is one call, which emits its record or ends the run inside the instruction. -/
theorem execFrame : Obligations.ExecFrame := by
  unfold Obligations.ExecFrame
  intro i s t h
  obtain ⟨r, -, hi⟩ := exec_is_runCall i
  rw [hi] at h
  obtain ⟨hb, ⟨-, rfl⟩ | ⟨k, hk, -, -, rfl⟩⟩ := runCall_cases h
  · obtain ⟨-, -, hd⟩ := (atBoundary_iff s).1 hb
    exact ⟨fun _ => rfl, rfl, rfl, rfl, handOff_executing .., handOff_simFailsAt .., rfl, Nat.le_add_right ..,
      Nat.le_refl _, rfl, hd, _, rfl⟩
  · exact ⟨fun _ => rfl, rfl, rfl, rfl, rfl, rfl, rfl, Nat.le_add_right ..,
      Nat.add_le_add_left (Nat.le_of_lt hk) _, rfl, rfl, _, rfl⟩

/-- Settles O30: a tick delivers the terminal event that is due, finds no byte, consumes one, or sends the
record out. -/
theorem tickFrame : Obligations.TickFrame := by
  unfold Obligations.TickFrame
  intro s t h
  obtain ⟨-, -, ⟨x, -, rfl⟩ | ⟨hd, hw⟩⟩ := tick_cases h
  · exact ⟨rfl, rfl, rfl, rfl, rfl, .inl rfl, .inl rfl, .inl rfl, .inr ⟨_, rfl⟩⟩
  · obtain ⟨-, -, ⟨hp, rfl⟩ | ⟨-, rfl⟩⟩ | ⟨b, hb, -, hc⟩ | ⟨-, r, -, rfl⟩ := tickPhase_cases hw
    · exact ⟨rfl, rfl, rfl, rfl, rfl, .inr ⟨hp, hd, rfl⟩, .inl rfl, .inl rfl, .inl rfl⟩
    · exact ⟨rfl, rfl, rfl, rfl, rfl, .inl rfl, .inl rfl, .inl rfl, .inl rfl⟩
    · obtain ⟨start, ctx, phase, due, rfl, -, -, hst, hst'⟩ := hc
      have hstart : start = s.start ∨ (s.phase = .boundary ∧ s.due = none ∧ start = s.cur) := by
        by_cases hp : s.phase = .boundary
        · exact .inr ⟨hp, hd, hst hp⟩
        · exact .inl (hst' hp)
      exact ⟨rfl, rfl, rfl, rfl, rfl, hstart, .inl rfl, .inr ⟨rfl, by rw [hb]; rfl, rfl⟩, .inl rfl⟩
    · exact ⟨rfl, rfl, rfl, handOff_executing .., handOff_simFailsAt .., .inl rfl, .inr ⟨r, rfl⟩, .inl rfl,
        .inr ⟨_, rfl⟩⟩

/-! ### A step from the bytes at the cursor -/

/-- Where a well-formed instruction's encoding stands at the cursor, a step is its meaning (R107). -/
theorem step_of_holds_encode {s : State} {i : Instr} (hb : s.atBoundary = true) (hwf : WellFormed s.params i)
    (h : s.Holds (encode i)) : step s = exec i s := by
  obtain ⟨rest, hwin⟩ := window_holds s h (by rw [length_encode]; exact (instrLength_bounds i).2)
  rw [step_boundary hb, decodeCall, hwin, decode_encode rest hwf]

/-- Where a well-formed instruction's encoding stands at the cursor, a step emits its record (R51, R107). -/
theorem step_emits {s : State} {i : Instr} {r : Record} (hb : s.atBoundary = true) (hwf : WellFormed s.params i)
    (hi : ∀ u, exec i u = runCall (instrLength i) r u) (h : s.Holds (encode i)) :
    step s = .next (s.emitted (instrLength i) r) := by
  rw [step_of_holds_encode hb hwf h, hi]
  exact runCall_emits r hb (by rw [← length_encode i]; exact h.hasBytes)

/-- Where bytes stand at the cursor that the decoder rejects whatever follows, a step is that rejection
(R231, R233). -/
theorem step_rejects {s : State} {why : Reject} {read : List Byte} (hb : s.atBoundary = true)
    (hl : read.length ≤ maxLength)
    (hdec : ∀ rest, decode s.params (read ++ rest) = .reject why rest) (h : s.Holds read) :
    step s = .next (rejectCall why read.length s) := by
  obtain ⟨rest, hwin⟩ := window_holds s h hl
  rw [step_boundary hb, decodeCall, hwin, hdec]
  simp

/-- Where the remaining bytes end inside an instruction or are none, a step ends the run (R232 to R235). -/
theorem step_runs_out {s : State} {bs : List Byte} (hb : s.atBoundary = true) (hl : bs.length ≤ maxLength)
    (hdec : decode s.params bs = .reject .outOfBytes []) (h : s.HoldsOnly bs) :
    step s = .next (s.ended bs.length (endHalt s.srcEnd bs.length)) := by
  rw [step_boundary hb, decodeCall, window_of_holdsOnly h hl, hdec, ← rejectCall_outOfBytes]
  rfl

/-- No byte at a boundary of a source that is exhausted is the clean end of the run (R235). -/
theorem step_done {s : State} (hb : s.atBoundary = true) (hr : s.src.read s.cur = none)
    (he : s.srcEnd = .clean) : step s = .next (s.ended 0 .done) := by
  rw [step_runs_out (bs := []) hb (Nat.zero_le _) rfl ⟨rfl, hr⟩, he]
  rfl

/-- A rejection for want of bytes leaves none unread, and the stream ends there. -/
theorem holdsOnly_window_of_outOfBytes {s : State} {rest : List Byte}
    (h : decode s.params s.window = .reject .outOfBytes rest) :
    rest = [] ∧ s.window.length < maxLength ∧ s.HoldsOnly s.window := by
  obtain ⟨h, -⟩ | ⟨h, -⟩ | ⟨h, -⟩ | ⟨-, hrest, hshort⟩ := decode_reject_cases h
  · cases h
  · cases h
  · cases h
  · exact ⟨hrest, hshort, holds_of_window (List.append_nil _).symm,
      Memory.read_end_of_short s.src maxLength s.cur hshort⟩

/-- What a step from a boundary can do, by the bytes at the cursor that decide it: an instruction's encoding
gives its record, rejected bytes their error, and the stream's last bytes the end of the run. -/
theorem step_cases {s t : State} (hb : s.atBoundary = true) (h : step s = .next t) :
    (∃ i r, WellFormed s.params i ∧ (∀ u, exec i u = runCall (instrLength i) r u) ∧ s.Holds (encode i) ∧
      t = s.emitted (instrLength i) r) ∨
    (∃ why read, why ≠ .outOfBytes ∧ read.length ≤ maxLength ∧
      (∀ rest, decode s.params (read ++ rest) = .reject why rest) ∧ s.Holds read ∧
      t = rejectCall why read.length s) ∨
    (∃ bs, bs.length ≤ maxLength ∧ decode s.params bs = .reject .outOfBytes [] ∧ s.HoldsOnly bs ∧
      t = s.ended bs.length (endHalt s.srcEnd bs.length)) := by
  cases hdec : decode s.params s.window with
  | instr i rest =>
    obtain ⟨hwf, hwin⟩ := decode_inv hdec
    obtain ⟨r, -, hi⟩ := exec_is_runCall i
    have hholds := holds_of_window hwin
    rw [step_emits hb hwf hi hholds] at h
    exact .inl ⟨i, r, hwf, hi, hholds, (Host.Outcome.next.inj h).symm⟩
  | reject why rest =>
    by_cases hwhy : why = .outOfBytes
    · subst hwhy
      obtain ⟨rfl, hshort, hholds⟩ := holdsOnly_window_of_outOfBytes hdec
      rw [step_runs_out hb (Nat.le_of_lt hshort) hdec hholds] at h
      exact .inr (.inr ⟨_, Nat.le_of_lt hshort, hdec, hholds, (Host.Outcome.next.inj h).symm⟩)
    · obtain ⟨read, hwin, hread⟩ := decode_reject_inv hdec hwhy
      have hholds := holds_of_window hwin
      have hl : read.length ≤ maxLength := by
        have := Memory.bytesFrom_length_le s.src maxLength s.cur
        rw [← State.window, hwin, List.length_append] at this
        omega
      rw [step_rejects hb hl hread hholds] at h
      exact .inr (.inl ⟨why, read, hwhy, hl, hread, hholds, (Host.Outcome.next.inj h).symm⟩)

/-! ### Another stream with the same bytes -/

/-- Streams that agree on a range of positions have the same run of bytes there. -/
theorem Memory.bytesFrom_congr {m m' : Memory} : ∀ (n a : Nat),
    (∀ x, a ≤ x → x < a + n → m'.read x = m.read x) → m'.bytesFrom n a = m.bytesFrom n a := by
  intro n
  induction n with
  | zero => intro a _; rfl
  | succ n ih =>
    intro a h
    simp only [Memory.bytesFrom, h a (Nat.le_refl a) (by omega), ih (a + 1) fun x h1 h2 => h x (by omega) (by omega)]

/-- What stands at the cursor stands there in every stream that agrees on those positions. -/
theorem State.Holds.congr {s : State} {bs : List Byte} {m : Memory} (h : s.Holds bs)
    (hm : ∀ a, s.cur ≤ a → a < s.cur + bs.length → m.read a = s.src.read a) :
    State.Holds { s with src := m } bs :=
  (Memory.bytesFrom_congr bs.length s.cur hm).trans h

/-- A run that is out of bytes ends with none of the two errors that a byte decides (R231 to R235). -/
theorem endHalt_ne (e : SrcEnd) (n : Nat) :
    endHalt e n ≠ .fail .unsupportedOpcode ∧ endHalt e n ≠ .fail .unsupportedArithmeticOp := by
  unfold endHalt
  split
  · exact ⟨nofun, nofun⟩
  · split <;> exact ⟨nofun, nofun⟩

/-- A call without a record has read the bytes that it was rejected for. -/
theorem rejectCall_cur (why : Reject) (n : Nat) (s : State) : (rejectCall why n s).cur = s.cur + n := by
  cases why <;> rfl

/-- Settles O31: the bytes that decide the step stand in the other stream too; where the end of the stream
decides, it ends there too. -/
theorem stepDependsOnItsBytesOnly : Obligations.StepDependsOnItsBytesOnly := by
  unfold Obligations.StepDependsOnItsBytesOnly
  intro s s' m hb hstep hbytes hend
  have hb' : State.atBoundary { s with src := m } = true := hb
  obtain ⟨i, r, hwf, hi, hholds, rfl⟩ | ⟨why, read, hwhy, hl, hdec, hholds, rfl⟩ |
    ⟨bs, hl, hdec, hholds, rfl⟩ := step_cases hb hstep
  · rw [emitted_cur, ← length_encode i] at hbytes
    exact step_emits hb' hwf hi (hholds.congr hbytes)
  · rw [rejectCall_cur] at hbytes
    rw [step_rejects hb' hl hdec (hholds.congr hbytes)]
    cases why with
    | outOfBytes => exact absurd rfl hwhy
    | _ => rfl
  · obtain ⟨hne, hne'⟩ := endHalt_ne s.srcEnd bs.length
    obtain ⟨hhere, hover⟩ := hholds
    have hread : m.read (s.cur + bs.length) = s.src.read (s.cur + bs.length) := by
      simpa [hne, hne'] using hend
    exact step_runs_out hb' hl hdec ⟨State.Holds.congr hhere hbytes, hread.trans hover⟩

/-! ### A run of instructions -/

/-- A run after its first `k` steps. -/
theorem run_add (n : Nat) : ∀ (k : Nat) {s t : State}, core.run k s = .next t →
    core.run (k + n) s = core.run n t := by
  intro k
  induction k with
  | zero => intro s t h; cases h; rw [Nat.zero_add]
  | succ k ih =>
    intro s t h
    rw [Nat.succ_add]
    simp only [Host.Core.run] at h ⊢
    split at h
    · exact ih h
    · cases h
    · cases h

/-- One step is a run of one. -/
theorem run_one {s t : State} (h : step s = .next t) : core.run 1 s = .next t := by
  have hcore : core.step s = .next t := h
  simp only [Host.Core.run, hcore]

/-- Of a run of bytes at the cursor the beginning stands there, and the rest behind it. -/
theorem State.Holds.split {s : State} {xs ys : List Byte} (h : s.Holds (xs ++ ys)) :
    s.Holds xs ∧ s.src.bytesFrom ys.length (s.cur + xs.length) = ys := by
  have hdrop := Memory.bytesFrom_drop s.src xs _ _ ys h
  refine ⟨?_, by simpa using hdrop.symm⟩
  rw [State.Holds, Memory.bytesFrom_take s.src xs.length (xs ++ ys).length s.cur (by simp), h]
  simp

/-- A driver whose simulator fails no record is the same after each hand-off (R247). -/
theorem handOff_of_never_fails {dr : Driver} (h : dr.executing = false ∨ dr.simFailsAt = none) (n : Nat) :
    dr.handOff n = dr := by
  rcases h with h | h <;> simp [Driver.handOff, h]

/-- The decoder has gone on from `s` to the boundary `t`: `n` bytes are read, the records `rs` have gone out,
and the environment and the driver are as they were. -/
structure WentOn (s t : State) (n : Nat) (rs : List Record) : Prop where
  boundary : t.atBoundary = true
  params : t.params = s.params
  src : t.src = s.src
  srcEnd : t.srcEnd = s.srcEnd
  driver : t.driver = s.driver
  cur : t.cur = s.cur + n
  out : t.out = s.out ++ rs.map .emit

theorem WentOn.refl {s : State} (hb : s.atBoundary = true) : WentOn s s 0 [] :=
  ⟨hb, rfl, rfl, rfl, rfl, rfl, (List.append_nil _).symm⟩

/-- An emitted record, and all that come after it. -/
theorem WentOn.cons {s t : State} {len n : Nat} {r : Record} {rs : List Record}
    (hd : ∀ k, s.driver.handOff k = s.driver) (h : WentOn (s.emitted len r) t n rs) :
    WentOn s t (len + n) (r :: rs) where
  boundary := h.boundary
  params := h.params
  src := h.src
  srcEnd := h.srcEnd
  driver := h.driver.trans (hd _)
  cur := by rw [h.cur, emitted_cur, Nat.add_assoc]
  out := by rw [h.out, emitted_out, List.append_assoc]; rfl

/-- After an emitted record the next call can begin, where the simulator fails none (R70). -/
theorem atBoundary_emitted {s : State} (hb : s.atBoundary = true) (hd : ∀ k, s.driver.handOff k = s.driver)
    (len : Nat) (r : Record) : (s.emitted len r).atBoundary = true := by
  obtain ⟨ha, -, hdue⟩ := (atBoundary_iff s).1 hb
  exact (atBoundary_iff _).2 ⟨by rw [emitted_driver, hd, ha], rfl, hdue⟩

/-- Over the encodings of well-formed instructions a run gives their records one call after another (R70). -/
theorem run_encodings {recOf : Instr → Record}
    (hrec : ∀ i s, exec i s = runCall (instrLength i) (recOf i) s) :
    ∀ (is : List Instr) (s : State), s.atBoundary = true → (∀ k, s.driver.handOff k = s.driver) →
      (∀ i ∈ is, WellFormed s.params i) → s.Holds (is.flatMap encode) →
      ∃ t : State, core.run is.length s = .next t ∧ WentOn s t (is.flatMap encode).length (is.map recOf) := by
  intro is
  induction is with
  | nil => exact fun s hb _ _ _ => ⟨s, rfl, WentOn.refl hb⟩
  | cons i is ih =>
    intro s hb hd hwf hholds
    rw [List.forall_mem_cons] at hwf
    obtain ⟨hwf, hwfs⟩ := hwf
    rw [List.flatMap_cons] at hholds ⊢
    obtain ⟨hhere, hthere⟩ := hholds.split
    rw [length_encode] at hthere
    have hdriver : (s.emitted (instrLength i) (recOf i)).driver = s.driver := hd _
    obtain ⟨t, hrun, hwent⟩ := ih (s.emitted (instrLength i) (recOf i)) (atBoundary_emitted hb hd _ _)
      (by rwa [hdriver]) hwfs hthere
    refine ⟨t, ?_, ?_⟩
    · rw [List.length_cons, Nat.add_comm, run_add _ 1 (run_one (step_emits hb hwf (hrec i) hhere)), hrun]
    · rw [List.length_append, length_encode]
      exact hwent.cons hd

/-- Settles O41: the run over the encodings, then the step that finds no byte. -/
theorem runEmitsTheRecordsInOrder : Obligations.RunEmitsTheRecordsInOrder := by
  unfold Obligations.RunEmitsTheRecordsInOrder
  intro is s hb hclean hexec hwf hholds
  choose recOf _ hrec using exec_is_runCall
  obtain ⟨hhere, hover⟩ := hholds
  obtain ⟨t, hrun, hwent⟩ := run_encodings hrec is s hb (handOff_of_never_fails (.inl hexec)) hwf hhere
  have hdone : step t = .next (t.ended 0 .done) :=
    step_done hwent.boundary (by rw [hwent.src, hwent.cur, hover]) (hwent.srcEnd.trans hclean)
  refine ⟨t.ended 0 .done, is.map recOf, (run_add 1 _ hrun).trans (run_one hdone), rfl, hwent.cur, ?_,
    List.length_map .., fun n i r hi hr u hu hlen => ?_⟩
  · rw [ended_out, hwent.out]; rfl
  · obtain rfl : recOf i = r := by simpa [hi] using hr
    rw [hrec, runCall_emits _ hu hlen]

end Sys2Proof.Machine

/-! ## The encoding (30_encoding R80 to R105) -/

namespace Sys2Proof

/-! ### Decoding and encoding are inverse -/

/-- Settles O5: `decode_encode`, which goes through the instructions by class. -/
theorem decodeOfEncodeIsTheInstruction : Obligations.DecodeOfEncodeIsTheInstruction := by
  unfold Obligations.DecodeOfEncodeIsTheInstruction
  exact fun p i rest hwf => decode_encode rest hwf

/-- Settles O6: `decode_inv`, which goes through the classes of the first byte. -/
theorem decodedBytesAreTheEncoding : Obligations.DecodedBytesAreTheEncoding := by
  unfold Obligations.DecodedBytesAreTheEncoding
  exact fun p bs rest i h => decode_inv h

/-- Settles O10: the bytes consumed are the encoding, whose length is that of R104. -/
theorem lengthByClass : Obligations.LengthByClass := by
  unfold Obligations.LengthByClass
  intro p bs rest i h
  obtain ⟨-, rfl⟩ := decode_inv h
  exact ⟨by rw [List.length_append, length_encode], instrLength_bounds i⟩

/-- Settles O9: of the ways to reject, the sub-opcodes are valid here and six bytes are enough. -/
theorem noOtherEncodingIsIllegal : Obligations.NoOtherEncodingIsIllegal := by
  unfold Obligations.NoOtherEncodingIsIllegal
  intro p b1 b2 rest hlen hclass hfirst hsecond
  cases hdec : decode p (b1 :: b2 :: rest) with
  | instr i rest' => exact ⟨i, rest', rfl⟩
  | reject why rest' =>
    obtain ⟨-, b, hbs, hc⟩ | ⟨-, b, hbs, hc, ho⟩ | ⟨-, b, b', hbs, hc, ho⟩ | ⟨-, -, hshort⟩ :=
      decode_reject_cases hdec
    · cases hbs
      exact absurd hc hclass
    · cases hbs
      simpa [ho] using hfirst hc
    · cases hbs
      simpa [ho] using hsecond hc
    · simp only [List.length_cons, maxLength] at hshort
      omega

/-- Settles O4: each of the eight words is decoded. -/
theorem sampleWordsDecode : Obligations.SampleWordsDecode := by
  unfold Obligations.SampleWordsDecode
  exact ⟨rfl, rfl, rfl, rfl, rfl, rfl, rfl, rfl⟩

/-! ### The rows of the classifier -/

/-- No jump/loop opcode matches a masked row (R84). -/
theorem hits_jump_opcode (j : JumpOp) : ∀ r ∈ maskRows, r.hits j.opcode = false := by
  cases j <;> decide

/-- No byte matches two masked rows (R84). -/
theorem maskRows_disjoint :
    ∀ b : Byte, ∀ r ∈ maskRows, ∀ r' ∈ maskRows, r.hits b = true → r'.hits b = true → r = r' := by
  decide

/-- The masked rows have five classes, so that the class names the row (R82). -/
theorem maskRows_cls_injective : ∀ r ∈ maskRows, ∀ r' ∈ maskRows, r.cls = r'.cls → r = r' := by decide

/-- The classes of the masked rows are neither unsupported nor jump-or-loop (R82). -/
theorem maskRows_cls : ∀ r ∈ maskRows, r.cls ≠ .unsupported ∧ ∀ j, r.cls ≠ .jumpOrLoop j := by
  simp [maskRows]

/-- A byte that matches a masked row has that row's class (R82, R84). -/
theorem classify_of_hits {p : Params} {b : Byte} {r : MaskRow} (hr : r ∈ maskRows) (hb : r.hits b = true) :
    classify p b = r.cls := by
  have hjump : ∀ j : JumpOp, j.opcode ≠ b := by
    rintro j rfl
    simp [hits_jump_opcode j r hr] at hb
  rw [classify_of_not_jump p b hjump, classifyMasked]
  cases hfind : maskRows.find? (fun r => r.hits b) with
  | none => exact absurd hb (List.find?_eq_none.1 hfind r hr)
  | some r' =>
    have hb' : r'.hits b = true := by simpa using List.find?_some hfind
    rw [maskRows_disjoint b r' (List.mem_of_find?_eq_some hfind) r hr hb' hb]

/-- A byte of no jump/loop variant that matches no masked row is unsupported (R82 row 7). -/
theorem classify_of_no_hits {p : Params} {b : Byte} (hj : jumpLookup p b = none)
    (hb : ∀ r ∈ maskRows, r.hits b = false) : classify p b = .unsupported := by
  have hfind : maskRows.find? (fun r => r.hits b) = none := List.find?_eq_none.2 fun r hr => by simp [hb r hr]
  rw [classify, hj, classifyMasked, hfind]

/-- Exactly the bytes that match a masked row have its class (R82, R84). -/
theorem classify_eq_cls {p : Params} {b : Byte} {r : MaskRow} (hr : r ∈ maskRows) :
    classify p b = r.cls ↔ r.hits b = true := by
  refine ⟨fun hc => ?_, classify_of_hits hr⟩
  obtain ⟨hsupported, hjump⟩ := maskRows_cls r hr
  have hmasked := classifyMasked_of_classify hc hjump
  rw [classifyMasked] at hmasked
  split at hmasked
  · rename_i r' hfind
    rw [← maskRows_cls_injective r' (List.mem_of_find?_eq_some hfind) r hr hmasked]
    simpa using List.find?_some hfind
  · exact absurd hmasked.symm hsupported

/-- Settles O7: a byte of the jump table is a jump/loop opcode, which no masked row matches, and no byte matches
two of them. -/
theorem classifierRowsAreDisjoint : Obligations.ClassifierRowsAreDisjoint := by
  unfold Obligations.ClassifierRowsAreDisjoint
  refine fun p b1 => ⟨fun hj r hr => ?_, maskRows_disjoint b1, fun r hr => classify_of_hits hr, fun j hj => ?_,
    classify_of_no_hits⟩
  · obtain ⟨j, hj⟩ := Option.isSome_iff_exists.1 hj
    obtain ⟨-, rfl⟩ := jumpLookup_eq_some.1 hj
    exact hits_jump_opcode j r hr
  · exact classify_eq_jump.2 (jumpLookup_eq_some.1 hj)

/-! ### The map of first bytes -/

/-- The bytes that each masked row matches, as ranges (R97). -/
theorem hits_iff_range : ∀ b : Byte,
    (MaskRow.hits ⟨0xFC, 0x88, .movRegMem⟩ b = true ↔ 0x88 ≤ b.toNat ∧ b.toNat ≤ 0x8B) ∧
    (MaskRow.hits ⟨0xF0, 0xB0, .movImmReg⟩ b = true ↔ 0xB0 ≤ b.toNat ∧ b.toNat ≤ 0xBF) ∧
    (MaskRow.hits ⟨0xFC, 0x80, .arithImmRm⟩ b = true ↔ 0x80 ≤ b.toNat ∧ b.toNat ≤ 0x83) ∧
    (MaskRow.hits ⟨0xC4, 0x00, .arithRegMem⟩ b = true ↔ b.toNat ≤ 0x3B ∧ b.toNat % 8 ≤ 3) ∧
    (MaskRow.hits ⟨0xC6, 0x04, .arithImmAcc⟩ b = true ↔
      b.toNat ≤ 0x3D ∧ (b.toNat % 8 = 4 ∨ b.toNat % 8 = 5)) := by
  decide

/-- The full table holds every variant (R8, R190). -/
theorem hasJump_of_full {p : Params} (hp : p.jumpTable = JumpOp.all) (j : JumpOp) : p.hasJump j = true := by
  rw [Params.hasJump, hp]
  cases j <;> rfl

/-- With the full table each variant has exactly its byte (R190). -/
theorem classify_eq_jump_of_full {p : Params} (hp : p.jumpTable = JumpOp.all) {b : Byte} {j : JumpOp} :
    classify p b = .jumpOrLoop j ↔ j.opcode = b := by
  rw [classify_eq_jump, hasJump_of_full hp j]
  exact and_iff_right rfl

/-- The bytes of the twenty variants, as ranges (R97, R190). -/
theorem exists_jump_opcode_iff (b : Byte) :
    (∃ j : JumpOp, j.opcode = b) ↔
      (0x70 ≤ b.toNat ∧ b.toNat ≤ 0x7F) ∨ (0xE0 ≤ b.toNat ∧ b.toNat ≤ 0xE3) := by
  refine ⟨?_, fun hrange => ?_⟩
  · rintro ⟨j, rfl⟩
    cases j <;> decide
  · have hcover : ∀ b : Byte, (0x70 ≤ b.toNat ∧ b.toNat ≤ 0x7F) ∨ (0xE0 ≤ b.toNat ∧ b.toNat ≤ 0xE3) →
        b ∈ JumpOp.all.map JumpOp.opcode := by decide
    obtain ⟨j, -, hj⟩ := List.mem_map.1 (hcover b hrange)
    exact ⟨j, hj⟩

/-- The class depends on the jump table alone among the parameters (R82). -/
theorem classify_congr {p q : Params} (h : p.jumpTable = q.jumpTable) (b : Byte) : classify p b = classify q b := by
  rw [classify, classify, jumpLookup, jumpLookup, h]

/-- Under the full table 164 byte values are unsupported (R231). -/
theorem count_unsupported :
    ((List.range 256).filter
      (fun k => classify Params.standard (BitVec.ofNat 8 k) = .unsupported)).length = 164 := by
  rfl

/-- Settles O8: each class by the row or the variants that give it. -/
theorem firstByteMap : Obligations.FirstByteMap := by
  unfold Obligations.FirstByteMap
  intro p b1 hp
  obtain ⟨hMov, hMovImm, hImmRm, hArith, hAcc⟩ := hits_iff_range b1
  refine ⟨?_, ?_, ?_, ?_, ?_, ?_, fun x hx => ?_, ?_⟩
  · rw [← hMov]; exact classify_eq_cls (r := ⟨0xFC, 0x88, .movRegMem⟩) (by decide)
  · rw [← hMovImm]; exact classify_eq_cls (r := ⟨0xF0, 0xB0, .movImmReg⟩) (by decide)
  · rw [← hImmRm]; exact classify_eq_cls (r := ⟨0xFC, 0x80, .arithImmRm⟩) (by decide)
  · rw [← hArith]; exact classify_eq_cls (r := ⟨0xC4, 0x00, .arithRegMem⟩) (by decide)
  · rw [← hAcc]; exact classify_eq_cls (r := ⟨0xC6, 0x04, .arithImmAcc⟩) (by decide)
  · rw [← exists_jump_opcode_iff]
    exact exists_congr fun j => classify_eq_jump_of_full hp
  · have hbyte : x.2.opcode = x.1 := by
      revert x
      decide
    rw [classify_eq_jump_of_full hp, hbyte, eq_comm]
  · simp only [classify_congr (q := Params.standard) hp]
    exact count_unsupported

end Sys2Proof

namespace Sys2Proof.Machine

/-! ### A step by the bytes that decide it -/

/-- Settles O12: the encoding at the cursor decodes to the instruction. -/
theorem stepRunsTheDecodedInstruction : Obligations.StepRunsTheDecodedInstruction := by
  unfold Obligations.StepRunsTheDecodedInstruction
  exact fun s i hb hwf hholds => step_of_holds_encode hb hwf hholds

/-- Settles O23: the byte is rejected whatever follows it. -/
theorem unsupportedOpcodeEndsTheRun : Obligations.UnsupportedOpcodeEndsTheRun := by
  unfold Obligations.UnsupportedOpcodeEndsTheRun
  intro s b1 hb hholds hc
  exact step_rejects hb (by simp [maxLength]) (decode_of_unsupported hc) hholds

/-- A step from a boundary emits one record of the shape of R50, or ends the run (R22, R107). -/
theorem step_emits_or_ends {s t : State} (hb : s.atBoundary = true) (h : step s = .next t) :
    (∃ n r, recordShape r = true ∧ t = s.emitted n r) ∨ ∃ n x, t = s.ended n x := by
  obtain ⟨i, -, hwf, -, hholds, -⟩ | ⟨why, read, -, -, -, -, rfl⟩ | ⟨bs, -, -, -, rfl⟩ := step_cases hb h
  · obtain ⟨r, hshape, hi⟩ := exec_is_runCall i
    rw [step_emits hb hwf hi hholds] at h
    exact .inl ⟨_, r, hshape, (Host.Outcome.next.inj h).symm⟩
  · exact .inr ⟨_, rejectCall_eq_ended why read.length s⟩
  · exact .inr ⟨_, _, rfl⟩

/-! ### The arith-imm-rm opcode byte under SECOND -/

/-- The meaning of an arith-imm-rm instruction is one call, in which the low bits of its opcode byte do not
occur (R147). -/
theorem exec_arithImmRm (op : ArithOp) (low : BitVec 2) (rm : Rm) (imm : Imm) (s : State) :
    exec (.arithImmRm op low rm imm) s =
      runCall (instrLength (.arithImmRm op low rm imm)) ⟨op.name, rmImmOperands rm imm⟩ s := by
  cases op <;> rfl

/-- What format MI gives after its opcode byte under SECOND: the opcode byte's low bits stand in the instruction,
and nothing else depends on them (R89). -/
theorem decodeImmRm_second {p : Params} (hp : p.swByte = .second) (bs : List Byte) :
    (∃ op rm imm rest, ∀ b, decodeImmRm p b bs = .instr (.arithImmRm op (lowField b) rm imm) rest) ∨
    (∃ why rest, ∀ b, decodeImmRm p b bs = .reject why rest) := by
  cases bs with
  | nil => exact .inr ⟨_, _, fun _ => rfl⟩
  | cons b2 tl =>
    simp only [decodeImmRm, sOf, wOf, swSource, hp]
    cases arithOp (midField b2) with
    | none => exact .inr ⟨_, _, fun _ => rfl⟩
    | some op =>
      cases readRm (modField b2) (rmField b2) tl with
      | none => exact .inr ⟨_, _, fun _ => rfl⟩
      | some x =>
        obtain ⟨rm, tl'⟩ := x
        simp only
        cases readImm (b2.getLsbD 1) (b2.getLsbD 0) tl' with
        | none => exact .inr ⟨_, _, fun _ => rfl⟩
        | some y => exact .inl ⟨op, rm, y.1, y.2, fun _ => rfl⟩

/-- A call without a record looks at no byte of the stream (R231 to R237). -/
theorem rejectCall_src (why : Reject) (n : Nat) (s : State) (m : Memory) :
    rejectCall why n { s with src := m } = { rejectCall why n s with src := m } := by
  cases why <;> rfl

/-- Where the bytes at the cursor decode to an arith-imm-rm instruction, a step emits its record. -/
theorem step_of_decode_arithImmRm {s : State} {bs rest : List Byte} {op : ArithOp} {low : BitVec 2} {rm : Rm}
    {imm : Imm} (hb : s.atBoundary = true) (hwin : s.window = bs)
    (hdec : decode s.params bs = .instr (.arithImmRm op low rm imm) rest) :
    step s = .next (s.emitted (2 + rm.dispLen + imm.len) ⟨op.name, rmImmOperands rm imm⟩) := by
  obtain ⟨hwf, hbs⟩ := decode_inv hdec
  rw [step_emits hb hwf (exec_arithImmRm op low rm imm) (holds_of_window (hwin.trans hbs)),
    instrLength_arithImmRm]

/-- Where the bytes at the cursor are rejected, a step is the call without a record. -/
theorem step_of_decode_reject {s : State} {bs rest : List Byte} {why : Reject} (hb : s.atBoundary = true)
    (hwin : s.window = bs) (hdec : decode s.params bs = .reject why rest) :
    step s = .next (rejectCall why (bs.length - rest.length) s) := by
  simp only [step_boundary hb, decodeCall, hwin, hdec]

/-- An arith-imm-rm opcode byte is followed by format MI (R94). -/
theorem decode_of_arithImmRm_mask (p : Params) {b1 : Byte} (h : b1 &&& 0xFC = 0x80) (rest : List Byte) :
    decode p (b1 :: rest) = decodeImmRm p b1 rest := by
  obtain ⟨-, -, hclass, -, -⟩ := masked_class p b1
  simp only [decode, hclass h]

/-- Settles O21: the two opcode bytes decode alike but for the low bits, which no meaning uses. -/
theorem secondIgnoresOpcodeLowBits : Obligations.SecondIgnoresOpcodeLowBits := by
  unfold Obligations.SecondIgnoresOpcodeLowBits
  intro s t b1 b1' rest hp hb h1 h1' hlen hs ht ht'
  obtain ⟨m, rfl⟩ : ∃ m, t = { s with src := m } := ⟨t.src, ht⟩
  have hwin : s.window = b1 :: rest := window_of_holdsOnly hs (Nat.succ_le_succ hlen)
  have hwin' : State.window { s with src := m } = b1' :: rest := window_of_holdsOnly ht' (Nat.succ_le_succ hlen)
  have hb' : State.atBoundary { s with src := m } = true := hb
  have hmask := decode_of_arithImmRm_mask s.params h1 rest
  have hmask' := decode_of_arithImmRm_mask s.params h1' rest
  obtain ⟨op, rm, imm, rest', hdec⟩ | ⟨why, rest', hdec⟩ := decodeImmRm_second hp rest
  · exact ⟨_, step_of_decode_arithImmRm hb hwin (hmask.trans (hdec b1)),
      step_of_decode_arithImmRm hb' hwin' (hmask'.trans (hdec b1'))⟩
  · refine ⟨_, step_of_decode_reject hb hwin (hmask.trans (hdec b1)), ?_⟩
    rw [step_of_decode_reject hb' hwin' (hmask'.trans (hdec b1')), rejectCall_src]
    rfl

/-! ### The immediate of a register destination -/

/-- An opcode byte of format MI and an addressing byte of mode 11 are those of an encoding (R94, R96, R123). -/
theorem encode_arithImmRm_reg {b1 b2 : Byte} {op : ArithOp} (h1 : b1 &&& 0xFC = 0x80) (h2 : b2 &&& 0xC0 = 0xC0)
    (hop : midField b2 = op.code) (imm : Imm) :
    encode (.arithImmRm op (lowField b1) (.reg (rmField b2)) imm) = b1 :: b2 :: imm.bytes := by
  have hopcode : ∀ b : Byte, b &&& 0xFC = 0x80 → arithImmRmOpcode (lowField b) = b := by decide
  have hmod : ∀ b : Byte, b &&& 0xC0 = 0xC0 → modField b = 0b11 := by decide
  have haddr : addrByte 0b11 op.code (rmField b2) = b2 := by rw [← hmod b2 h2, ← hop, addrByte_fields]
  rw [encode_arithImmRm, hopcode b1 h1, encodeRm, Rm.mod, Rm.code, haddr]
  rfl

/-- The step of a register destination, from the raw bytes: `s` and `w` come from the byte that SW_BYTE names, and
the immediate has the form that they select (R89, R123, R132). -/
theorem step_immRm_reg {s : State} {b1 b2 : Byte} {op : ArithOp} {imm : Imm} {sBit wBit : Bool} {v : Nat}
    (hb : s.atBoundary = true) (h1 : b1 &&& 0xFC = 0x80) (h2 : b2 &&& 0xC0 = 0xC0) (hop : midField b2 = op.code)
    (hs : sOf s.params.swByte b1 b2 = sBit) (hw : wOf s.params.swByte b1 b2 = wBit)
    (hfits : imm.fits sBit wBit = true) (hv : imm.value.toNat = v) (hholds : s.Holds (b1 :: b2 :: imm.bytes)) :
    step s = .next (s.emitted (2 + imm.len) ⟨op.name, [regname imm.w (rmField b2), toString v]⟩) := by
  subst hs hw hv
  rw [sOf_fields (rm := .reg (rmField b2)) _ _ _ rfl, wOf_fields (rm := .reg (rmField b2)) _ _ _ rfl] at hfits
  have hwf : WellFormed s.params (.arithImmRm op (lowField b1) (.reg (rmField b2)) imm) :=
    (wellFormed_arithImmRm ..).2 hfits
  rw [← encode_arithImmRm_reg h1 h2 hop] at hholds
  rw [step_emits hb hwf (exec_arithImmRm _ _ _ _) hholds, instrLength_arithImmRm]
  rfl

/-- The sub-opcodes of the three members with their mnemonics (R174). -/
theorem exists_arithOp {x : BitVec 3} {m : String}
    (h : x = 0b000#3 ∧ m = "add" ∨ x = 0b101#3 ∧ m = "sub" ∨ x = 0b111#3 ∧ m = "cmp") :
    ∃ op : ArithOp, x = op.code ∧ m = op.name := by
  obtain ⟨hx, hm⟩ | ⟨hx, hm⟩ | ⟨hx, hm⟩ := h
  · exact ⟨.add, hx, hm⟩
  · exact ⟨.sub, hx, hm⟩
  · exact ⟨.cmp, hx, hm⟩

/-- Settles O22: `step_immRm_reg` for the form of the immediate that `s` and `w` select. -/
theorem immediateWidthAndSignExtension : Obligations.ImmediateWidthAndSignExtension := by
  unfold Obligations.ImmediateWidthAndSignExtension
  intro s m b1 b2 lo hi hb h1 h2 hm hholds src rm
  obtain ⟨op, hop, rfl⟩ := exists_arithOp hm
  have hshort : s.Holds [b1, b2, lo] := (State.Holds.split (xs := [b1, b2, lo]) (ys := [hi]) hholds).1
  have hlong : s.Holds (b1 :: b2 :: (Imm.imm16 (joinLE lo hi)).bytes) := by simpa [Imm.bytes] using hholds
  have hs : sOf s.params.swByte b1 b2 = src.getLsbD 1 := rfl
  have hw : wOf s.params.swByte b1 b2 = src.getLsbD 0 := rfl
  refine ⟨fun hw0 => ?_, fun hw1 hs1 hlt => ?_, fun hw1 hs1 hge => ?_, fun hw1 hs0 => ?_⟩
  · exact step_immRm_reg (imm := .imm8 lo) hb h1 h2 hop hs (hw.trans hw0) rfl (toNat_zext16 lo) hshort
  · have hv : (sext16 lo).toNat = lo.toNat := by rw [toNat_sext16, if_pos hlt]
    exact step_immRm_reg (imm := .sext8 lo) hb h1 h2 hop (hs.trans hs1) (hw.trans hw1) rfl hv hshort
  · have hv : (sext16 lo).toNat = 0xFF00 + lo.toNat := by
      rw [toNat_sext16, if_neg (Nat.not_lt.2 hge), Nat.add_comm]
    exact step_immRm_reg (imm := .sext8 lo) hb h1 h2 hop (hs.trans hs1) (hw.trans hw1) rfl hv hshort
  · exact step_immRm_reg (imm := .imm16 (joinLE lo hi)) hb h1 h2 hop (hs.trans hs0) (hw.trans hw1) rfl
      (toNat_joinLE lo hi) hlong

/-! ### The consumers of the records -/

/-- A record has two operands or one (R50, R110). -/
theorem recordShape_operands {r : Record} (h : recordShape r = true) :
    (∃ m a b, r = ⟨m, [a, b]⟩) ∨ ∃ m a, r = ⟨m, [a]⟩ := by
  obtain ⟨m, ops⟩ := r
  simp only [recordShape, Bool.or_eq_true, Bool.and_eq_true, beq_iff_eq] at h
  obtain ⟨-, h⟩ | ⟨-, h⟩ := h
  · obtain ⟨a, b, rfl⟩ := List.length_eq_two.1 h
    exact .inl ⟨m, a, b, rfl⟩
  · obtain ⟨a, rfl⟩ := List.length_eq_one_iff.1 h
    exact .inr ⟨m, a, rfl⟩

/-- A further record adds its line (R108). -/
theorem recordLines_snoc (rs : List Record) (r : Record) :
    recordLines (rs ++ [r]) = recordLines rs ++ (recordLine r ++ "\n") := by
  induction rs with
  | nil => simp [recordLines]
  | cons r' rs ih => simp [recordLines, ih, String.append_assoc]

/-- In executing mode nothing is printed (R111). -/
theorem printedText_executing {s : State} (h : s.driver.executing = true) : printedText s = "" := by
  simp [printedText, h]

/-- An emitted record adds its line in non-executing mode (R108). -/
theorem printedText_emitted {s : State} (h : s.driver.executing = false) (n : Nat) (r : Record) :
    printedText (s.emitted n r) = printedText s ++ (recordLine r ++ "\n") := by
  simp [printedText, h, recordLines_snoc, String.append_assoc]

/-- The end of a run adds no text (R239). -/
theorem printedText_ended (s : State) (n : Nat) (x : Halt) : printedText (s.ended n x) = printedText s := by
  simp [printedText]

/-- Settles O42: a step emits a record of two or of one operand, or ends the run. -/
theorem printedTextGrowsByLines : Obligations.PrintedTextGrowsByLines := by
  unfold Obligations.PrintedTextGrowsByLines
  refine ⟨rfl, fun s t hexec hb hstep => ?_⟩
  obtain ⟨n, r, hshape, rfl⟩ | ⟨n, x, rfl⟩ := step_emits_or_ends hb hstep
  · obtain ⟨m, a, b, rfl⟩ | ⟨m, a, rfl⟩ := recordShape_operands hshape
    · refine .inr (.inl ⟨m, a, b, rfl, ?_⟩)
      simp [printedText_emitted hexec, recordLine, operandsText, String.append_assoc]
    · refine .inr (.inr ⟨m, a, rfl, ?_⟩)
      simp [printedText_emitted hexec, recordLine, operandsText, String.append_assoc]
  · exact .inl ⟨x, rfl, printedText_ended s n x⟩

/-- An emitted record adds its call in executing mode (R111). -/
theorem simCalls_emitted {s : State} (h : s.driver.executing = true) (hp : s.phase = .boundary) (n : Nat)
    (r : Record) : simCalls (s.emitted n r) = simCalls s ++ [.execute r] := by
  simp [simCalls, h, hp]

/-- Of the ends of a run only the clean one adds a call in executing mode, the render (R111). -/
theorem simCalls_ended {s : State} (h : s.driver.executing = true) (hp : s.phase = .boundary) (n : Nat)
    (x : Halt) :
    simCalls (s.ended n x) = simCalls s ++ (if x = .done then [.renderFinalState] else []) := by
  simp [simCalls, h, hp]

/-- Settles O43: an emitted record adds its call, and of the ends of a run only the clean one adds the render. -/
theorem executingModeHandsRecordsOver : Obligations.ExecutingModeHandsRecordsOver := by
  unfold Obligations.ExecutingModeHandsRecordsOver
  intro s t hexec hb hstep
  obtain ⟨-, hphase, -⟩ := (atBoundary_iff s).1 hb
  obtain ⟨n, r, -, rfl⟩ | ⟨n, x, rfl⟩ := step_emits_or_ends hb hstep
  · have hexec' : (s.emitted n r).driver.executing = true := by rw [emitted_driver, handOff_executing, hexec]
    exact ⟨printedText_executing hexec', .inl ⟨r, rfl, simCalls_emitted hexec hphase n r⟩⟩
  · have hcalls := simCalls_ended hexec hphase n x
    cases x with
    | done => exact ⟨printedText_executing hexec, .inr (.inl ⟨rfl, hcalls⟩)⟩
    | fail k => exact ⟨printedText_executing hexec, .inr (.inr ⟨k, rfl, hcalls.trans (List.append_nil _)⟩)⟩

end Sys2Proof.Machine

/-! ## The mov family, and what it shares with the arithmetic family (41_mov, 42_arith R174 to R183) -/

namespace Sys2Proof

/-! ### The opcode bytes that match a masked row, as those of an encoding (30_encoding R82, R91 to R93) -/

theorem movRegMemOpcode_of_mask : ∀ b : Byte, b &&& 0xFC = 0x88 →
    movRegMemOpcode (dBit b) (wBit b) = b := by
  decide

theorem arithRegMemOpcode_of_mask (op : ArithOp) : ∀ b : Byte, b &&& 0xC4 = 0x00 → midField b = op.code →
    arithRegMemOpcode op (dBit b) (wBit b) = b := by
  cases op <;> decide

theorem movImmRegOpcode_of_mask : ∀ b : Byte, b &&& 0xF0 = 0xB0 →
    movImmRegOpcode (wBitImmReg b) (rmField b) = b := by
  decide

theorem arithImmAccOpcode_of_mask (op : ArithOp) : ∀ b : Byte, b &&& 0xC6 = 0x04 → midField b = op.code →
    arithImmAccOpcode op (wBit b) = b := by
  cases op <;> decide

/-! ### The addressing byte (40_addressing R121 to R127) -/

/-- The mode bits of an addressing byte by its range. -/
theorem modField_of_range : ∀ b : Byte,
    (0xC0 ≤ b.toNat → modField b = 0b11) ∧ (b.toNat < 0x40 → modField b = 0b00) ∧
    (0x40 ≤ b.toNat → b.toNat < 0x80 → modField b = 0b01) ∧
    (0x80 ≤ b.toNat → b.toNat < 0xC0 → modField b = 0b10) := by
  decide

/-- An operand with the mode and r/m bits of an addressing byte has that byte in its encoding (R96). -/
theorem encodeRm_of_fields {b : Byte} {rm : Rm} (hmod : modField b = rm.mod) (hcode : rmField b = rm.code) :
    encodeRm (midField b) rm = b :: rm.dispBytes := by
  rw [encodeRm, ← hmod, ← hcode, addrByte_fields]

end Sys2Proof

namespace Sys2Proof.Machine

/-! ### The register/memory forms -/

/-- The meaning of `mov` between register and register or memory is one call (R160). -/
theorem exec_movRegMem (d w : Bool) (reg : BitVec 3) (rm : Rm) (s : State) :
    exec (.movRegMem d w reg rm) s =
      runCall (instrLength (.movRegMem d w reg rm)) ⟨"mov", regMemOperands d w reg rm⟩ s := rfl

/-- The meaning of a register/memory form of the arithmetic group is one call (R175 to R177). -/
theorem exec_arithRegMem (op : ArithOp) (d w : Bool) (reg : BitVec 3) (rm : Rm) (s : State) :
    exec (.arithRegMem op d w reg rm) s =
      runCall (instrLength (.arithRegMem op d w reg rm)) ⟨op.name, regMemOperands d w reg rm⟩ s := by
  cases op <;> rfl

/-- Settles O14: each form is one call of its length, which emits its record. -/
theorem regMemFormsEmitTheirRecord : Obligations.RegMemFormsEmitTheirRecord := by
  unfold Obligations.RegMemFormsEmitTheirRecord
  intro d w reg rm s hb hbytes ops
  have harith : ∀ op : ArithOp,
      exec (.arithRegMem op d w reg rm) s = .next (s.emitted (2 + rm.dispLen) ⟨op.name, ops⟩) := by
    intro op
    rw [exec_arithRegMem, instrLength_arithRegMem]
    exact runCall_emits _ hb hbytes
  exact ⟨(exec_movRegMem d w reg rm s).trans (runCall_emits _ hb hbytes), harith .add, harith .sub, harith .cmp⟩

/-- A step on an opcode byte of format RM and an encoded operand (R91, R160, R174 to R177). -/
theorem step_regMem {s : State} {m : String} {b1 : Byte} {reg : BitVec 3} {rm : Rm} (hb : s.atBoundary = true)
    (hm : b1 &&& 0xFC = 0x88 ∧ m = "mov" ∨
      b1 &&& 0xC4 = 0x00 ∧ ∃ op : ArithOp, midField b1 = op.code ∧ m = op.name)
    (hwf : rm.wf = true) (hholds : s.Holds (b1 :: encodeRm reg rm)) :
    step s = .next (s.emitted (2 + rm.dispLen) ⟨m, regMemOperands (dBit b1) (wBit b1) reg rm⟩) := by
  obtain ⟨h1, rfl⟩ | ⟨h1, op, hop, rfl⟩ := hm
  · refine step_emits (i := .movRegMem (dBit b1) (wBit b1) reg rm) hb hwf (exec_movRegMem _ _ reg rm) ?_
    rwa [encode, movRegMemOpcode_of_mask b1 h1]
  · rw [← instrLength_arithRegMem op (dBit b1) (wBit b1) reg rm]
    refine step_emits hb ((wellFormed_arithRegMem ..).2 hwf) (exec_arithRegMem op _ _ reg rm) ?_
    rwa [encode_arithRegMem, arithRegMemOpcode_of_mask op b1 h1 hop]

/-- Settles O20: `step_regMem` for the operand form that the addressing byte's range selects. -/
theorem regMemBytesToRecord : Obligations.RegMemBytesToRecord := by
  unfold Obligations.RegMemBytesToRecord
  intro s m b1 b2 lo hi hb hm w reg rm emits
  have hemits : ∀ (x : Rm) (a : String), x.wf = true → modField b2 = x.mod → rm = x.code → rmText w x = a →
      s.Holds (b1 :: b2 :: x.dispBytes) → emits (2 + x.dispLen) a := by
    rintro x a hwf hmod hcode rfl hholds
    rw [← encodeRm_of_fields hmod hcode] at hholds
    exact step_regMem hb (hm.imp_right (And.imp_right exists_arithOp)) hwf hholds
  obtain ⟨hreg, hbase, hdisp8, hdisp16⟩ := modField_of_range b2
  refine ⟨fun h hholds => ?_, fun h h6 hholds => ?_, fun h h6 hholds => ?_, fun h h' hholds => ?_,
    fun h h' hholds => ?_⟩
  · exact hemits (.reg rm) _ rfl (hreg h) rfl rfl hholds
  · refine hemits (.direct (joinLE lo hi)) _ rfl (hbase h) h6 ?_ (by simpa [Rm.dispBytes] using hholds)
    rw [rmText, directText, toNat_joinLE]; rfl
  · exact hemits (.mem rm) _ (bne_iff_ne.2 h6) (hbase h) rfl rfl hholds
  · refine hemits (.mem8 rm lo) _ rfl (hdisp8 h h') rfl ?_ hholds
    rw [rmText, baseDispText, toNat_zext16]; rfl
  · refine hemits (.mem16 rm (joinLE lo hi)) _ rfl (hdisp16 h h') rfl ?_ (by simpa [Rm.dispBytes] using hholds)
    rw [rmText, baseDispText, toNat_joinLE]; rfl

/-! ### The immediate forms with a register destination -/

/-- The operands of formats IR and AI, with the immediate's value in decimal (R142, R145). -/
theorem regImmOperands_of_value {imm : Imm} {v : Nat} (hv : imm.value.toNat = v) (reg : BitVec 3) :
    regImmOperands reg imm = [regname imm.w reg, toString v] := by
  subst hv; rfl

/-- The meaning of `mov` immediate to register is one call (R161). -/
theorem exec_movImmReg (reg : BitVec 3) (imm : Imm) (s : State) :
    exec (.movImmReg reg imm) s =
      runCall (instrLength (.movImmReg reg imm)) ⟨"mov", regImmOperands reg imm⟩ s := rfl

/-- The meaning of an accumulator form is one call, with register code 0 (R181 to R183). -/
theorem exec_arithImmAcc (op : ArithOp) (imm : Imm) (s : State) :
    exec (.arithImmAcc op imm) s =
      runCall (instrLength (.arithImmAcc op imm)) ⟨op.name, regImmOperands 0 imm⟩ s := by
  cases op <;> rfl

/-- Settles O15: one call of the immediate's length, whose value is the byte or the two bytes joined. -/
theorem movImmRegEmitsItsRecord : Obligations.MovImmRegEmitsItsRecord := by
  unfold Obligations.MovImmRegEmitsItsRecord
  refine fun reg s hb => ⟨fun b hbytes => ?_, fun lo hi hbytes => ?_⟩
  · rw [exec_movImmReg, regImmOperands_of_value (imm := .imm8 b) (toNat_zext16 b)]
    exact runCall_emits _ hb hbytes
  · rw [exec_movImmReg, regImmOperands_of_value (imm := .imm16 (joinLE lo hi)) (toNat_joinLE lo hi)]
    exact runCall_emits _ hb hbytes

/-- A step on an opcode byte `1011wrrr` and the immediate that `w` selects (R87, R92, R161). -/
theorem step_movImmReg {s : State} {b1 : Byte} {imm : Imm} {v : Nat} (hb : s.atBoundary = true)
    (h1 : b1 &&& 0xF0 = 0xB0) (hw : wBitImmReg b1 = imm.w) (hfull : imm.full = true) (hv : imm.value.toNat = v)
    (hholds : s.Holds (b1 :: imm.bytes)) :
    step s = .next (s.emitted (1 + imm.len) ⟨"mov", [regname imm.w (rmField b1), toString v]⟩) := by
  rw [← regImmOperands_of_value hv]
  refine step_emits (i := .movImmReg (rmField b1) imm) hb hfull (exec_movImmReg _ imm) ?_
  rwa [encode, ← hw, movImmRegOpcode_of_mask b1 h1]

/-- A step on an opcode byte `00ooo10w` and the immediate that `w` selects (R88, R93, R181 to R183). -/
theorem step_arithImmAcc {s : State} {b1 : Byte} {op : ArithOp} {imm : Imm} {v : Nat} (hb : s.atBoundary = true)
    (h1 : b1 &&& 0xC6 = 0x04) (hop : midField b1 = op.code) (hw : wBit b1 = imm.w) (hfull : imm.full = true)
    (hv : imm.value.toNat = v) (hholds : s.Holds (b1 :: imm.bytes)) :
    step s = .next (s.emitted (1 + imm.len) ⟨op.name, [regname imm.w 0, toString v]⟩) := by
  rw [← regImmOperands_of_value hv, ← instrLength_arithImmAcc op imm]
  refine step_emits hb ((wellFormed_arithImmAcc ..).2 hfull) (exec_arithImmAcc op imm) ?_
  rwa [encode_arithImmAcc, ← hw, arithImmAccOpcode_of_mask op b1 h1 hop]

/-- Settles O44: `step_movImmReg` and `step_arithImmAcc` for the form of the immediate that `w` selects. -/
theorem immediateBytesToRecord : Obligations.ImmediateBytesToRecord := by
  unfold Obligations.ImmediateBytesToRecord
  intro s m b1 lo hi hb
  have hlong : s.Holds [b1, lo, hi] → s.Holds (b1 :: (Imm.imm16 (joinLE lo hi)).bytes) := by simp [Imm.bytes]
  refine ⟨fun h1 => ⟨fun hw hholds => ?_, fun hw hholds => ?_⟩, fun h1 hm => ?_⟩
  · exact step_movImmReg (imm := .imm8 lo) hb h1 hw rfl (toNat_zext16 lo) hholds
  · exact step_movImmReg (imm := .imm16 (joinLE lo hi)) hb h1 hw rfl (toNat_joinLE lo hi) (hlong hholds)
  · obtain ⟨op, hop, rfl⟩ := exists_arithOp hm
    refine ⟨fun hw hholds => ?_, fun hw hholds => ?_⟩
    · exact step_arithImmAcc (imm := .imm8 lo) hb h1 hop hw rfl (toNat_zext16 lo) hholds
    · exact step_arithImmAcc (imm := .imm16 (joinLE lo hi)) hb h1 hop hw rfl (toNat_joinLE lo hi)
        (hlong hholds)

end Sys2Proof.Machine

/-! ## The arithmetic family: immediate destinations and invalid sub-opcodes (42_arith R172, R178 to R183) -/

namespace Sys2Proof.Machine

/-- The size qualifier of an immediate form, by the addressing byte's mode bits and the immediate's width bit:
none for a register, otherwise that of the stored width, 16 bits for a sign-extended byte too (R135, R143). -/
theorem sizedText_eq_qualifier (rm : Rm) (imm : Imm) (a : String) :
    sizedText (rmIsMem rm) imm.width a =
      (if rm.mod = 0b11 then "" else if imm.w then "word " else "byte ") ++ a := by
  have hwidth : sizedText true imm.width a = (if imm.w then "word " else "byte ") ++ a := by cases imm <;> rfl
  cases rm with
  | reg => exact String.empty_append.symm
  | direct | mem | mem8 | mem16 => exact hwidth

/-- The operands of format MI, with the qualifier spelled out and the immediate's value in decimal
(R142, R143, R145). -/
theorem rmImmOperands_of_value {imm : Imm} {v : Nat} (hv : imm.value.toNat = v) (rm : Rm) :
    rmImmOperands rm imm =
      [(if rm.mod = 0b11 then "" else if imm.w then "word " else "byte ") ++ rmText imm.w rm, toString v] := by
  subst hv
  rw [rmImmOperands, sizedText_eq_qualifier]
  rfl

/-- Settles O16: each form is one call of its length, whose value depends on the form of the immediate. -/
theorem immRmFormsEmitTheirRecord : Obligations.ImmRmFormsEmitTheirRecord := by
  unfold Obligations.ImmRmFormsEmitTheirRecord
  intro low rm imm s hb hbytes qualifier value ops len
  have hvalue : imm.value.toNat = value := by
    cases imm with
    | imm8 b => exact toNat_zext16 b
    | imm16 v => rfl
    | sext8 b => exact toNat_sext16 b
  have hemits : ∀ op : ArithOp, exec (.arithImmRm op low rm imm) s = .next (s.emitted len ⟨op.name, ops⟩) := by
    intro op
    rw [exec_arithImmRm, instrLength_arithImmRm, rmImmOperands_of_value hvalue]
    exact runCall_emits _ hb hbytes
  exact ⟨hemits .add, hemits .sub, hemits .cmp⟩

/-- The meaning of an accumulator form on a stream that holds its bytes (R181 to R183). -/
theorem exec_arithImmAcc_emits {s : State} {imm : Imm} {v : Nat} (hb : s.atBoundary = true)
    (hv : imm.value.toNat = v) (hbytes : s.HasBytes (1 + imm.len)) (op : ArithOp) :
    exec (.arithImmAcc op imm) s =
      .next (s.emitted (1 + imm.len) ⟨op.name, [regname imm.w 0, toString v]⟩) := by
  rw [exec_arithImmAcc, instrLength_arithImmAcc, regImmOperands_of_value hv]
  exact runCall_emits _ hb hbytes

/-- Settles O17: `exec_arithImmAcc_emits` for the two forms of the immediate, which name al and ax. -/
theorem immAccFormsEmitTheirRecord : Obligations.ImmAccFormsEmitTheirRecord := by
  unfold Obligations.ImmAccFormsEmitTheirRecord
  refine fun s hb => ⟨fun b hbytes => ?_, fun v hbytes => ?_⟩
  · have hemits := exec_arithImmAcc_emits (imm := .imm8 b) hb (toNat_zext16 b) hbytes
    exact ⟨hemits .add, hemits .sub, hemits .cmp⟩
  · have hemits := exec_arithImmAcc_emits (imm := .imm16 v) hb rfl hbytes
    exact ⟨hemits .add, hemits .sub, hemits .cmp⟩

/-- Settles O24: the byte that holds the sub-opcode is rejected whatever follows it. -/
theorem invalidSubopEndsTheRunAtOnce : Obligations.InvalidSubopEndsTheRunAtOnce := by
  unfold Obligations.InvalidSubopEndsTheRunAtOnce
  intro s b1 b2 hb
  obtain ⟨hregMem, hacc, himmRm, -, -⟩ := masked_class s.params b1
  refine ⟨fun h1 hsub hholds => ?_, fun h1 hsub hholds => ?_⟩
  · have hclass := h1.imp hregMem hacc
    exact step_rejects hb (by simp [maxLength])
      (decode_of_invalid_subop_first hclass (arithOp_none _ hsub)) hholds
  · exact step_rejects hb (by simp [maxLength])
      (decode_of_invalid_subop_second (himmRm h1) (arithOp_none _ hsub)) hholds

end Sys2Proof.Machine

/-! ## The jump/loop family (43_jump_loop R190 to R214) -/

namespace Sys2Proof

/-- A byte of the jump table whose variant the decoder does not hold is unsupported: no masked row matches it
(R8, R43, R84). -/
theorem classify_opcode_of_not_mem {p : Params} {j : JumpOp} (hj : j ∉ p.jumpTable) :
    classify p j.opcode = .unsupported := by
  refine classify_of_no_hits ?_ (hits_jump_opcode j)
  rw [Option.eq_none_iff_forall_not_mem]
  intro k hk
  obtain ⟨hhas, hop⟩ := jumpLookup_eq_some.1 hk
  rw [JumpOp.opcode_injective k j hop, Params.hasJump, List.contains_iff_mem] at hhas
  exact hj hhas

end Sys2Proof

namespace Sys2Proof.Machine

/-! ### The target (43_jump_loop R191, R192) -/

/-- `dec(v)` is the usual decimal text of an integer (R13). -/
theorem decInt_eq_toString (v : Int) : decInt v = toString v := by
  cases v with
  | ofNat n => exact if_neg (Int.not_lt.2 (Int.natCast_nonneg n))
  | negSucc n => exact if_pos (Int.negSucc_lt_zero n)

/-- The offset is the two's complement reading of its byte, plus 2 (R11, R191). -/
theorem jumpOffset_eq (off : Byte) : jumpOffset off = off.toInt + 2 :=
  congrArg (· + 2) (sint8_eq_toInt off)

/-- The one operand, with the offset in the integers and its usual decimal text (R191 to R193). -/
theorem jumpOperands_eq (off : Byte) :
    jumpOperands off =
      [if off.toInt + 2 = 0 then "$+0"
        else if 0 < off.toInt + 2 then "$+" ++ toString (off.toInt + 2) ++ "+0"
        else "$" ++ toString (off.toInt + 2) ++ "+0"] := by
  rw [jumpOperands, targetText, jumpOffset_eq, decInt_eq_toString]

/-! ### The meanings -/

/-- The meaning of a jump/loop instruction is one call, which reads the offset byte (R193). -/
theorem exec_jump (j : JumpOp) (off : Byte) (s : State) :
    exec (.jump j off) s = runCall (instrLength (.jump j off)) ⟨j.name, jumpOperands off⟩ s := by
  cases j <;> rfl

/-- The meaning of a jump/loop instruction on a stream that holds its two bytes: its record, with no transfer
of control (R193, R194). -/
theorem exec_jump_emits {s : State} {off : Byte} (hb : s.atBoundary = true) (hbytes : s.HasBytes 2) (j : JumpOp) :
    exec (.jump j off) s = .next (s.emitted 2 ⟨j.name, jumpOperands off⟩) := by
  rw [exec_jump, instrLength_jump]
  exact runCall_emits _ hb hbytes

/-- Settles O18: `exec_jump_emits` for the sixteen conditional jumps. -/
theorem conditionalJumpsEmitTheirRecord : Obligations.ConditionalJumpsEmitTheirRecord := by
  unfold Obligations.ConditionalJumpsEmitTheirRecord
  intro off s hb hbytes
  have hemits := exec_jump_emits (off := off) hb hbytes
  rw [jumpOperands_eq] at hemits
  exact ⟨hemits .jo, hemits .jno, hemits .jb, hemits .jnb, hemits .je, hemits .jne, hemits .jbe, hemits .jnbe,
    hemits .js, hemits .jns, hemits .jp, hemits .jnp, hemits .jl, hemits .jnl, hemits .jle, hemits .jnle⟩

/-- Settles O19: `exec_jump_emits` for the four loop forms. -/
theorem loopFormsEmitTheirRecord : Obligations.LoopFormsEmitTheirRecord := by
  unfold Obligations.LoopFormsEmitTheirRecord
  intro off s hb hbytes
  have hemits := exec_jump_emits (off := off) hb hbytes
  rw [jumpOperands_eq] at hemits
  exact ⟨hemits .loopnz, hemits .loopz, hemits .loop, hemits .jcxz⟩

/-! ### From the bytes -/

/-- A step on the byte of a variant that the decoder holds, and an offset byte (R43, R193). -/
theorem step_jump {s : State} {j : JumpOp} {off : Byte} (hb : s.atBoundary = true) (hj : j ∈ s.params.jumpTable)
    (hholds : s.Holds [j.opcode, off]) : step s = .next (s.emitted 2 ⟨j.name, jumpOperands off⟩) := by
  rw [← instrLength_jump j off]
  refine step_emits hb ?_ (exec_jump j off) ?_
  · rwa [wellFormed_jump, Params.hasJump, List.contains_iff_mem]
  · rwa [encode_jump]

/-- Settles O45: a byte whose entry the table holds runs its variant, and one whose entry is missing is
unsupported. -/
theorem jumpBytesToRecord : Obligations.JumpBytesToRecord := by
  unfold Obligations.JumpBytesToRecord
  intro s off hb o target x hx
  have htable : x.2.1.opcode = x.1 ∧ x.2.1.name = x.2.2 := by
    revert x
    decide
  obtain ⟨hopcode, hname⟩ := htable
  rw [← hopcode, ← hname]
  refine ⟨fun hj hholds => ?_, fun hj hholds => ?_⟩
  · rw [step_jump hb hj hholds, jumpOperands_eq]
  · exact unsupportedOpcodeEndsTheRun s _ hb hholds (classify_opcode_of_not_mem hj)

end Sys2Proof.Machine

/-! ## The ends of a run (60_exceptions R230 to R247) -/

namespace Sys2Proof

/-- A proper beginning of an encoding is out of bytes: what it decided, the whole encoding would decide too
(R105, R232). -/
theorem decode_take_encode {p : Params} {i : Instr} {k : Nat} (hwf : WellFormed p i) (hk : k < instrLength i) :
    decode p ((encode i).take k) = .reject .outOfBytes [] := by
  have hwhole : decode p ((encode i).take k ++ (encode i).drop k) = .instr i [] := by
    simpa using decode_encode [] hwf
  obtain ⟨hinstr, hreject⟩ := decodeIgnoresLaterBytes p ((encode i).take k) ((encode i).drop k)
  cases hdec : decode p ((encode i).take k) with
  | instr j rest =>
    rw [hinstr j rest hdec, Decoded.instr.injEq, List.append_eq_nil_iff, List.drop_eq_nil_iff, length_encode]
      at hwhole
    obtain ⟨-, -, hle⟩ := hwhole
    omega
  | reject why rest =>
    by_cases hwhy : why = .outOfBytes
    · subst hwhy
      obtain ⟨rfl, -⟩ : rest = [] ∧ ((encode i).take k).length < maxLength := by
        simpa using decode_reject_cases hdec
      rfl
    · rw [hreject why rest hdec hwhy] at hwhole
      cases hwhole

end Sys2Proof

namespace Sys2Proof.Machine

/-! ### The end of the stream -/

/-- A call that is out of bytes is the clean end exactly when it has read none and the source is exhausted
(R235). -/
theorem endHalt_eq_done {e : SrcEnd} {n : Nat} : endHalt e n = .done ↔ e = .clean ∧ n = 0 := by
  cases e <;> simp [endHalt]

/-- Settles O25: the decoder is out of bytes, and the instruction's own call reads all of them and finds no
further one. -/
theorem streamEndInsideInstruction : Obligations.StreamEndInsideInstruction := by
  unfold Obligations.StreamEndInsideInstruction
  intro s i k hb hwf hpos hk hholds h
  have hlen : ((encode i).take k).length = k := by
    rw [List.length_take, length_encode, Nat.min_eq_left (Nat.le_of_lt hk)]
  have hhalt : endHalt s.srcEnd k = h := by
    simp only [h, endHalt, if_neg hpos.ne']
    cases s.srcEnd <;> rfl
  rw [← hhalt]
  have hmax : k ≤ maxLength := Nat.le_trans (Nat.le_of_lt hk) (instrLength_bounds i).2
  have hstep := step_runs_out hb (by rwa [hlen]) (decode_take_encode hwf hk) hholds
  obtain ⟨hhere, hover⟩ := hholds
  have hbytes := State.Holds.hasBytes hhere
  rw [hlen] at hstep hover hbytes
  obtain ⟨r, -, hi⟩ := exec_is_runCall i
  exact ⟨hstep, (hi s).trans (runCall_ends r hb hk hbytes hover)⟩

/-- Settles O26: of the ways a step can go from a boundary, only the one that runs out of bytes with none read
ends in `Done`. -/
theorem streamEndAtBoundary : Obligations.StreamEndAtBoundary := by
  unfold Obligations.StreamEndAtBoundary
  refine fun s hb => ⟨fun hr he => step_done hb hr he, fun hr he => ?_, fun t hstep hdone => ?_⟩
  · rw [step_runs_out (bs := []) hb (Nat.zero_le _) rfl ⟨rfl, hr⟩, he]
    rfl
  · obtain ⟨i, r, -, -, -, rfl⟩ | ⟨why, read, hwhy, -, -, -, rfl⟩ |
      ⟨bs, -, -, ⟨-, hover⟩, rfl⟩ := step_cases hb hstep
    · cases hdone
    · cases why with
      | outOfBytes => exact absurd rfl hwhy
      | unsupportedOpcode | unsupportedArithmeticOp => cases hdone
    · obtain ⟨hclean, hnone⟩ := endHalt_eq_done.1 (Phase.halted.inj hdone)
      rw [hnone] at hover
      exact ⟨hover, hclean⟩

/-! ### The simulator error -/

/-- A tick of an aborted driver is a fault (R247). -/
theorem tick_aborted {s : State} (ha : s.driver.aborted = true) : tick s = .fault .driverAborted := by
  simp [tick, ha]

/-- A step of an aborted driver is a fault (R247). -/
theorem step_aborted {s : State} (ha : s.driver.aborted = true) : step s = .fault .driverAborted := by
  have hb : s.atBoundary = false := by
    cases hq : s.atBoundary with
    | false => rfl
    | true =>
      obtain ⟨hlive, -, -⟩ := (atBoundary_iff s).1 hq
      rw [ha] at hlive
      cases hlive
  simp [step, hb, maxTicks, finishCall, tick_aborted ha]

/-- A meaning that leaves the decoder at a boundary has emitted a record from one (R51, R107). -/
theorem exec_emitted_of_boundary {i : Instr} {s t : State} (h : exec i s = .next t) (hp : t.phase = .boundary) :
    s.atBoundary = true ∧ ∃ r, t = s.emitted (instrLength i) r := by
  obtain ⟨r, -, hi⟩ := exec_is_runCall i
  rw [hi] at h
  obtain ⟨hb, ⟨-, rfl⟩ | ⟨k, -, -, -, rfl⟩⟩ := runCall_cases h
  · exact ⟨hb, r, rfl⟩
  · cases hp

/-- A record emitted from a boundary aborts the driver exactly when it is the one the simulator fails in
executing mode (R247). -/
theorem emitted_aborted {s : State} (hb : s.atBoundary = true) (n : Nat) (r : Record) :
    (s.emitted n r).driver.aborted =
      (s.driver.executing && s.driver.simFailsAt == some (recordsOf s.out).length) := by
  obtain ⟨ha, -, -⟩ := (atBoundary_iff s).1 hb
  rw [emitted_driver, handOff_aborted, ha, Bool.false_or]

/-- Settles O28: the emitted record's hand-off decides whether the driver is aborted, and an aborted driver
takes no step. -/
theorem simulatorErrorEndsTheRun : Obligations.SimulatorErrorEndsTheRun := by
  unfold Obligations.SimulatorErrorEndsTheRun
  intro s t i hexec hp
  obtain ⟨hb, r, rfl⟩ := exec_emitted_of_boundary hexec hp
  have haborted := emitted_aborted hb (instrLength i) r
  refine ⟨fun hmode hfails => ?_, fun hgoes => ?_⟩
  · have ha : (s.emitted (instrLength i) r).driver.aborted = true := by
      rw [haborted, hmode, hfails, BEq.rfl]
      rfl
    exact ⟨ha, step_aborted ha, tick_aborted ha⟩
  · rw [haborted, Bool.and_eq_false_iff]
    exact hgoes.imp_right beq_eq_false_iff_ne.2

end Sys2Proof.Machine

/-! ## Reset and whole runs (70_reset_and_hazards R260 to R268) -/

namespace Sys2Proof.Machine

/-! ### The calls of a run from a boundary -/

/-- A driver that has not ended the run at a hand-off is as it was (R247). -/
theorem handOff_of_live {dr : Driver} {n : Nat} (h : (dr.handOff n).aborted = false) : dr.handOff n = dr := by
  unfold Driver.handOff at h ⊢
  split
  · rename_i hfails
    rw [if_pos hfails] at h
    cases h
  · rfl

/-- After an emitted record the decoder has gone on, unless the driver has ended the run (R70, R247). -/
theorem WentOn.emitted {s : State} {len : Nat} {r : Record} (hb : s.atBoundary = true)
    (ha : (s.emitted len r).driver.aborted = false) : WentOn s (s.emitted len r) len [r] where
  boundary := by
    obtain ⟨-, -, hd⟩ := (atBoundary_iff s).1 hb
    exact (atBoundary_iff _).2 ⟨ha, rfl, hd⟩
  params := rfl
  src := rfl
  srcEnd := rfl
  driver := handOff_of_live ha
  cur := rfl
  out := rfl

theorem WentOn.trans {s t u : State} {n m : Nat} {rs qs : List Record} (h : WentOn s t n rs)
    (h' : WentOn t u m qs) : WentOn s u (n + m) (rs ++ qs) where
  boundary := h'.boundary
  params := h'.params.trans h.params
  src := h'.src.trans h.src
  srcEnd := h'.srcEnd.trans h.srcEnd
  driver := h'.driver.trans h.driver
  cur := by rw [h'.cur, h.cur, Nat.add_assoc]
  out := by rw [h'.out, h.out, List.map_append, List.append_assoc]

/-- The number of records that have gone out. -/
theorem WentOn.length_records {s t : State} {n : Nat} {rs : List Record} (h : WentOn s t n rs) :
    (recordsOf t.out).length = (recordsOf s.out).length + rs.length := by
  rw [h.out, recordsOf_append, recordsOf_map_emit, List.length_append]

/-- The run over the stream `m` is over in `t`: a byte was unsupported, the driver ended the run, or the decoder
halted on a stream that has an end. -/
def RunOver (m : Memory) (t : State) : Prop :=
  t.phase = .halted (.fail .unsupportedOpcode) ∨ t.phase = .halted (.fail .unsupportedArithmeticOp) ∨
  t.driver.aborted = true ∨ (∃ h, t.phase = .halted h) ∧ ∃ a, m.read a = none

/-- From a boundary a step always answers (R107). -/
theorem exists_step_of_boundary {s : State} (hb : s.atBoundary = true) : ∃ t, step s = .next t := by
  obtain ⟨k, t, hcall, -⟩ := decodeCall_ticks hb
  exact ⟨t, (step_boundary hb).trans hcall⟩

/-- From a boundary a step reads two bytes or more and emits a record, or the run is over (R104, R107, R265). -/
theorem step_goes_on_or_over {s t : State} (hb : s.atBoundary = true) (h : step s = .next t) :
    (∃ len r, 2 ≤ len ∧ WentOn s t len [r]) ∨ RunOver s.src t := by
  obtain ⟨i, r, -, -, -, rfl⟩ | ⟨why, read, hwhy, -, -, -, rfl⟩ | ⟨bs, -, -, ⟨-, hover⟩, rfl⟩ := step_cases hb h
  · cases ha : (s.emitted (instrLength i) r).driver.aborted with
    | false => exact .inl ⟨_, r, (instrLength_bounds i).1, WentOn.emitted hb ha⟩
    | true => exact .inr (.inr (.inr (.inl ha)))
  · cases why with
    | outOfBytes => exact absurd rfl hwhy
    | unsupportedOpcode => exact .inr (.inl rfl)
    | unsupportedArithmeticOp => exact .inr (.inr (.inl rfl))
  · exact .inr (.inr (.inr (.inr ⟨⟨_, rfl⟩, _, hover⟩)))

/-- `n` steps from a boundary emit `n` records, of two bytes or more each, or the run is over by then. -/
theorem run_goes_on_or_over {s : State} (hb : s.atBoundary = true) (n : Nat) :
    (∃ t len rs, core.run n s = .next t ∧ WentOn s t len rs ∧ rs.length = n ∧ 2 * n ≤ len) ∨
    (∃ k t, k ≤ n ∧ core.run k s = .next t ∧ RunOver s.src t) := by
  induction n with
  | zero => exact .inl ⟨s, 0, [], rfl, WentOn.refl hb, rfl, Nat.le_refl 0⟩
  | succ n ih =>
    obtain ⟨t, len, rs, hrun, hwent, rfl, hlen⟩ | ⟨k, t, hk, hrun, hover⟩ := ih
    · obtain ⟨u, hstep⟩ := exists_step_of_boundary hwent.boundary
      have hrun' : core.run (rs.length + 1) s = .next u := (run_add 1 _ hrun).trans (run_one hstep)
      obtain ⟨len', r, hlen', hwent'⟩ | hover := step_goes_on_or_over hwent.boundary hstep
      · exact .inl ⟨u, len + len', rs ++ [r], hrun', hwent.trans hwent', List.length_append, by omega⟩
      · rw [hwent.src] at hover
        exact .inr ⟨_, u, Nat.le_refl _, hrun', hover⟩
    · exact .inr ⟨k, t, Nat.le_succ_of_le hk, hrun, hover⟩

/-- A run keeps the invariant, as each of its steps does. -/
theorem inv_run : ∀ (n : Nat) {s t : State}, Inv s → core.run n s = .next t → Inv t := by
  intro n
  induction n with
  | zero => intro s t hI h; cases h; exact hI
  | succ n ih =>
    intro s t hI h
    simp only [Host.Core.run] at h
    split at h
    · rename_i u hu
      exact ih (stepKeepsTheInvariant s u hI hu) h
    · cases h
    · cases h

/-! ### Finite and endless streams -/

/-- Settles O40: one call more than there are bytes left would read beyond the end of the stream, since each reads
two bytes or more. -/
theorem runEndsWithinBytesPlusOneCalls : Obligations.RunEndsWithinBytesPlusOneCalls := by
  unfold Obligations.RunEndsWithinBytesPlusOneCalls
  intro s hI hb htail
  obtain ⟨t, len, rs, hrun, hwent, -, hlen⟩ | ⟨k, t, hk, hrun, hover⟩ :=
    run_goes_on_or_over hb (s.src.length - s.cur + 1)
  · have hcur := (inv_run _ hI hrun).cur_le (by rw [hwent.src, htail])
    rw [hwent.cur, hwent.src] at hcur
    omega
  · refine ⟨k, t, hk, hrun, ?_⟩
    obtain hp | hp | ha | ⟨hp, -⟩ := hover
    · exact .inl ⟨_, hp⟩
    · exact .inl ⟨_, hp⟩
    · exact .inr ha
    · exact .inl hp

/-- Settles O46: of the ways a run can be over, an endless stream excludes the end of the stream. -/
theorem endlessStreamNeverRunsOut : Obligations.EndlessStreamNeverRunsOut := by
  unfold Obligations.EndlessStreamNeverRunsOut
  intro s _ hb htail n
  obtain ⟨t, len, rs, hrun, hwent, rfl, -⟩ | ⟨k, t, hk, hrun, hover⟩ := run_goes_on_or_over hb n
  · obtain ⟨ha, hp, -⟩ := (atBoundary_iff t).1 hwent.boundary
    exact .inl ⟨t, hrun, hp, ha, hwent.length_records⟩
  · refine .inr ⟨k, t, hk, hrun, ?_⟩
    obtain hp | hp | ha | ⟨-, a, hend⟩ := hover
    · exact .inl hp
    · exact .inr (.inl hp)
    · exact .inr (.inr ha)
    · have hread := Memory.read_endless s.src a htail
      rw [hend] at hread
      cases hread

/-- Settles O47: the run over the first `n` instructions of the stream. -/
theorem endlessCodeRunsForEver : Obligations.EndlessCodeRunsForEver := by
  unfold Obligations.EndlessCodeRunsForEver
  intro s hb hdriver hcode n
  choose recOf _ hrec using exec_is_runCall
  obtain ⟨is, rfl, hwf, hholds⟩ := hcode n
  obtain ⟨t, hrun, hwent⟩ := run_encodings hrec is s hb (handOff_of_never_fails hdriver) hwf hholds
  exact ⟨t, hrun, hwent.boundary, by rw [hwent.length_records, List.length_map]⟩

/-! ### The start of a run -/

/-- The sub-opcode check leaves the context (R172). -/
@[simp] theorem checkSubop_ctx (x : BitVec 3) (ph : Phase) (s : State) : (checkSubop x ph s).ctx = s.ctx := by
  unfold checkSubop
  cases arithOp x <;> rfl

/-- The classifier writes the class of the byte (R82). -/
theorem latchOpcode_opClass (b : Byte) (s : State) :
    (latchOpcode b s).ctx.opClass = some (classify s.params b) := by
  unfold latchOpcode
  cases hc : classify s.params b with
  | arithRegMem | arithImmAcc => simp only [checkSubop_ctx]
  | arithImmRm => cases s.params.swByte <;> rfl
  | unsupported | jumpOrLoop | movRegMem | movImmReg => rfl

/-- Settles O1: the first tick reads the byte at position 0, and the classifier writes its class. -/
theorem resetState : Obligations.ResetState := by
  unfold Obligations.ResetState
  refine ⟨rfl, rfl, rfl, rfl, rfl, rfl, rfl, rfl, fun m b hr => ?_⟩
  have hb : State.atBoundary { State.reset with src := m } = true := rfl
  refine ⟨_, tick_opcode hb hr, ?_, latchOpcode_opClass b _⟩
  obtain ⟨_, _, _, heq, -⟩ := latchOpcode_consumed b
    (inCall { State.reset with src := m } 1 Ctx.unwritten .boundary) rfl
  rw [heq]
  rfl

/-- Settles O2: the stream is empty, nothing has gone out and nothing is due. -/
theorem invariantAtReset : Obligations.InvariantAtReset := by
  unfold Obligations.InvariantAtReset
  exact {
    params_wf := by decide
    src_wf := rfl
    cur_le := fun _ => Nat.le_refl 0
    endless_clean := fun _ => rfl
    start_le := Nat.le_refl 0
    out_shape := rfl
    records_shape := rfl
    ctx_ready := fun _ => rfl
    due_running := fun h => absurd rfl h
    done_clean := fun _ => rfl
    driver_shape := rfl }

/-! ### Words of the opcode table -/

/-- The instruction that a table word decodes to is well-formed, and its encoding begins the word's bytes
(R107). -/
theorem decodeTableWord_eq_some {nbits w : Nat} {i : Instr} (h : decodeTableWord nbits w = some i) :
    WellFormed Params.standard i ∧ ∃ rest, tableBytes nbits w = encode i ++ rest := by
  unfold decodeTableWord at h
  split at h
  · rename_i j rest hdec
    cases h
    obtain ⟨hwf, hbytes⟩ := decode_inv hdec
    exact ⟨hwf, rest, hbytes⟩
  · cases h

/-- Settles O13: the placed bytes stand at the cursor, and the instruction's encoding begins them. -/
theorem tableWordRunsNext : Obligations.TableWordRunsNext := by
  unfold Obligations.TableWordRunsNext
  intro s nbits w i hb hparams hdec
  obtain ⟨hwf, rest, hbytes⟩ := decodeTableWord_eq_some hdec
  have hb' : (s.withFetchWord nbits w).atBoundary = true := hb
  have hholds : (s.withFetchWord nbits w).Holds (tableBytes nbits w) := Memory.bytesFrom_place _ s.src s.cur
  rw [hbytes] at hholds
  exact step_of_holds_encode hb' (by rwa [withFetchWord_params, hparams]) hholds.split.1

end Sys2Proof.Machine
